-- ==== Sys2Proof/Word.lean ====
section
/-! DEFINITION. The fixed-width words of HPTD: 00_scope.md R7 (data widths) and 10_state.md R20 (register widths). -/

namespace Sys2Proof

/-- A byte of the input buffer `BUF`. -/
abbrev Byte := BitVec 8

/-- A command word: "Every command is one 32-bit word" (30_encoding.md R90). -/
abbrev Word := BitVec 32

/-- A 64-bit register value: `POS`, `RES`, `ERR_POS` (10_state.md R20). -/
abbrev Reg64 := BitVec 64

/-- A symbol, "unsigned ≤ 16 bits" (00_scope.md R7). -/
abbrev Symbol := BitVec 16

/-- A code, "unsigned ≤ 16 bits" (00_scope.md R7). -/
abbrev Code := BitVec 16

/-- A code length, "unsigned 0–15" (00_scope.md R7). -/
abbrev CodeLen := BitVec 4

end Sys2Proof
end

