-- ==== Sys2Proof/Config.lean ====
section
/-! DEFINITION. What one HPTD is built with: the OPEN parameters of 00_scope.md R6, its fixed sizes, and the free
contents of the buffer after reset (10_state.md R39). -/

namespace Sys2Proof

/-- `DANGLING` of 00_scope.md R6: what happens to a repeat still pending when length decoding ends by exhaustion
(44_symbol_alphabet.md R176). -/
inductive Dangling where
  | drop
  | flush
  deriving DecidableEq, Repr

/-- The parameters that 00_scope.md R6 leaves OPEN and that a rule depends on.
`NSYM` is held as its greatest symbol, `NSYM - 1`, so that `1 <= NSYM <= 65536` holds of every value.
DESIGN CHOICE (assumption 1, safe). -/
structure Params where
  topSym        : Symbol
  dangling      : Dangling
  emptyRollback : Bool
  deriving DecidableEq, Repr

/-- `NSYM`: the number of symbols of the real alphabet (00_scope.md R6). -/
def Params.nsym (p : Params) : Nat := p.topSym.toNat + 1

/-- The defaults of 00_scope.md R6: `NSYM = 256`, `DANGLING = Drop`, `EMPTY_ROLLBACK = false`. -/
def Params.default : Params := ⟨255#16, .drop, false⟩

namespace Config

/-- `NCL`: the size of the code-length alphabet (00_scope.md R6). -/
def ncl : Nat := 18

/-- `PREV_INIT` (00_scope.md R6, 44_symbol_alphabet.md R171). PRESUMED by the spec itself (its G2; assumption 8,
unsafe). -/
def prevInit : CodeLen := 8#4

/-- The number of addressable bytes of `BUF`, `2^32 - 1` (10_state.md R20). -/
def bufBytes : Nat := 2 ^ 32 - 1

/-- What byte `addr` of `BUF` holds after the `k`-th reset until the host writes it: "unspecified (any bytes)"
(10_state.md R39; U11 of 93_implementation_defined.md). A FREE VALUE: nothing constrains it (assumption 4, safe). -/
opaque bufAtReset : (k addr : Nat) → Byte

end Config

end Sys2Proof
end

