-- ==== Sys2Proof/Syntax.lean ====
section
/-! DEFINITION. The commands of HPTD: one constructor per row of opcode_table.json (30_encoding.md R93), and the
pseudo-instructions of 30_encoding.md R97 as what they stand for. -/

namespace Sys2Proof

/-- The operand `t`: which table and tree (30_encoding.md R90). `metaAlpha` is `T = 0` (table 0, `TREE[0]`),
`realAlpha` is `T = 1` (table 1, `TREE[1]`). -/
inductive Alphabet where
  | metaAlpha
  | realAlpha
  deriving DecidableEq, Repr

/-- A command with its operands (30_encoding.md R93). `n` is the field `N`, `t` the field `T`. -/
inductive Instr where
  | peek (n : BitVec 16)
  | read (n : BitVec 16)
  | adv (n : BitVec 16)
  | ret (n : BitVec 16)
  | exh
  | rem
  | canon (t : Alphabet)
  | build (t : Alphabet)
  | decsym (t : Alphabet)
  | cldec
  | lendec
  | strdec
  | run
  | load
  deriving DecidableEq, Repr

/-- The pseudo-instructions of 30_encoding.md R97. -/
inductive Pseudo where
  | consume (n : BitVec 16)
  | rewind (n : BitVec 16)
  | skip (n : BitVec 16)
  | session
  | steprun
  deriving DecidableEq, Repr

/-- The commands a pseudo-instruction stands for (30_encoding.md R97). -/
def Pseudo.expand : Pseudo → List Instr
  | .consume n => [.read n]
  | .rewind n => [.ret n]
  | .skip n => [.adv n]
  | .session => [.load, .run]
  | .steprun => [.cldec, .build .metaAlpha, .lendec, .build .realAlpha, .strdec]

end Sys2Proof
end

