-- ==== Sys2Proof/WellFormed.lean ====
section
/-! DEFINITION. Which command terms are commands: the field constraints of 30_encoding.md R93 that the types of the
operands do not already state. -/

namespace Sys2Proof

/-- `MAXPEEK`: the largest `n` of peek and read (00_scope.md R6). -/
def maxPeek : Nat := 64

/-- A command's fields are legal: `N <= 64` on `PEEK` and `READ` (30_encoding.md R94). Every other constraint of
R93 is in the operand's type: `ADV` and `RET` take any 16-bit `N`, a `t` is 0 or 1, and the other commands carry no
operand, so their `N` and `T` are 0. -/
def Instr.wf : Instr → Bool
  | .peek n => n.toNat ≤ maxPeek
  | .read n => n.toNat ≤ maxPeek
  | .adv _ => true
  | .ret _ => true
  | .exh => true
  | .rem => true
  | .canon _ => true
  | .build _ => true
  | .decsym _ => true
  | .cldec => true
  | .lendec => true
  | .strdec => true
  | .run => true
  | .load => true

end Sys2Proof
end

