-- ==== Sys2Proof/Decode.lean ====
section
/-! DEFINITION. Command words to commands and back (30_encoding.md R90 to R95): a decoder total on the `2^32` words
that rejects by name, and an encoder. -/

namespace Sys2Proof

/-- Why a word is illegal (30_encoding.md R94). Every one of them is the error `IllegalCommand`. -/
inductive IllegalWord where
  /-- "`Z` is not zero" -/
  | reservedNotZero
  /-- "`OP` is not one of the fourteen values of rule R93" -/
  | unknownOp
  /-- "`T = 1` on a command without a `t` operand" -/
  | strayTable
  /-- "`N` is not 0 on a command without an `n` operand" -/
  | strayCount
  /-- "`N > 64` on `PEEK` or `READ`" -/
  | countTooLarge
  deriving DecidableEq, Repr

/-- `OP`, bits 31:24 (30_encoding.md R90). -/
def opField (w : Word) : BitVec 8 := w.extractLsb' 24 8

/-- `Z`, bits 23:17 (30_encoding.md R90). -/
def zField (w : Word) : BitVec 7 := w.extractLsb' 17 7

/-- `T`, bit 16 (30_encoding.md R90). -/
def tField (w : Word) : BitVec 1 := w.extractLsb' 16 1

/-- `N`, bits 15:0 (30_encoding.md R90). -/
def nField (w : Word) : BitVec 16 := w.extractLsb' 0 16

/-- A row's operands: what the `operands` column of 30_encoding.md R93 says of `N` and `T`, with the command built
from them. -/
inductive OpRow where
  /-- `N <= 64`, `T = 0` -/
  | shortCount (mk : BitVec 16 → Instr)
  /-- any `N`, `T = 0` -/
  | anyCount (mk : BitVec 16 → Instr)
  /-- `N = 0`, any `T` -/
  | table (mk : Alphabet → Instr)
  /-- `N = 0`, `T = 0` -/
  | plain (i : Instr)

/-- The opcode map of 30_encoding.md R93, in its order. -/
def opTable : List (BitVec 8 × OpRow) :=
  [ (0x01#8, .shortCount .peek), (0x02#8, .shortCount .read),
    (0x03#8, .anyCount .adv), (0x04#8, .anyCount .ret),
    (0x05#8, .plain .exh), (0x06#8, .plain .rem),
    (0x10#8, .table .canon), (0x11#8, .table .build), (0x12#8, .table .decsym),
    (0x20#8, .plain .cldec), (0x21#8, .plain .lendec), (0x22#8, .plain .strdec),
    (0x23#8, .plain .run), (0x30#8, .plain .load) ]

/-- The alphabet a `T` field selects (30_encoding.md R90). -/
def alphabetOf (t : BitVec 1) : Alphabet := if t = 0#1 then .metaAlpha else .realAlpha

/-- The field constraints of a row, then its command (30_encoding.md R94, R95). -/
def decodeRow (row : OpRow) (t : BitVec 1) (n : BitVec 16) : Except IllegalWord Instr :=
  match row with
  | .shortCount mk =>
    if t ≠ 0#1 then .error .strayTable
    else if maxPeek < n.toNat then .error .countTooLarge
    else .ok (mk n)
  | .anyCount mk => if t ≠ 0#1 then .error .strayTable else .ok (mk n)
  | .table mk => if n ≠ 0#16 then .error .strayCount else .ok (mk (alphabetOf t))
  | .plain i =>
    if t ≠ 0#1 then .error .strayTable
    else if n ≠ 0#16 then .error .strayCount
    else .ok i

/-- The decoder: "`Z != 0` gives illegal; `OP` not in the table gives illegal; then the field constraints of the
row" (30_encoding.md R95). -/
def decode (w : Word) : Except IllegalWord Instr :=
  if zField w ≠ 0#7 then .error .reservedNotZero
  else
    match opTable.lookup (opField w) with
    | none => .error .unknownOp
    | some row => decodeRow row (tField w) (nField w)

/-- The opcode of a command (30_encoding.md R93). -/
def Instr.opcode : Instr → BitVec 8
  | .peek _ => 0x01#8
  | .read _ => 0x02#8
  | .adv _ => 0x03#8
  | .ret _ => 0x04#8
  | .exh => 0x05#8
  | .rem => 0x06#8
  | .canon _ => 0x10#8
  | .build _ => 0x11#8
  | .decsym _ => 0x12#8
  | .cldec => 0x20#8
  | .lendec => 0x21#8
  | .strdec => 0x22#8
  | .run => 0x23#8
  | .load => 0x30#8

/-- The `T` bit that selects an alphabet (30_encoding.md R90). -/
def Alphabet.bit : Alphabet → BitVec 1
  | .metaAlpha => 0#1
  | .realAlpha => 1#1

/-- The field `T` of a command: 0 where it has no `t` operand (30_encoding.md R91). -/
def Instr.tBit : Instr → BitVec 1
  | .canon t | .build t | .decsym t => t.bit
  | .peek _ | .read _ | .adv _ | .ret _ => 0#1
  | .exh | .rem | .cldec | .lendec | .strdec | .run | .load => 0#1

/-- The field `N` of a command: 0 where it has no `n` operand (30_encoding.md R91). -/
def Instr.count : Instr → BitVec 16
  | .peek n | .read n | .adv n | .ret n => n
  | .canon _ | .build _ | .decsym _ => 0#16
  | .exh | .rem | .cldec | .lendec | .strdec | .run | .load => 0#16

/-- The word of a command: `OP << 24 | T << 16 | N` (30_encoding.md R90). -/
def encode (i : Instr) : Word := i.opcode ++ 0#7 ++ i.tBit ++ i.count

/-- The command the decoder reads from a word given as opcode_table.json numbers its bits. A command is one 32-bit
word and has no byte order of its own (30_encoding.md R90; assumption 21). -/
def decodeTableWord (nbits w : Nat) : Option Instr :=
  if w % 2 ^ nbits < 2 ^ 32 then
    match decode (BitVec.ofNat 32 (w % 2 ^ nbits)) with
    | .ok i => some i
    | .error _ => none
  else none

end Sys2Proof
end

