-- ==== Sys2Proof/Machine/State.lean ====
section
/-! DEFINITION. The state of HPTD (10_state.md R20 to R40) as plain data, its value after reset (R39), the moves of
the host (R38), and the reasons a step can stop. -/

namespace Sys2Proof.Machine

/-- A prefix tree: "a tagged variant over {Empty, Leaf(symbol), Internal(left, right)}" (10_state.md R34). -/
inductive Node where
  | empty
  | leaf (sym : Symbol)
  | internal (left right : Node)
  deriving DecidableEq, Repr

/-- The outcomes of a command, by name: the table of 60_exceptions.md R210. `ok` is code 0. `ERR_KIND` uses the same
codes, 0 meaning that no error has been recorded (10_state.md R27, R39). -/
inductive ErrCode where
  | ok
  | insufficientBits
  | positionUnderflow
  | positionOverflow
  | treeMismatch
  | corruptHistogram
  | treeCollision
  | lengthOverrun
  | illegalCommand
  | halted
  deriving DecidableEq, Repr

/-- A sub-cause: 0, 1 = exhaustion, 2 = Empty node (10_state.md R27). `STATUS.END` uses the same three values
(10_state.md R25; 45_stream_session.md R190: "`STATUS.END` <- its sub-cause"). -/
inductive SubCause where
  | none
  | exhaustion
  | emptyNode
  deriving DecidableEq, Repr

/-- `REP_CMD`, "one of 0, 16, 17" (10_state.md R20, R29). -/
inductive RepCmd where
  | none
  | rep16
  | rep17
  deriving DecidableEq, Repr

/-- An entry of a code table; entry `i` is the entry of symbol `i` (10_state.md R33). -/
structure CodeEntry where
  len  : CodeLen
  code : Code
  deriving DecidableEq, Repr

/-- The bytes the host has written into `BUF`: (address, byte) pairs, addresses strictly rising.
An unlisted address has no entry to read (assumption 4). -/
abbrev Memory := List Host.Cell

/-- The state elements the host may not write (10_state.md R38). -/
inductive ReadOnly where
  | bufLen
  | totalBits
  | pos
  | res
  | status
  | errKind
  | errSub
  | errPos
  | space
  | symPos
  | prevNz
  | numCodes
  | repCmd
  | repCount
  | code (t : Alphabet) (i : Nat)
  | tree (t : Alphabet)
  | out (i : Nat)
  | outCount
  deriving DecidableEq, Repr

/-- What the host can name (10_state.md R38). The addresses `HOST_MAP` gives them are left open, elements are named
(20_memory.md R69; assumption 17). -/
inductive HostElem where
  | buf (i : Nat)
  | lenIn
  | len (t : Alphabet) (i : Nat)
  | readOnly (e : ReadOnly)
  deriving DecidableEq, Repr

/-- What the host can do between two commands that changes something, or tries to (10_state.md R38; 60_exceptions.md
R227; 70_reset_and_hazards.md R240). Reading is no move: it changes nothing (assumption 20). -/
inductive HostMove where
  /-- issue a command word -/
  | issue (w : Word)
  /-- write byte `b` to `BUF[i]` -/
  | writeBuf (i : Nat) (b : Byte)
  /-- write `LEN_IN` -/
  | writeLenIn (v : BitVec 32)
  /-- write `LEN[t][i]` -/
  | writeLen (t : Alphabet) (i : Nat) (v : CodeLen)
  /-- write a read-only element -/
  | writeReadOnly (e : ReadOnly) (v : Reg64)
  /-- apply reset -/
  | reset
  deriving DecidableEq, Repr

/-- The state. The first four fields are the model's own; the others are the elements of 10_state.md R20. -/
structure State where
  /-- the OPEN parameters of 00_scope.md R6; no step changes them (assumption 1) -/
  params      : Params
  /-- the host's moves still to come, oldest first (assumption 3) -/
  host        : List HostMove
  /-- the host has written a byte of `BUF[0 .. BUF_LEN-1]` since the last `LOAD` (assumption 5) -/
  liveWritten : Bool
  /-- how often reset was applied; selects the free contents of `BUF` (assumption 14) -/
  resets      : Nat
  /-- `BUF` (R21) -/
  buf         : Memory
  /-- `LEN_IN` (R21) -/
  lenIn       : BitVec 32
  /-- `BUF_LEN` (R21) -/
  bufLen      : BitVec 32
  /-- `POS` (R22) -/
  pos         : Reg64
  /-- `RES` (R24) -/
  res         : Reg64
  /-- `STATUS.LAST` (R25) -/
  last        : ErrCode
  /-- `STATUS.FATAL` (R25) -/
  fatal       : Bool
  /-- `STATUS.END` (R25) -/
  ending      : SubCause
  /-- `ERR_KIND` (R27) -/
  errKind     : ErrCode
  /-- `ERR_SUB` (R27) -/
  errSub      : SubCause
  /-- `ERR_POS` (R27) -/
  errPos      : Reg64
  /-- `SPACE`, a signed integer (R26; assumption 9) -/
  space       : Int
  /-- `SYMPOS` (R28) -/
  symPos      : BitVec 17
  /-- `PREV_NZ` (R28) -/
  prevNz      : CodeLen
  /-- `NUM_CODES` (R28) -/
  numCodes    : BitVec 5
  /-- `REP_CMD` (R29) -/
  repCmd      : RepCmd
  /-- `REP_COUNT`, "a natural number with no upper bound in the rules" (R29) -/
  repCount    : Nat
  /-- table 0: `LEN[0]`, `CODE[0]` (R31) -/
  table0      : List CodeEntry
  /-- table 1: `LEN[1]`, `CODE[1]` (R32) -/
  table1      : List CodeEntry
  /-- `TREE[0]` (R34) -/
  tree0       : Node
  /-- `TREE[1]` (R34) -/
  tree1       : Node
  /-- `OUT`, oldest symbol first; `OUT_COUNT` is its length (R36) -/
  out         : List Symbol
  deriving DecidableEq, Repr

/-- The state after the first reset of a machine built with the parameters `p` (10_state.md R39). -/
def State.resetOf (p : Params) : State where
  params := p
  host := []
  liveWritten := false
  resets := 0
  buf := []
  lenIn := 0#32
  bufLen := 0#32
  pos := 0#64
  res := 0#64
  last := .ok
  fatal := false
  ending := .none
  errKind := .ok
  errSub := .none
  errPos := 0#64
  space := 0
  symPos := 0#17
  prevNz := Config.prevInit
  numCodes := 0#5
  repCmd := .none
  repCount := 0
  table0 := List.replicate Config.ncl ⟨0#4, 0#16⟩
  table1 := List.replicate p.nsym ⟨0#4, 0#16⟩
  tree0 := .empty
  tree1 := .empty
  out := []

/-- The machine right after reset (10_state.md R39, R240), with the default parameters of 00_scope.md R6
(assumption 2). -/
def State.reset : State := State.resetOf Params.default

/-- Why a step stops with a fault. -/
inductive Fault where
  /-- The symbol loop of `STRDEC` would run for ever, because `TREE[1]` is a bare Leaf, which no `BUILD` makes
  (10_state.md R34). Raised by `command`. Safe (assumption 11). -/
  | neverEnds
  deriving DecidableEq, Repr

/-- Why a step is refused. -/
inductive Refusal where
  /-- An instruction without a meaning: raised by a refused arm of `exec`. No arm is refused. Safe. -/
  | notModelled (mnemonic : String)
  /-- A command that reads the buffer, issued after the host wrote a live byte of it: "this spec says nothing about
  the result" (70_reset_and_hazards.md R245; U7 of 93_implementation_defined.md: `refuse`). Raised by `issueWord`.
  Safe (assumption 5). -/
  | liveBufferChanged
  deriving DecidableEq, Repr

end Sys2Proof.Machine
end

