-- ==== Sys2Proof/Machine/Flags.lean ====
section
/-! DEFINITION. Every flag-like piece of state and how it is computed: the codes of `STATUS`, the error record and
`REP_CMD` (10_state.md R25, R27, R29, R40; 60_exceptions.md R210), and the Kraft sum that `Canon` checks. -/

namespace Sys2Proof.Machine

/-- The error codes of 60_exceptions.md R210. "Codes 6, 7, 12 to 15 are never produced." -/
def ErrCode.code : ErrCode → BitVec 4
  | .ok => 0#4
  | .insufficientBits => 1#4
  | .positionUnderflow => 2#4
  | .positionOverflow => 3#4
  | .treeMismatch => 4#4
  | .corruptHistogram => 5#4
  | .treeCollision => 8#4
  | .lengthOverrun => 9#4
  | .illegalCommand => 10#4
  | .halted => 11#4

/-- The value of `ERR_SUB` or `STATUS.END` (10_state.md R25, R27). -/
def SubCause.code : SubCause → BitVec 2
  | .none => 0#2
  | .exhaustion => 1#2
  | .emptyNode => 2#2

/-- The value of `REP_CMD` (10_state.md R29). -/
def RepCmd.code : RepCmd → BitVec 5
  | .none => 0#5
  | .rep16 => 16#5
  | .rep17 => 17#5

/-- `STATUS` as the host reads it: `LAST` in bits 3:0, `FATAL` in bit 4, `END` in bits 6:5, "Bits 63:7 of `STATUS`
read as zero" (10_state.md R25). -/
def statusWord (s : State) : Reg64 :=
  0#57 ++ s.ending.code ++ BitVec.ofBool s.fatal ++ s.last.code

/-- Normal end of a command: `STATUS.LAST <- 0` (60_exceptions.md R220). -/
def endOk (s : State) : State := { s with last := .ok }

/-- The share of the code space a length takes, scaled to 15 bits: nothing for an absent symbol, else
`1 << (15 - len)` (42_canonical.md R150). -/
def kraftTerm (l : CodeLen) : Nat := if l = 0#4 then 0 else 1 <<< (15 - l.toNat)

/-- `kraft` of 42_canonical.md R150: the sum over the entries with nonzero length. -/
def kraftSum (tab : List CodeEntry) : Nat := (tab.map fun e => kraftTerm e.len).sum

end Sys2Proof.Machine
end

