-- ==== Sys2Proof/Machine/Operands.lean ====
section
/-! DEFINITION. The operand forms: the count `n` and the selector `t` of a command word (30_encoding.md R91), and the
fields of the stream (30_encoding.md R81, R82, R86, R92). -/

namespace Sys2Proof.Machine

/-- `n = zext_64(N)`: "the number `0 .. 65535`; no scaling, no sign" (30_encoding.md R91). -/
def countOf (n : BitVec 16) : Nat := n.toNat

/-- `N_t`: the number of entries of table `t`, `N_0 = 18`, `N_1 = NSYM` (41_prefixtree.md, 42_canonical.md). -/
def tableSize (p : Params) : Alphabet → Nat
  | .metaAlpha => Config.ncl
  | .realAlpha => p.nsym

/-- Table `t` (10_state.md R31, R32). -/
def State.table (s : State) : Alphabet → List CodeEntry
  | .metaAlpha => s.table0
  | .realAlpha => s.table1

/-- Replace table `t`. -/
def State.setTable (s : State) (t : Alphabet) (tab : List CodeEntry) : State :=
  match t with
  | .metaAlpha => { s with table0 := tab }
  | .realAlpha => { s with table1 := tab }

/-- `TREE[t]` (10_state.md R34). -/
def State.tree (s : State) : Alphabet → Node
  | .metaAlpha => s.tree0
  | .realAlpha => s.tree1

/-- Replace `TREE[t]` whole (10_state.md R34). -/
def State.setTree (s : State) (t : Alphabet) (n : Node) : State :=
  match t with
  | .metaAlpha => { s with tree0 := n }
  | .realAlpha => { s with tree1 := n }

/-- A table of `n` absent symbols with code 0. -/
def clearTable (n : Nat) : List CodeEntry := List.replicate n ⟨0#4, 0#16⟩

/-- `LEN[i] <- v` in a table; an index beside the table writes nothing (10_state.md R38). -/
def setLen : List CodeEntry → Nat → CodeLen → List CodeEntry
  | [], _, _ => []
  | e :: tab, 0, v => { e with len := v } :: tab
  | e :: tab, i + 1, v => e :: setLen tab i v

/-- `LEN[i + k] <- v` for `k` in `0 .. count-1`: the fill of 44_symbol_alphabet.md R174. -/
def fillLen : List CodeEntry → (i count : Nat) → CodeLen → List CodeEntry
  | [], _, _, _ => []
  | e :: tab, 0, 0, _ => e :: tab
  | e :: tab, 0, count + 1, v => { e with len := v } :: fillLen tab 0 count v
  | e :: tab, i + 1, count, v => e :: fillLen tab i count v

/-- `PERM`: the order in which the meta-alphabet's lengths stand in the stream, slot 0 first (00_scope.md R6). -/
def perm : List Nat := [1, 2, 3, 4, 0, 5, 17, 6, 16, 7, 8, 9, 10, 11, 12, 13, 14, 15]

/-- `CLPFX`: 4 peeked bits to (length value, bits consumed), rows `p = 0 .. 15` (30_encoding.md R82).
Which of `00` and `10` is value 0 is PRESUMED by the spec itself (its G1; assumption 7, unsafe). -/
def clpfxTable : List (CodeLen × Nat) :=
  [ (0#4, 2), (4#4, 2), (3#4, 2), (2#4, 3), (0#4, 2), (4#4, 2), (3#4, 2), (1#4, 4),
    (0#4, 2), (4#4, 2), (3#4, 2), (2#4, 3), (0#4, 2), (4#4, 2), (3#4, 2), (5#4, 4) ]

/-- `CLPFX[p]`. A peek of 4 bits is below 16, so the default is never read. -/
def clpfx (p : Nat) : CodeLen × Nat := clpfxTable.getD p (0#4, 2)

/-- `SPACE_CL`: the starting code space of the meta-alphabet (00_scope.md R6). -/
def spaceCl : Int := 32

/-- `SPACE_SYM`: the starting code space of the real alphabet (00_scope.md R6). -/
def spaceSym : Int := 32768

/-- `REPBASE` (00_scope.md R6). -/
def repBase : Nat := 3

/-- The repeat command a meta-symbol `v >= 16` is (30_encoding.md R85). "No other value can be decoded": a symbol
above 17, which only an unreachable tree holds, is taken as 17 (assumption 12). -/
def repCmdOf (v : Symbol) : RepCmd := if v = 16#16 then .rep16 else .rep17

/-- `step = v - 14`: the extra bits after a repeat command (30_encoding.md R86; 90_conflicts.md C1). -/
def RepCmd.extraBits (c : RepCmd) : Nat := c.code.toNat - 14

end Sys2Proof.Machine
end

