-- ==== Sys2Proof/Machine/Ops.lean ====
section
/-! DEFINITION. The named operations that commands share: the buffer memory and its bits (20_memory.md R61, R62), the
result of a primitive (00_scope.md R10, R11), the wrapper around every command with its error record
(60_exceptions.md R220, which is HPTD's exception entry) and the way back from an error (R224). -/

namespace Sys2Proof.Machine

/-! ### The buffer -/

/-- The byte the memory lists at `a`, if any. -/
def Memory.read : Memory → Nat → Option Byte
  | [], _ => none
  | (b, v) :: m, a => if a = b then some v else Memory.read m a

/-- List byte `v` at `a`, keeping the addresses rising. -/
def Memory.write : Memory → Nat → Byte → Memory
  | [], a, v => [(a, v)]
  | (b, w) :: m, a, v =>
    if a < b then (a, v) :: (b, w) :: m
    else if a = b then (a, v) :: m
    else (b, w) :: Memory.write m a v

/-- Every listed address is at least `lo`, below the end of `BUF`, and the addresses rise strictly. -/
def Memory.wfFrom (lo : Nat) : Memory → Bool
  | [] => true
  | (a, _) :: m => decide (lo ≤ a) && decide (a < Config.bufBytes) && Memory.wfFrom (a + 1) m

/-- The canonical form of a memory. An unlisted address reads as no value, so no entry can equal it. -/
def Memory.wf (m : Memory) : Bool := Memory.wfFrom 0 m

/-- `TOTAL_BITS`: "the derived value `8 * BUF_LEN`" (10_state.md R22). -/
def State.totalBits (s : State) : Nat := 8 * s.bufLen.toNat

/-- `BUF[i]`: what the host wrote there, else the free value the buffer has held since reset (assumption 4). -/
def bufByte (s : State) (i : Nat) : Byte :=
  (Memory.read s.buf i).getD (Config.bufAtReset s.resets i)

/-- `BitAt(p)`: bit `p mod 8` of byte `p div 8` (20_memory.md R61). -/
def bitAt (s : State) (p : Nat) : Bool := (bufByte s (p / 8)).getLsbD (p % 8)

/-- `Bits(p, n)`: the sum over `i` in `0 .. n-1` of `BitAt(p + i) << i` (20_memory.md R62). -/
def bits (s : State) (p : Nat) : Nat → Nat
  | 0 => 0
  | n + 1 => bits s p n + (bitAt s (p + n)).toNat <<< n

/-! ### Primitives: a value or a raise -/

/-- How a primitive ends: it returns a value or raises an error kind (00_scope.md R11). Either way the state carries
every write made so far (00_scope.md R10). -/
inductive Ret (α : Type) where
  /-- `return v` -/
  | done (v : α) (s : State)
  /-- `raise K(sub)` -/
  | raised (k : ErrCode) (sub : SubCause) (s : State)
  /-- no end: a loop that makes no progress (assumption 11) -/
  | stuck
  deriving DecidableEq, Repr

/-- Go on with `f` after a return; a raise ends the whole command (00_scope.md R10). -/
def Ret.bind {α β : Type} (r : Ret α) (f : α → State → Ret β) : Ret β :=
  match r with
  | .done v s => f v s
  | .raised k sub s => .raised k sub s
  | .stuck => .stuck

/-! ### The end of a command -/

/-- The exception entry of HPTD: the raise handling of 60_exceptions.md R220. `ERR_KIND`, `ERR_SUB` and `ERR_POS` are
written together, `ERR_POS` from `POS` "as the raising rule left it", `STATUS.LAST` takes the code, and a fatal raise
sets `STATUS.FATAL`. "There is no saved return address, no handler, no mode change and no stack." -/
def takeError (fatal : Bool) (k : ErrCode) (sub : SubCause) (s : State) : State :=
  { s with errKind := k, errSub := sub, errPos := s.pos, last := k, fatal := s.fatal || fatal }

/-- A command refused because HPTD is halted: `STATUS.LAST <- 11`, "Nothing else changes" (60_exceptions.md R218). -/
def refuseHalted (s : State) : State := { s with last := .halted }

/-- The return from an error, and the soft reset: what `LOAD` does (60_exceptions.md R224; 45_stream_session.md R192).
`BUF_LEN` takes `LEN_IN`; every element except `BUF` and `LEN_IN` takes its reset value. -/
def discardSession (s : State) : State :=
  { State.resetOf s.params with
    host := s.host, resets := s.resets, buf := s.buf, lenIn := s.lenIn, bufLen := s.lenIn }

/-- The wrapper around every command but `LOAD` (60_exceptions.md R220): the gate of R222, the command's rule, then
its normal end or the handling of its raise. `fatal` says whether the command's raises are fatal (R221). -/
def command (fatal : Bool) (body : State → Ret Unit) (s : State) : Host.Outcome State Fault Refusal :=
  if s.fatal then .next (refuseHalted s)
  else
    match body s with
    | .done _ t => .next (endOk t)
    | .raised k sub t => .next (takeError fatal k sub t)
    | .stuck => .fault .neverEnds

/-- `RES <- zext_64(v)` (10_state.md R24). -/
def setRes (v : Nat) (s : State) : Ret Unit := .done () { s with res := BitVec.ofNat 64 v }

end Sys2Proof.Machine
end

