-- ==== Sys2Proof/Machine/Canonical.lean ====
section
/-! DEFINITION. The canonical code constructor (42_canonical.md): `Canon(t)` and `CANON`. -/

namespace Sys2Proof.Machine

/-- `bl_count[len]` for `len` from 1: how many entries have that length; `bl_count[0]` is 0 (R150). -/
def blCount (tab : List CodeEntry) (len : Nat) : Nat :=
  if len = 0 then 0 else tab.countP fun e => e.len.toNat = len

/-- The rest of `next_code` after a length whose first code is `code`: for each further count,
`next_code[len] = (next_code[len-1] + bl_count[len-1]) << 1` (R150). -/
def nextCodesAfter (code : Nat) : (counts : List Nat) → List Nat
  | [] => []
  | c :: counts => (code + c) <<< 1 :: nextCodesAfter ((code + c) <<< 1) counts

/-- `next_code[0 .. 15]`, with `next_code[0] = 0` (R150). -/
def nextCodes (tab : List CodeEntry) : List Nat :=
  0 :: nextCodesAfter 0 ((List.range 15).map (blCount tab))

/-- The last loop of R150: `CODE[s] <- next_code[L]; next_code[L] <- next_code[L] + 1` for `L = LEN[s]` nonzero,
`CODE[s] <- 0` otherwise, in ascending symbol order. -/
def assignCodes : List CodeEntry → (next : List Nat) → List CodeEntry
  | [], _ => []
  | e :: tab, next =>
    if e.len = 0#4 then { e with code := 0#16 } :: assignCodes tab next
    else
      { e with code := BitVec.ofNat 16 (next.getD e.len.toNat 0) } ::
        assignCodes tab (next.set e.len.toNat (next.getD e.len.toNat 0 + 1))

/-- `Canon(t)` (R150), with the check of R151 before any write. -/
def canon (t : Alphabet) (s : State) : Ret Unit :=
  if 32768 < kraftSum (s.table t) then .raised .corruptHistogram .none s
  else .done () (s.setTable t (assignCodes (s.table t) (nextCodes (s.table t))))

/-- `CANON t` (R152). Its raise is fatal (60_exceptions.md R221). -/
def execCanon (t : Alphabet) (s : State) : Host.Outcome State Fault Refusal :=
  command true (canon t) s

end Sys2Proof.Machine
end

