-- ==== Sys2Proof/Machine/Cursor.lean ====
section
/-! DEFINITION. The bit cursor (40_bitcursor.md): its primitives and `PEEK`, `READ`, `ADV`, `RET`, `EXH`, `REM`. -/

namespace Sys2Proof.Machine

/-- `POS <- p`. -/
def setPos (p : Nat) (s : State) : State := { s with pos := BitVec.ofNat 64 p }

/-- `Peek(n)` (R110). -/
def peekBits (n : Nat) (s : State) : Ret Nat :=
  if s.totalBits < s.pos.toNat + n then .raised .insufficientBits .none s
  else .done (bits s s.pos.toNat n) s

/-- `Read(n)`: `Peek(n)`, then `POS <- POS + n` (R111). -/
def readBits (n : Nat) (s : State) : Ret Nat :=
  (peekBits n s).bind fun v s => .done v (setPos (s.pos.toNat + n) s)

/-- `Advance(n)` (R112). -/
def advance (n : Nat) (s : State) : Ret Unit :=
  if s.totalBits < s.pos.toNat + n then .raised .positionOverflow .none s
  else .done () (setPos (s.pos.toNat + n) s)

/-- `Retreat(n)` (R113). -/
def retreat (n : Nat) (s : State) : Ret Unit :=
  if s.pos.toNat < n then .raised .positionUnderflow .none s
  else .done () (setPos (s.pos.toNat - n) s)

/-- `Exhausted()`: "true iff position equals `total_bits`" (R114). -/
def exhausted (s : State) : Bool := s.pos.toNat = s.totalBits

/-- `Remaining()`: `TOTAL_BITS - POS` (R114). -/
def remaining (s : State) : Nat := s.totalBits - s.pos.toNat

/-- The legality of `n` on `PEEK` and `READ`, "checked first" (R115, R116; 30_encoding.md R94). The decoder has already
rejected such a word, so this is met only by a term that is not well formed (assumption 13). -/
def withLegalCount (n : BitVec 16) (body : State → Ret Unit) (s : State) : Ret Unit :=
  if maxPeek < countOf n then .raised .illegalCommand .none s else body s

/-- `PEEK n` (R115): `v <- Peek(n); RES <- zext_64(v)`. -/
def execPeek (n : BitVec 16) (s : State) : Host.Outcome State Fault Refusal :=
  command false (withLegalCount n fun s => (peekBits (countOf n) s).bind setRes) s

/-- `READ n` (R116): `v <- Read(n); RES <- zext_64(v)`. -/
def execRead (n : BitVec 16) (s : State) : Host.Outcome State Fault Refusal :=
  command false (withLegalCount n fun s => (readBits (countOf n) s).bind setRes) s

/-- `ADV n` (R117): `Advance(n)`. -/
def execAdv (n : BitVec 16) (s : State) : Host.Outcome State Fault Refusal :=
  command false (advance (countOf n)) s

/-- `RET n` (R118): `Retreat(n)`. -/
def execRet (n : BitVec 16) (s : State) : Host.Outcome State Fault Refusal :=
  command false (retreat (countOf n)) s

/-- `EXH` (R119): `RES <- 1 if Exhausted() else 0`. -/
def execExh (s : State) : Host.Outcome State Fault Refusal :=
  command false (fun s => setRes (exhausted s).toNat s) s

/-- `REM` (R120): `RES <- zext_64(Remaining())`. -/
def execRem (s : State) : Host.Outcome State Fault Refusal :=
  command false (fun s => setRes (remaining s) s) s

end Sys2Proof.Machine
end

