-- ==== Sys2Proof/Machine/CodeLengths.lean ====
section
/-! DEFINITION. The code-length alphabet decoder (43_codelength_alphabet.md): `CLDec` and `CLDEC`. -/

namespace Sys2Proof.Machine

/-- The first lines of R160: table 0 cleared, `SPACE <- 32`, `NUM_CODES <- 0`. -/
def clStart (s : State) : State :=
  { s with table0 := clearTable Config.ncl, space := spaceCl, numCodes := 0#5 }

/-- One slot of the loop of R160: peek 4 bits, classify, advance by what was consumed, store the length of `sym`, and
for a nonzero length take `32 >> value` from `SPACE` and count the code. -/
def clSlot (sym : Nat) (s : State) : Ret Unit :=
  (peekBits 4 s).bind fun p s =>
  (advance (clpfx p).2 s).bind fun _ s =>
  let s := { s with table0 := setLen s.table0 sym (clpfx p).1 }
  if (clpfx p).1 ≠ 0#4 then
    .done () { s with
      space := s.space - ((32 >>> (clpfx p).1.toNat : Nat) : Int), numCodes := s.numCodes + 1#5 }
  else .done () s

/-- The loop of R160 over the symbols of the slots still to be read: it ends when they are used up, or after a slot
that leaves `SPACE <= 0` (R162). A zero length leaves `SPACE` as it was, above 0, so the test may follow every slot. -/
def clLoop : List Nat → State → Ret Unit
  | [], s => .done () s
  | sym :: slots, s =>
    (clSlot sym s).bind fun _ s => if s.space ≤ 0 then .done () s else clLoop slots s

/-- The check of R160 after the loop (R163). -/
def clCheck (s : State) : Ret Unit :=
  if s.numCodes ≠ 1#5 ∧ s.space ≠ 0 then .raised .corruptHistogram .none s else .done () s

/-- `CLDec()` (R160). -/
def clDec (s : State) : Ret Unit :=
  (readBits 2 (clStart s)).bind fun skip s =>
  (clLoop (perm.drop skip) s).bind fun _ s =>
  (clCheck s).bind fun _ s =>
  canon .metaAlpha s

/-- `CLDEC` (R164). Its raises are fatal. -/
def execCldec (s : State) : Host.Outcome State Fault Refusal := command true clDec s

end Sys2Proof.Machine
end

