-- ==== Sys2Proof/Machine/Tree.lean ====
section
/-! DEFINITION. The prefix tree (41_prefixtree.md): `Insert`, `Build`, `DecodeSymbol`, `BUILD`, `DECSYM`. -/

namespace Sys2Proof.Machine

/-- `Insert(node, c, k, s)`: symbol `s` at the path given by bits `k-1 .. 0` of `c`; `none` is `raise TreeCollision`
(R131). -/
def Node.insert (node : Node) (c : Code) (k : Nat) (s : Symbol) : Option Node :=
  match k with
  | 0 =>
    match node with
    | .empty => some (.leaf s)
    | .leaf _ => none
    | .internal _ _ => none
  | k + 1 =>
    match node with
    | .leaf _ => none
    | .empty =>
      if c.getLsbD k then (Node.insert .empty c k s).map (.internal .empty)
      else (Node.insert .empty c k s).map fun l => .internal l .empty
    | .internal l r =>
      if c.getLsbD k then (Node.insert r c k s).map (.internal l)
      else (Node.insert l c k s).map fun l => .internal l r

/-- The loop of R132 over the entries of a table from symbol `sym` on: an absent symbol is skipped, any other is
inserted. -/
def insertAll : List CodeEntry → (sym : Nat) → Node → Option Node
  | [], _, node => some node
  | e :: tab, sym, node =>
    if e.len = 0#4 then insertAll tab (sym + 1) node
    else (node.insert e.code e.len.toNat (BitVec.ofNat 16 sym)).bind (insertAll tab (sym + 1))

/-- `Build(t)`: `TREE[t] <- Empty`, the inserts into a local tree, `TREE[t] <- tree` (R132). -/
def buildTree (t : Alphabet) (s : State) : Ret Unit :=
  match insertAll (s.table t) 0 .empty with
  | none => .raised .treeCollision .none (s.setTree t .empty)
  | some tree => .done () (s.setTree t tree)

/-- `BUILD t` (R132). Its raise is fatal (R133; 60_exceptions.md R221). -/
def execBuild (t : Alphabet) (s : State) : Host.Outcome State Fault Refusal :=
  command true (buildTree t) s

/-- The walk of R134 from a node, `start` being where the attempt began. The node reached is examined before the
cursor is. -/
def walk (start : Reg64) : Node → State → Ret Symbol
  | .leaf y, s => .done y s
  | .empty, s =>
    .raised .treeMismatch .emptyNode (if s.params.emptyRollback then { s with pos := start } else s)
  | .internal l r, s =>
    if exhausted s then .raised .treeMismatch .exhaustion { s with pos := start }
    else (readBits 1 s).bind fun b s => if b = 0 then walk start l s else walk start r s

/-- `DecodeSymbol(t)` (R134). -/
def decodeSymbol (t : Alphabet) (s : State) : Ret Symbol := walk s.pos (s.tree t) s

/-- `DECSYM t` (R135): `s <- DecodeSymbol(t); RES <- zext_64(s)`. Its raise is not fatal. -/
def execDecsym (t : Alphabet) (s : State) : Host.Outcome State Fault Refusal :=
  command false (fun s => (decodeSymbol t s).bind fun y s => setRes y.toNat s) s

end Sys2Proof.Machine
end

