-- ==== Sys2Proof/Machine/RunLengths.lean ====
section
/-! DEFINITION. The run-length code-length decoder (44_symbol_alphabet.md): `Flush`, `LenDec` and `LENDEC`. -/

namespace Sys2Proof.Machine

/-- Forget the pending repeat: `REP_CMD <- 0; REP_COUNT <- 0` (R174). -/
def clearRepeat (s : State) : State := { s with repCmd := .none, repCount := 0 }

/-- The length a run fills with: 0 for command 17, else `PREV_NZ` (R174). -/
def fillValue (s : State) : CodeLen := if s.repCmd = .rep17 then 0#4 else s.prevNz

/-- `Flush()` (R174): nothing pending, a run that would pass `NSYM`, or the fill. -/
def flush (s : State) : Ret Unit :=
  if s.repCount = 0 then .done () (clearRepeat s)
  else if s.params.nsym < s.symPos.toNat + s.repCount then .raised .lengthOverrun .none s
  else
    .done () (clearRepeat { s with
      table1 := fillLen s.table1 s.symPos.toNat s.repCount (fillValue s)
      symPos := BitVec.ofNat 17 (s.symPos.toNat + s.repCount)
      space :=
        if s.repCmd = .rep16 then s.space - ((s.repCount <<< (15 - s.prevNz.toNat) : Nat) : Int)
        else s.space })

/-- Assign the literal length `v` to the next symbol (R170, R172). -/
def assignLiteral (v : CodeLen) (s : State) : State :=
  let s := { s with
    table1 := setLen s.table1 s.symPos.toNat v, symPos := BitVec.ofNat 17 (s.symPos.toNat + 1) }
  if v ≠ 0#4 then { s with prevNz := v, space := s.space - ((32768 >>> v.toNat : Nat) : Int) } else s

/-- A literal `v < 16` (R172): flush, check that a position is left, assign. -/
def literal (v : CodeLen) (s : State) : Ret Unit :=
  (flush s).bind fun _ s =>
  if s.params.nsym ≤ s.symPos.toNat then .raised .lengthOverrun .none s
  else .done () (assignLiteral v s)

/-- The new repeat count: merged with a pending one, `((count - 2) << step) + new_repeat`, else `new_repeat` (R173). -/
def mergedCount (count step extra : Nat) : Nat :=
  if count ≠ 0 then ((count - 2) <<< step) + (extra + repBase) else extra + repBase

/-- A repeat command `c` (R173): flush a different one, set `REP_CMD`, read the extra bits, count. -/
def repeatCommand (c : RepCmd) (s : State) : Ret Unit :=
  (if s.repCmd ≠ c then flush s else .done () s).bind fun _ s =>
  (readBits c.extraBits { s with repCmd := c }).bind fun extra s =>
  .done () { s with repCount := mergedCount s.repCount c.extraBits extra }

/-- The body of the loop of R170: decode a meta-symbol and apply it. -/
def lenItem (s : State) : Ret Unit :=
  (decodeSymbol .metaAlpha s).bind fun v s =>
  if v.toNat < 16 then literal (v.setWidth 4) s else repeatCommand (repCmdOf v) s

/-- The test at the head of the loop of R170 (R175). -/
def lenMore (s : State) : Bool :=
  !exhausted s && decide (0 < s.space) && decide (s.symPos.toNat < s.params.nsym)

/-- The loop of R170. `fuel` bounds the number of meta-symbols (assumption 11). -/
def lenLoop : (fuel : Nat) → State → Ret Unit
  | 0, _ => .stuck
  | fuel + 1, s => if lenMore s then (lenItem s).bind fun _ s => lenLoop fuel s else .done () s

/-- The first lines of R170: table 1 cleared and the start values of R171. -/
def lenStart (s : State) : State :=
  { s with
    table1 := clearTable s.params.nsym, space := spaceSym, symPos := 0#17, prevNz := Config.prevInit
    repCmd := .none, repCount := 0 }

/-- A bound on the meta-symbols of part 3: each literal fills a position, each repeat command reads a bit. -/
def lenFuel (s : State) : Nat := s.params.nsym + remaining s + 1

/-- The pending repeat at the end of the loop: the policy `DANGLING` (R176). -/
def lenDangling (s : State) : Ret Unit :=
  if s.params.dangling = .flush ∧ exhausted s ∧ 0 < s.space ∧ s.symPos.toNat < s.params.nsym then flush s
  else .done () s

/-- The check after the loop (R177). -/
def lenCheck (s : State) : Ret Unit :=
  if s.space ≠ 0 then .raised .corruptHistogram .none s else .done () s

/-- `LenDec()` (R170). -/
def lenDec (s : State) : Ret Unit :=
  (lenLoop (lenFuel s) (lenStart s)).bind fun _ s =>
  (lenDangling s).bind fun _ s =>
  (lenCheck s).bind fun _ s =>
  canon .realAlpha s

/-- `LENDEC` (R179). Its raises are fatal. -/
def execLendec (s : State) : Host.Outcome State Fault Refusal := command true lenDec s

end Sys2Proof.Machine
end

