-- ==== Sys2Proof/Machine/Session.lean ====
section
/-! DEFINITION. The symbol stream and the session (45_stream_session.md): `STRDEC`, `RUN`, `LOAD`. -/

namespace Sys2Proof.Machine

/-- The loop of R190, `n` symbols having been appended. A raise of `DecodeSymbol` "is caught, not propagated":
`STATUS.END` takes its sub-cause and the loop ends. `fuel` bounds the number of symbols (assumption 11). -/
def strLoop : (fuel n : Nat) → State → Ret Nat
  | 0, _, _ => .stuck
  | fuel + 1, n, s =>
    if exhausted s then .done n s
    else
      match decodeSymbol .realAlpha s with
      | .done y s => strLoop fuel (n + 1) { s with out := s.out ++ [y] }
      | .raised _ sub s => .done n { s with ending := sub }
      | .stuck => .stuck

/-- `StrDec()` (R190). Each symbol reads at least one bit, so the bits that remain bound their number. -/
def strDec (s : State) : Ret Unit :=
  (strLoop (remaining s + 1) 0 { s with ending := .none }).bind setRes

/-- `STRDEC` (R190): it always ends `OK`. -/
def execStrdec (s : State) : Host.Outcome State Fault Refusal := command false strDec s

/-- `Run()` (R191): the five steps in order, the first raise ending the command. -/
def runSession (s : State) : Ret Unit :=
  (clDec s).bind fun _ s =>
  (buildTree .metaAlpha s).bind fun _ s =>
  (lenDec s).bind fun _ s =>
  (buildTree .realAlpha s).bind fun _ s =>
  strDec s

/-- `RUN` (R191): "every raise of `RUN` is fatal". -/
def execRun (s : State) : Host.Outcome State Fault Refusal := command true runSession s

/-- `LOAD` (R192): "the only command accepted while `STATUS.FATAL = 1`", so it stands outside the gate. -/
def execLoad (s : State) : Host.Outcome State Fault Refusal := .next (endOk (discardSession s))

end Sys2Proof.Machine
end

