-- ==== Sys2Proof/Machine/Dispatch.lean ====
section
/-! DEFINITION. Every command to its meaning: one arm per constructor of Instr. -/

namespace Sys2Proof.Machine

def exec (i : Instr) (s : State) : Host.Outcome State Fault Refusal :=
  match i with
  -- the bit cursor (40_bitcursor.md)
  | .peek n => Sys2Proof.Machine.execPeek n s
  | .read n => Sys2Proof.Machine.execRead n s
  | .adv n => Sys2Proof.Machine.execAdv n s
  | .ret n => Sys2Proof.Machine.execRet n s
  | .exh => Sys2Proof.Machine.execExh s
  | .rem => Sys2Proof.Machine.execRem s
  -- the canonical constructor and the tree (42_canonical.md, 41_prefixtree.md)
  | .canon t => Sys2Proof.Machine.execCanon t s
  | .build t => Sys2Proof.Machine.execBuild t s
  | .decsym t => Sys2Proof.Machine.execDecsym t s
  -- the two length decoders (43_codelength_alphabet.md, 44_symbol_alphabet.md)
  | .cldec => Sys2Proof.Machine.execCldec s
  | .lendec => Sys2Proof.Machine.execLendec s
  -- the stream and the session (45_stream_session.md)
  | .strdec => Sys2Proof.Machine.execStrdec s
  | .run => Sys2Proof.Machine.execRun s
  | .load => Sys2Proof.Machine.execLoad s

end Sys2Proof.Machine
end

