-- ==== Sys2Proof/Machine/HostPort.lean ====
section
/-! DEFINITION. What the host reads and writes (10_state.md R38), and reset as the host applies it (R39, R240). -/

namespace Sys2Proof.Machine

/-- A host write to `BUF[i]`. `BUF` has `2^32 - 1` bytes (R20); at another index nothing is written: "out-of-range
indices read 0 and ignore writes" (92_eei_decisions.md D15; assumption 6).
A write to a live byte is remembered: R21 and R245 of the spec ask the host not to make one (assumption 5). -/
def hostWriteBuf (i : Nat) (b : Byte) (s : State) : Host.Outcome State Fault Refusal :=
  if Config.bufBytes ≤ i then .next s
  else
    .next { s with
      buf := Memory.write s.buf i b, liveWritten := s.liveWritten || decide (i < s.bufLen.toNat) }

/-- A host write to `LEN_IN`: "any 32-bit value" (R38). -/
def hostWriteLenIn (v : BitVec 32) (s : State) : Host.Outcome State Fault Refusal :=
  .next { s with lenIn := v }

/-- A host write to `LEN[t][i]`: "any 4-bit value, only while `STATUS.FATAL = 0`"; ignored while halted, and beside
the table it "writes nothing" (R38). -/
def hostWriteLen (t : Alphabet) (i : Nat) (v : CodeLen) (s : State) : Host.Outcome State Fault Refusal :=
  if s.fatal then .next s else .next (s.setTable t (setLen (s.table t) i v))

/-- "A host write to a read-only element is ignored" (R38). -/
def hostWriteReadOnly (_e : ReadOnly) (_v : Reg64) (s : State) : Host.Outcome State Fault Refusal := .next s

/-- Reset (R39, R240): every element at its reset value, the contents of `BUF` unspecified anew. The parameters "are
fixed when the hardware is built" (70_reset_and_hazards.md R242) (assumption 14). -/
def applyReset (s : State) : Host.Outcome State Fault Refusal :=
  .next { State.resetOf s.params with host := s.host, resets := s.resets + 1 }

/-- Entry `i` of table `t` as the host sees it; beside the table it reads as zero (R38). -/
def hostEntry (t : Alphabet) (i : Nat) (s : State) : CodeEntry := (s.table t).getD i ⟨0#4, 0#16⟩

/-- What the host reads of a read-only element. The trees are not readable (R38): `none`. -/
def hostReadOnly (e : ReadOnly) (s : State) : Option Int :=
  match e with
  | .bufLen => some s.bufLen.toNat
  | .totalBits => some s.totalBits
  | .pos => some s.pos.toNat
  | .res => some s.res.toNat
  | .status => some (statusWord s).toNat
  | .errKind => some s.errKind.code.toNat
  | .errSub => some s.errSub.code.toNat
  | .errPos => some s.errPos.toNat
  | .space => some s.space
  | .symPos => some s.symPos.toNat
  | .prevNz => some s.prevNz.toNat
  | .numCodes => some s.numCodes.toNat
  | .repCmd => some s.repCmd.code.toNat
  | .repCount => some s.repCount
  | .code t i => some (hostEntry t i s).code.toNat
  | .tree _ => none
  | .out i => some (s.out.getD i 0#16).toNat
  | .outCount => some s.out.length

/-- What the host reads (R38): a value, or nothing where it may not read; "out-of-range indices read 0"
(92_eei_decisions.md D15; assumption 6). Reading changes nothing, so it is a function of the state (assumption 20). -/
def hostRead (e : HostElem) (s : State) : Option Int :=
  match e with
  | .buf i => some (if Config.bufBytes ≤ i then 0 else (bufByte s i).toNat)
  | .lenIn => some s.lenIn.toNat
  | .len t i => some (hostEntry t i s).len.toNat
  | .readOnly e => hostReadOnly e s

end Sys2Proof.Machine
end

