-- ==== Sys2Proof/Machine/Issue.lean ====
section
/-! DEFINITION. Issuing a command word (60_exceptions.md R220, R222, R223), and one move of the host. -/

namespace Sys2Proof.Machine

/-- The commands that read bits of the buffer (40_bitcursor.md R115, R116; 41_prefixtree.md R135;
43_codelength_alphabet.md R164; 44_symbol_alphabet.md R179; 45_stream_session.md R190, R191). -/
def readsBuffer : Instr → Bool
  | .peek _ => true
  | .read _ => true
  | .adv _ => false
  | .ret _ => false
  | .exh => false
  | .rem => false
  | .canon _ => false
  | .build _ => false
  | .decsym _ => true
  | .cldec => true
  | .lendec => true
  | .strdec => true
  | .run => true
  | .load => false

/-- `Issue(word)` (60_exceptions.md R220) for an illegal word: the gate first, else `IllegalCommand`, which is not
fatal. -/
def issueIllegal (s : State) : State :=
  if s.fatal then refuseHalted s else takeError false .illegalCommand .none s

/-- `Issue(word)` (60_exceptions.md R220). A legal command runs its meaning, which holds its own gate. A command that
would read a live byte the host has overwritten is refused (R245, U7; assumption 5); while halted no command reads
anything, so none is refused. -/
def issueWord (w : Word) (s : State) : Host.Outcome State Fault Refusal :=
  match decode w with
  | .error _ => .next (issueIllegal s)
  | .ok i => if s.liveWritten && !s.fatal && readsBuffer i then .refused .liveBufferChanged else exec i s

/-- One move of the host (10_state.md R38; 60_exceptions.md R227). -/
def hostMove (m : HostMove) (s : State) : Host.Outcome State Fault Refusal :=
  match m with
  | .issue w => issueWord w s
  | .writeBuf i b => hostWriteBuf i b s
  | .writeLenIn v => hostWriteLenIn v s
  | .writeLen t i v => hostWriteLen t i v s
  | .writeReadOnly e v => hostWriteReadOnly e v s
  | .reset => applyReset s

end Sys2Proof.Machine
end

