-- ==== Sys2Proof/Machine/Step.lean ====
section
/-! DEFINITION. One step: the host's next move, one atomic transition (20_memory.md R70, R72; assumption 3). -/

namespace Sys2Proof.Machine

/-- HPTD "fetches no instructions; the host issues one command at a time" (00_scope.md R10): a step takes the host's
next move. Without one HPTD is idle and nothing changes. -/
def step (s : State) : Host.Outcome State Fault Refusal :=
  match s.host with
  | [] => .next s
  | m :: moves => hostMove m { s with host := moves }

/-- The state in which the very next step issues the given word: it is the host's next and only move, and no live byte
of the buffer has been overwritten (assumptions 3 and 5). -/
def State.withFetchWord (s : State) (nbits w : Nat) : State :=
  { s with host := [.issue (BitVec.ofNat 32 (w % 2 ^ nbits))], liveWritten := false }

end Sys2Proof.Machine
end

