-- ==== Sys2Proof/Safety.lean ====
section
/-! DEFINITION. What holds of every state of HPTD between two host moves: the invariants the spec states of its state
elements, and the vocabulary of the stream (bit strings, paths) in which statements speak of it. -/

namespace Sys2Proof.Machine

/-! ### Trees -/

/-- A subtree of depth at most `d` that is not `Empty` somewhere below, with symbols below `n`: "every `Internal` node
has at least one non-Empty descendant leaf" (10_state.md R34). -/
def Node.inner (d n : Nat) : Node → Bool
  | .empty => true
  | .leaf y => decide (y.toNat < n)
  | .internal l r =>
    match d with
    | 0 => false
    | d + 1 => (l != .empty || r != .empty) && Node.inner d n l && Node.inner d n r

/-- A bare Leaf, which "never stands at the root" (10_state.md R34). -/
def Node.isLeaf : Node → Bool
  | .leaf _ => true
  | .empty => false
  | .internal _ _ => false

/-- A tree that `BUILD` can make: no bare Leaf, depth at most 15, symbols below `n` (10_state.md R34). -/
def Node.wf (n : Nat) (node : Node) : Bool := !node.isLeaf && node.inner 15 n

/-- Where a path of left (`false`) and right (`true`) turns leads from a node. A path does not go on past a Leaf or an
Empty node. -/
def Node.follow : Node → List Bool → Option Node
  | node, [] => some node
  | .internal l _, false :: path => Node.follow l path
  | .internal _ r, true :: path => Node.follow r path
  | .leaf _, _ :: _ => none
  | .empty, _ :: _ => none

/-- The bits of a code in the order they stand in the stream: bit `k-1` first, bit 0 last (30_encoding.md R84). -/
def codePath (c : Code) : (k : Nat) → List Bool
  | 0 => []
  | k + 1 => c.getLsbD k :: codePath c k

/-- The path of a table entry: its used bits, most significant first (41_prefixtree.md R130). -/
def CodeEntry.path (e : CodeEntry) : List Bool := codePath e.code e.len.toNat

/-- No path is a beginning of another's: what "no code is a prefix of another" (42_canonical.md R153) says of the
entries with nonzero length of a table. -/
def PrefixFree (tab : List CodeEntry) : Prop :=
  ∀ i j (hi : i < tab.length) (hj : j < tab.length), i ≠ j →
    tab[i].len ≠ 0#4 → tab[j].len ≠ 0#4 → ¬ tab[i].path <+: tab[j].path

/-! ### Streams: what a producer writes (30_encoding.md part A), independent of the decoders -/

/-- The buffer holds the bits `bs` from stream bit `p` on, within its end. -/
abbrev Holds (s : State) (p : Nat) (bs : List Bool) : Prop :=
  p + bs.length ≤ s.totalBits ∧ ∀ j (h : j < bs.length), bitAt s (p + j) = bs[j]

/-- The bits of a fixed-width field: the first bit is the least significant (20_memory.md R62). -/
def fieldBits (v : Nat) : (n : Nat) → List Bool
  | 0 => []
  | n + 1 => v.testBit 0 :: fieldBits (v / 2) n

/-- The code of a code-length value in the order its bits are read: the patterns of 30_encoding.md R82, whose
rightmost bit "is the first bit read". -/
def clBits (v : CodeLen) : List Bool :=
  if v = 0#4 then [false, false]
  else if v = 1#4 then [true, true, true, false]
  else if v = 2#4 then [true, true, false]
  else if v = 3#4 then [false, true]
  else if v = 4#4 then [true, false]
  else [true, true, true, true]

/-- The code space a length takes out of `whole` (32 or 32768): `whole >> length` for a nonzero length. -/
def lenCost (whole : Nat) (v : CodeLen) : Nat := if v = 0#4 then 0 else whole >>> v.toNat

/-- The code space a list of lengths takes. -/
def lensCost (whole : Nat) (ls : List CodeLen) : Nat := (ls.map (lenCost whole)).sum

/-- The number of nonzero lengths. -/
def nonzeroCount (ls : List CodeLen) : Nat := ls.countP (· ≠ 0#4)

/-- A table with the given lengths and no codes yet. -/
def lensTable (ls : List CodeLen) : List CodeEntry := ls.map fun v => ⟨v, 0#16⟩

/-- A table with the given lengths and their canonical codes (42_canonical.md R150). -/
def canonTable (ls : List CodeLen) : List CodeEntry := assignCodes (lensTable ls) (nextCodes (lensTable ls))

/-- The lengths of the 18 meta-symbols when the slots from `skip` on carry `vals`: the others have length 0
(43_codelength_alphabet.md R161). -/
def clLens (skip : Nat) (vals : List CodeLen) : List CodeLen :=
  (List.range Config.ncl).map fun sym => (((perm.drop skip).zip vals).lookup sym).getD 0#4

/-- Parts 1 and 2 of a stream (30_encoding.md R80): the skip count and the codes of the slots' values. -/
def clStream (skip : Nat) (vals : List CodeLen) : List Bool := fieldBits skip 2 ++ vals.flatMap clBits

/-- `vals` is what parts 1 and 2 of an accepted stream carry after a skip count `skip`: values up to 5; either the last
one uses up the code space of 32 exactly, or all the slots carry values of which exactly one is nonzero
(43_codelength_alphabet.md R162, R163). -/
abbrev ClAccepted (skip : Nat) (vals : List CodeLen) : Prop :=
  skip < 4 ∧ (∀ v ∈ vals, v.toNat ≤ 5) ∧ vals.length ≤ 18 - skip ∧
    ((lensCost 32 vals = 32 ∧ lensCost 32 vals.dropLast < 32) ∨
      (nonzeroCount vals = 1 ∧ vals.length = 18 - skip))

/-- An item of part 3 of a stream: a literal length, or a repeat command with its extra bits (30_encoding.md R85,
R86). -/
inductive LenItem where
  | lit (v : CodeLen)
  | rep16 (extra : BitVec 2)
  | rep17 (extra : BitVec 3)
  deriving DecidableEq, Repr

/-- The meta-symbol of an item (30_encoding.md R85). -/
def LenItem.sym : LenItem → Symbol
  | .lit v => v.setWidth 16
  | .rep16 _ => 16#16
  | .rep17 _ => 17#16

/-- The extra bits of an item: 2 after 16, 3 after 17 (30_encoding.md R86). -/
def LenItem.extra : LenItem → List Bool
  | .lit _ => []
  | .rep16 e => fieldBits e.toNat 2
  | .rep17 e => fieldBits e.toNat 3

/-- Part 3 of a stream, the code of a meta-symbol being `path` of it. -/
def lenStream (path : Symbol → List Bool) (items : List LenItem) : List Bool :=
  items.flatMap fun i => path i.sym ++ i.extra

/-- What the items decoded so far have given: the lengths assigned, the last nonzero literal, the pending repeat. -/
structure LenAcc where
  lens  : List CodeLen
  prev  : CodeLen
  cmd   : RepCmd
  count : Nat
  deriving DecidableEq, Repr

/-- Before the first item (44_symbol_alphabet.md R171). -/
def LenAcc.start : LenAcc := ⟨[], Config.prevInit, .none, 0⟩

/-- The pending repeat applied (44_symbol_alphabet.md R174). -/
def LenAcc.flushed (a : LenAcc) : LenAcc :=
  ⟨a.lens ++ List.replicate a.count (if a.cmd = .rep17 then 0#4 else a.prev), a.prev, .none, 0⟩

/-- A repeat command with its count of extra bits and their value: another command's run is applied first, a run of the
same command is merged (44_symbol_alphabet.md R173). -/
def LenAcc.repeated (a : LenAcc) (c : RepCmd) (step extra : Nat) : LenAcc :=
  if a.cmd = c then { a with count := ((a.count - 2) <<< step) + (extra + 3) }
  else { a.flushed with cmd := c, count := extra + 3 }

/-- One more item (44_symbol_alphabet.md R172, R173). -/
def LenAcc.add (a : LenAcc) : LenItem → LenAcc
  | .lit v => ⟨a.flushed.lens ++ [v], if v = 0#4 then a.prev else v, .none, 0⟩
  | .rep16 e => a.repeated .rep16 2 e.toNat
  | .rep17 e => a.repeated .rep17 3 e.toNat

/-- What a list of items gives. -/
def lenRun (items : List LenItem) : LenAcc := items.foldl LenAcc.add LenAcc.start

/-- What part 3 leaves behind: with `dangling`, the run still pending at the end is applied
(44_symbol_alphabet.md R176). -/
def lenFinal (dangling : Bool) (items : List LenItem) : LenAcc :=
  if dangling then (lenRun items).flushed else lenRun items

/-- The loop of part 3 goes on after the items: code space and positions are left (44_symbol_alphabet.md R175). -/
abbrev LenOpen (p : Params) (items : List LenItem) : Prop :=
  lensCost 32768 (lenRun items).lens < 32768 ∧ (lenRun items).lens.length < p.nsym

/-- `items` is what part 3 of an accepted stream carries: every item but the last leaves the loop open, and the lengths
fit the alphabet and use up the code space of 32768 exactly, either with the last item or, with `dangling`, with the run
that the policy `Flush` applies at the end of the buffer (44_symbol_alphabet.md R175 to R177). -/
abbrev LenAccepted (p : Params) (dangling : Bool) (items : List LenItem) : Prop :=
  (∀ k, k < items.length → LenOpen p (items.take k)) ∧
    (dangling = true → p.dangling = .flush ∧ LenOpen p items) ∧
    (lenFinal dangling items).lens.length ≤ p.nsym ∧
    lensCost 32768 (lenFinal dangling items).lens = 32768

/-- The lengths of the whole real alphabet: positions never assigned hold 0 (44_symbol_alphabet.md R171). -/
def padLens (n : Nat) (ls : List CodeLen) : List CodeLen := ls ++ List.replicate (n - ls.length) 0#4

/-- Part 4 of a stream: the codes of the symbols `ys` (30_encoding.md R84). -/
def symStream (path : Symbol → List Bool) (ys : List Symbol) : List Bool := ys.flatMap path

/-- How part 4 can end at stream bit `p`, where its last symbol ended, `tail` being the bits walked after it: 0, the
buffer ends there; 1, it ends inside a code; 2, a code value without a symbol (45_stream_session.md R190). -/
abbrev StreamEnds (s : State) (tree : Node) (p : Nat) (tail : List Bool) : SubCause → Prop
  | .none => tail = [] ∧ p = s.totalBits
  | .exhaustion =>
    tail ≠ [] ∧ p + tail.length = s.totalBits ∧ ∃ l r, tree.follow tail = some (.internal l r)
  | .emptyNode => p < s.totalBits ∧ tree.follow tail = some .empty

/-- Where the cursor then stands: at the start of the code that did not resolve, but after the bit that led to an Empty
node unless `EMPTY_ROLLBACK` (41_prefixtree.md R134). -/
def streamEndPos (s : State) (p : Nat) (tail : List Bool) : SubCause → Nat
  | .none => p
  | .exhaustion => p
  | .emptyNode => if s.params.emptyRollback then p else p + tail.length

/-! ### Invariants -/

/-- "`0 ≤ position ≤ total_bits` at all times" (10_state.md R22). -/
abbrev CursorOk (s : State) : Prop := s.pos.toNat ≤ s.totalBits

/-- The buffer memory has its canonical form. -/
abbrev BufferOk (s : State) : Prop := Memory.wf s.buf = true

/-- The tables have 18 and `NSYM` entries (10_state.md R31, R32). -/
abbrev TablesOk (s : State) : Prop :=
  s.table0.length = Config.ncl ∧ s.table1.length = s.params.nsym

/-- The trees are trees that `BUILD` can make (10_state.md R34). -/
abbrev TreesOk (s : State) : Prop :=
  s.tree0.wf Config.ncl = true ∧ s.tree1.wf s.params.nsym = true

/-- The working registers keep their ranges (10_state.md R20, R26, R28). -/
abbrev WorkOk (s : State) : Prop :=
  -(2 ^ 30) < s.space ∧ s.space ≤ 32768 ∧ s.symPos.toNat ≤ s.params.nsym ∧ s.prevNz ≠ 0#4 ∧
    s.numCodes.toNat ≤ Config.ncl

/-- The pending repeat (10_state.md R29): a count is 0 or at least 3; no command means no count; a command without a
count stands only after the fatal `InsufficientBits` that R29 names as the exception. -/
abbrev RepeatOk (s : State) : Prop :=
  (s.repCount = 0 ∨ 3 ≤ s.repCount) ∧ (s.repCmd = .none → s.repCount = 0) ∧
    (s.repCmd ≠ .none → s.repCount = 0 → s.fatal = true ∧ s.errKind = .insufficientBits)

/-- The kinds a fatal raise can have (60_exceptions.md R210, R221). -/
def ErrCode.canBeFatal : ErrCode → Bool
  | .insufficientBits => true
  | .treeMismatch => true
  | .corruptHistogram => true
  | .treeCollision => true
  | .lengthOverrun => true
  | .ok => false
  | .positionUnderflow => false
  | .positionOverflow => false
  | .illegalCommand => false
  | .halted => false

/-- The error record and the outcome flags (10_state.md R25, R27; 60_exceptions.md R218, R221): `Halted` is never
recorded and is answered only while `FATAL = 1`; only `TreeMismatch` has a sub-cause; the recorded position is one the
cursor had. -/
abbrev ErrorOk (s : State) : Prop :=
  s.errKind ≠ .halted ∧ (s.errSub ≠ .none ↔ s.errKind = .treeMismatch) ∧ s.errPos.toNat ≤ s.totalBits ∧
    (s.fatal = true → s.errKind.canBeFatal = true) ∧ (s.last = .halted → s.fatal = true)

/-- Every emitted symbol is a symbol of the real alphabet (00_scope.md R7). -/
abbrev OutOk (s : State) : Prop := ∀ y ∈ s.out, y.toNat < s.params.nsym

/-- The invariant of HPTD: it holds after reset and every step keeps it. -/
abbrev State.Inv (s : State) : Prop :=
  CursorOk s ∧ BufferOk s ∧ TablesOk s ∧ TreesOk s ∧ WorkOk s ∧ RepeatOk s ∧ ErrorOk s ∧ OutOk s

end Sys2Proof.Machine
end

