-- ==== Sys2Proof/Certificates/Slice0/Obligations.lean ====
section
/-! DEFINITION. The statements about the model, from the numbered rules of spec/. -/

open Sys2Proof Sys2Proof.Machine

/-! ### Command words (30_encoding.md part B) -/

/-- Decoding the word of a well-formed command gives the command back, every operand at every value (R90, R93). -/
def Obligations.DecodeOfEncode : Prop :=
  ∀ i : Instr, i.wf = true → decode (encode i) = .ok i

/-- Each command has one word: a word that decodes is the word of its command, and the command is well formed. -/
def Obligations.EncodeOfDecode : Prop :=
  ∀ (w : Word) (i : Instr), decode w = .ok i → i.wf = true ∧ encode i = w

/-- The illegal words are exactly those that R94 lists. -/
def Obligations.IllegalWordsExactly : Prop :=
  ∀ w : Word, (∃ e, decode w = .error e) ↔
    (opField w ∉ [0x01#8, 0x02#8, 0x03#8, 0x04#8, 0x05#8, 0x06#8, 0x10#8, 0x11#8, 0x12#8, 0x20#8, 0x21#8, 0x22#8,
        0x23#8, 0x30#8]) ∨
      zField w ≠ 0#7 ∨
      (tField w = 1#1 ∧ opField w ∉ [0x10#8, 0x11#8, 0x12#8]) ∨
      (nField w ≠ 0#16 ∧ opField w ∉ [0x01#8, 0x02#8, 0x03#8, 0x04#8]) ∨
      (64 < (nField w).toNat ∧ opField w ∈ [0x01#8, 0x02#8])

/-- Words of every family, written out from R93 and the table of 95_test_vectors.md, decode to their commands. -/
def Obligations.ListedWordsDecode : Prop :=
  decode 0x01000040#32 = .ok (.peek 64#16) ∧ decode 0x02000009#32 = .ok (.read 9#16) ∧
    decode 0x0300FFFF#32 = .ok (.adv 65535#16) ∧ decode 0x0400000C#32 = .ok (.ret 12#16) ∧
    decode 0x05000000#32 = .ok .exh ∧ decode 0x06000000#32 = .ok .rem ∧
    decode 0x10010000#32 = .ok (.canon .realAlpha) ∧ decode 0x11000000#32 = .ok (.build .metaAlpha) ∧
    decode 0x12010000#32 = .ok (.decsym .realAlpha) ∧ decode 0x20000000#32 = .ok .cldec ∧
    decode 0x21000000#32 = .ok .lendec ∧ decode 0x22000000#32 = .ok .strdec ∧
    decode 0x23000000#32 = .ok .run ∧ decode 0x30000000#32 = .ok .load

/-! ### One step (60_exceptions.md R220; assumptions 3 and 5) -/

/-- A step runs the decoded command: when the host's next move issues a word that decodes to `i`, the step is `exec i`
at the state without that move. Where the host has overwritten a live byte and `i` would read the buffer, the step is
refused (assumption 5); with nothing to do, nothing changes (assumption 3). -/
def Obligations.StepRunsDecodedCommand : Prop :=
  (∀ (s : State) (w : Word) (moves : List HostMove) (i : Instr),
      s.host = .issue w :: moves → decode w = .ok i →
      (s.liveWritten = false ∨ s.fatal = true ∨ readsBuffer i = false →
        step s = exec i { s with host := moves }) ∧
      (s.liveWritten = true → s.fatal = false → readsBuffer i = true →
        step s = .refused .liveBufferChanged)) ∧
    ∀ s : State, s.host = [] → step s = .next s

/-- A word placed by `withFetchWord` is what the next step runs. -/
def Obligations.FetchedWordRunsNext : Prop :=
  ∀ (s : State) (w : Word) (i : Instr), decode w = .ok i →
    step (s.withFetchWord 32 w.toNat) = exec i { s with host := [], liveWritten := false }

/-- An illegal word, while not halted, ends `IllegalCommand`, "without changing any state but `STATUS.LAST` and the
error record" (R94, R217). -/
def Obligations.IllegalWordOnlyRecords : Prop :=
  ∀ (s : State) (w : Word) (moves : List HostMove) (e : IllegalWord),
    s.host = .issue w :: moves → decode w = .error e → s.fatal = false →
    step s = .next { s with
      host := moves, last := .illegalCommand, errKind := .illegalCommand, errSub := .none, errPos := s.pos }

/-- While halted, every word but a legal `LOAD`, legal or not, ends `Halted`: `STATUS.LAST` only (R218, R222). -/
def Obligations.HaltedGate : Prop :=
  ∀ (s : State) (w : Word) (moves : List HostMove),
    s.host = .issue w :: moves → s.fatal = true → decode w ≠ .ok .load →
    step s = .next { s with host := moves, last := .halted }

/-! ### The buffer and the bit cursor (20_memory.md, 40_bitcursor.md) -/

/-- `BitAt(p)` is `(BUF[p div 8] >> (p mod 8)) & 1` (R61). -/
def Obligations.BitAtIsTheBitOfItsByte : Prop :=
  ∀ (s : State) (p : Nat), (bitAt s p).toNat = ((bufByte s (p / 8)).toNat >>> (p % 8)) &&& 1

/-- `Bits(p, n)` is the sum of `BitAt(p + i) << i`, it is 0 for no bits, and it is below `2^n` (R62). -/
def Obligations.BitsIsTheSumOfItsBits : Prop :=
  ∀ (s : State) (p n : Nat),
    bits s p n = ((List.range n).map fun i => (bitAt s (p + i)).toNat <<< i).sum ∧
      bits s p 0 = 0 ∧ bits s p n < 2 ^ n

/-- Two fields joined low part first are one field, wherever they start, and `8k` bits at a byte boundary are the
little-endian number of the `k` bytes there, for two bytes the one the rule writes out (R63). -/
def Obligations.BitsJoinLowPartFirst : Prop :=
  ∀ (s : State) (p n m k : Nat),
    bits s p (n + m) = bits s p n + bits s (p + n) m <<< n ∧
      bits s (8 * p) (8 * k) = ((List.range k).map fun i => (bufByte s (p + i)).toNat * 256 ^ i).sum ∧
      bits s (8 * p) 16 = (bufByte s p).toNat + 256 * (bufByte s (p + 1)).toNat

/-- `PEEK n`: the value and nothing else but `STATUS.LAST`; too few bits; an `n` above 64 first of all (R115). -/
def Obligations.PeekReturnsTheBits : Prop :=
  ∀ (s : State) (n : BitVec 16), s.fatal = false →
    (n.toNat ≤ 64 → s.pos.toNat + n.toNat ≤ s.totalBits →
      exec (.peek n) s = .next { s with
        res := BitVec.ofNat 64
          ((List.range n.toNat).map fun i => (bitAt s (s.pos.toNat + i)).toNat <<< i).sum
        last := .ok }) ∧
    (n.toNat ≤ 64 → s.totalBits < s.pos.toNat + n.toNat →
      exec (.peek n) s = .next (takeError false .insufficientBits .none s)) ∧
    (64 < n.toNat → exec (.peek n) s = .next (takeError false .illegalCommand .none s))

/-- `READ n`: the value `PEEK n` would give, and `POS` moved by `n`; too few bits; an `n` above 64 (R116). -/
def Obligations.ReadReturnsTheBitsAndAdvances : Prop :=
  ∀ (s : State) (n : BitVec 16), s.fatal = false →
    (n.toNat ≤ 64 → s.pos.toNat + n.toNat ≤ s.totalBits →
      exec (.read n) s = .next { s with
        res := BitVec.ofNat 64
          ((List.range n.toNat).map fun i => (bitAt s (s.pos.toNat + i)).toNat <<< i).sum
        pos := s.pos + n.setWidth 64
        last := .ok }) ∧
    (n.toNat ≤ 64 → s.totalBits < s.pos.toNat + n.toNat →
      exec (.read n) s = .next (takeError false .insufficientBits .none s)) ∧
    (64 < n.toNat → exec (.read n) s = .next (takeError false .illegalCommand .none s))

/-- `ADV n` and `RET n`: `POS` moved by `n` within `0 .. TOTAL_BITS`, or the position error with `POS` unchanged
(R117, R118). -/
def Obligations.AdvanceAndRetreatMoveTheCursor : Prop :=
  ∀ (s : State) (n : BitVec 16), s.fatal = false →
    (s.pos.toNat + n.toNat ≤ s.totalBits →
      exec (.adv n) s = .next { s with pos := s.pos + n.setWidth 64, last := .ok }) ∧
    (s.totalBits < s.pos.toNat + n.toNat →
      exec (.adv n) s = .next (takeError false .positionOverflow .none s)) ∧
    (n.toNat ≤ s.pos.toNat →
      exec (.ret n) s = .next { s with pos := s.pos - n.setWidth 64, last := .ok }) ∧
    (s.pos.toNat < n.toNat →
      exec (.ret n) s = .next (takeError false .positionUnderflow .none s))

/-- `EXH` and `REM`: `RES` only (R119, R120); the cursor is within the buffer (R22), so `REM` never goes below 0. -/
def Obligations.ExhaustedAndRemainingAreReported : Prop :=
  ∀ s : State, s.fatal = false → CursorOk s →
    exec .exh s = .next { s with
      res := if s.pos.toNat = s.totalBits then 1#64 else 0#64, last := .ok } ∧
    ∃ t, exec .rem s = .next t ∧ t = { s with res := t.res, last := .ok } ∧
      t.res.toNat + s.pos.toNat = s.totalBits

/-- The laws (b), (c) and (d) of R121 for commands: a successful `READ n` is undone by `RET n`, gives what `PEEK n` would
have given, and followed by `READ m` gives the two parts of what `READ (n + m)` would have given. -/
def Obligations.ReadLaws : Prop :=
  ∀ (s t : State) (n : BitVec 16), s.fatal = false → exec (.read n) s = .next t → t.last = .ok →
    (∃ u, exec (.ret n) t = .next u ∧ u.pos = s.pos ∧ u.last = .ok) ∧
    (∃ u, exec (.peek n) s = .next u ∧ u.res = t.res ∧ u.last = .ok) ∧
    ∀ (m : BitVec 16) (u : State), n.toNat + m.toNat ≤ 64 → exec (.read m) t = .next u → u.last = .ok →
      ∃ v, exec (.read (n + m)) s = .next v ∧ v.last = .ok ∧ v.pos = u.pos ∧
        v.res.toNat = t.res.toNat + u.res.toNat <<< n.toNat

/-! ### The canonical constructor (42_canonical.md) -/

/-- `CANON t`: over-subscribed lengths raise `CorruptHistogram` before any write; else every length stays and the code
of a symbol of length `L` is the number of codes of length `L` that the shorter codes use up, plus its rank among the
symbols of its own length; an absent symbol gets 0 (R150, R151, R152). -/
def Obligations.CanonAssignsTheCanonicalCodes : Prop :=
  ∀ (s : State) (t : Alphabet), s.fatal = false →
    (32768 < kraftSum (s.table t) → exec (.canon t) s = .next (takeError true .corruptHistogram .none s)) ∧
    (kraftSum (s.table t) ≤ 32768 → ∃ tab,
      exec (.canon t) s = .next { s.setTable t tab with last := .ok } ∧
      tab.length = (s.table t).length ∧
      ∀ i (h : i < (s.table t).length) (h' : i < tab.length),
        tab[i].len = (s.table t)[i].len ∧
        tab[i].code.toNat =
          if (s.table t)[i].len = 0#4 then 0
          else
            ((s.table t).map fun e =>
              if e.len ≠ 0#4 ∧ e.len < (s.table t)[i].len
              then 2 ^ ((s.table t)[i].len.toNat - e.len.toNat) else 0).sum +
            ((s.table t).take i).countP fun e => e.len = (s.table t)[i].len)

/-- After a `CANON t` that ended `OK`, every code fits its length and no code is a prefix of another (R153 (a)). -/
def Obligations.CanonicalCodesArePrefixFree : Prop :=
  ∀ (s u : State) (t : Alphabet), s.fatal = false → exec (.canon t) s = .next u → u.last = .ok →
    (∀ e ∈ u.table t, e.code.toNat < 2 ^ e.len.toNat) ∧ PrefixFree (u.table t)

/-- `BUILD t` straight after a successful `CANON t` never raises `TreeCollision` (R153 (a), R133). -/
def Obligations.BuildAfterCanonNeverCollides : Prop :=
  ∀ (s u : State) (t : Alphabet), s.fatal = false → exec (.canon t) s = .next u → u.last = .ok →
    ∃ v, exec (.build t) u = .next v ∧ v.last = .ok

/-- `Canon(t)` is a function of `LEN[t]`: run twice it gives the same table, whatever codes stood there before
(R153 (b)). -/
def Obligations.CanonIsAFunctionOfTheLengths : Prop :=
  ∀ (s s' u u' : State) (t : Alphabet),
    (s.table t).map CodeEntry.len = (s'.table t).map CodeEntry.len →
    s.fatal = false → s'.fatal = false → exec (.canon t) s = .next u → exec (.canon t) s' = .next u' →
    u.last = u'.last ∧ (u.last = .ok → u.table t = u'.table t ∧ exec (.canon t) u = .next u)

/-! ### The prefix tree (41_prefixtree.md) -/

/-- `BUILD t`: when no used code is a prefix of another it ends `OK` and writes a tree whose leaves are exactly the used
codes, each symbol at its own code; else it raises `TreeCollision`, fatal, with `TREE[t]` `Empty` (R131, R132). -/
def Obligations.BuildMakesTheTreeOfTheCodes : Prop :=
  ∀ (s : State) (t : Alphabet), s.fatal = false →
    (PrefixFree (s.table t) → ∃ tree,
      exec (.build t) s = .next { s.setTree t tree with last := .ok } ∧
      (∀ i (h : i < (s.table t).length), (s.table t)[i].len ≠ 0#4 →
        tree.follow (s.table t)[i].path = some (.leaf (BitVec.ofNat 16 i))) ∧
      ∀ path y, tree.follow path = some (.leaf y) →
        ∃ i, ∃ h : i < (s.table t).length, (s.table t)[i].len ≠ 0#4 ∧ (s.table t)[i].path = path ∧
          y = BitVec.ofNat 16 i) ∧
    (¬ PrefixFree (s.table t) →
      exec (.build t) s = .next (takeError true .treeCollision .none (s.setTree t .empty)))

/-- `DECSYM t` walks `TREE[t]` along the stream: a Leaf gives its symbol and the cursor after its code; the end of the
buffer at an Internal node raises sub-cause 1 with the cursor where it was; an Empty node raises sub-cause 2 with the
cursor after the last bit walked unless `EMPTY_ROLLBACK` (R134, R135). -/
def Obligations.DecsymWalksTheTree : Prop :=
  ∀ (s : State) (t : Alphabet) (path : List Bool), s.fatal = false → Holds s s.pos.toNat path →
    (∀ y, (s.tree t).follow path = some (.leaf y) →
      exec (.decsym t) s = .next { s with
        res := y.setWidth 64, pos := BitVec.ofNat 64 (s.pos.toNat + path.length), last := .ok }) ∧
    (∀ l r, (s.tree t).follow path = some (.internal l r) → s.pos.toNat + path.length = s.totalBits →
      exec (.decsym t) s = .next (takeError false .treeMismatch .exhaustion s)) ∧
    ((s.tree t).follow path = some .empty →
      exec (.decsym t) s = .next (takeError false .treeMismatch .emptyNode { s with
        pos := if s.params.emptyRollback then s.pos else BitVec.ofNat 64 (s.pos.toNat + path.length) }))

/-- After `BUILD t` ended `OK`, a code in the stream, most significant used bit first, decodes to its symbol (R64, R84,
R130, R135). -/
def Obligations.BuiltTreeDecodesEveryCode : Prop :=
  ∀ (s u : State) (t : Alphabet) (i : Nat) (h : i < (s.table t).length),
    s.fatal = false → exec (.build t) s = .next u → u.last = .ok → (s.table t)[i].len ≠ 0#4 →
    s.pos.toNat + (s.table t)[i].len.toNat ≤ s.totalBits →
    (∀ j, j < (s.table t)[i].len.toNat →
      bitAt s (s.pos.toNat + j) = (s.table t)[i].code.getLsbD ((s.table t)[i].len.toNat - 1 - j)) →
    exec (.decsym t) u = .next { u with
      res := BitVec.ofNat 64 (i % 65536)
      pos := BitVec.ofNat 64 (s.pos.toNat + (s.table t)[i].len.toNat) }

/-- `DecodeSymbol` reads at most 15 bits of a tree that `BUILD` can make, and on success at least one (R135,
R137 (b)). -/
def Obligations.DecsymReadsOneToFifteenBits : Prop :=
  ∀ (s u : State) (t : Alphabet), s.fatal = false → CursorOk s →
    (s.tree t).wf (tableSize s.params t) = true → exec (.decsym t) s = .next u →
    s.pos.toNat ≤ u.pos.toNat ∧ u.pos.toNat ≤ s.pos.toNat + 15 ∧
      (u.last = .ok → s.pos.toNat < u.pos.toNat ∧ u.res.toNat < tableSize s.params t)

/-! ### The two length decoders (43_codelength_alphabet.md, 44_symbol_alphabet.md) -/

/-- The table `CLPFX` is the six patterns: a peek of 4 bits is classified by the pattern its low bits match, and by no
other, and consumes that pattern's bits (R82). That `00` is value 0 and `10` value 3 is PRESUMED, the spec's G1
(assumption 7). -/
def Obligations.PrefixTableMatchesThePatterns : Prop :=
  ∀ p v : Nat, p < 16 → v < 6 →
    ((clpfx p).1 = BitVec.ofNat 4 v ↔ clBits (BitVec.ofNat 4 v) <+: fieldBits p 4) ∧
    ((clpfx p).1 = BitVec.ofNat 4 v → (clpfx p).2 = (clBits (BitVec.ofNat 4 v)).length)

/-- `CLDEC` on the codes of an accepted list of lengths ends `OK`: the lengths stand at their symbols with their
canonical codes, the cursor is after the last code, and `SPACE` and `NUM_CODES` are what the lengths cost and how many
are nonzero. The last slot's peek needs 4 bits (R160 to R164, R82). That the codes of 0 and 3 are `00` and `10` is PRESUMED,
the spec's G1 (assumption 7). -/
def Obligations.CldecDecodesAcceptedLengths : Prop :=
  ∀ (s : State) (skip : Nat) (vals : List CodeLen), s.fatal = false → ClAccepted skip vals →
    Holds s s.pos.toNat (clStream skip vals) →
    s.pos.toNat + (clStream skip vals.dropLast).length + 4 ≤ s.totalBits →
    exec .cldec s = .next { s with
      pos := BitVec.ofNat 64 (s.pos.toNat + (clStream skip vals).length)
      table0 := canonTable (clLens skip vals)
      space := 32 - (lensCost 32 vals : Int)
      numCodes := BitVec.ofNat 5 (nonzeroCount vals)
      last := .ok }

/-- Everything `CLDEC` can do: it writes `LEN[0]`, `CODE[0]`, `SPACE`, `NUM_CODES`, `POS` and `STATUS.LAST`; on an error,
which is `InsufficientBits` or `CorruptHistogram`, also the error record and `FATAL`, and `CODE[0]` is all zero (R164). -/
def Obligations.CldecWritesOnlyItsState : Prop :=
  ∀ s : State, s.fatal = false → ∃ p tab space num,
    exec .cldec s = .next { s with pos := p, table0 := tab, space := space, numCodes := num, last := .ok } ∨
    ∃ k, (k = .insufficientBits ∨ k = .corruptHistogram) ∧ (∀ e ∈ tab, e.code = 0#16) ∧
      exec .cldec s = .next
        (takeError true k .none { s with pos := p, table0 := tab, space := space, numCodes := num })

/-- What `CLDEC` guarantees when it ends `OK`: lengths 0 to 5, at least one of them nonzero, codes that are the canonical
codes of the lengths, a following `BUILD 0` that does not raise, and a code space used up exactly unless there is just
one code (R163, R165). -/
def Obligations.CldecGuarantees : Prop :=
  ∀ s u : State, s.fatal = false → exec .cldec s = .next u → u.last = .ok →
    (∀ e ∈ u.table0, e.len.toNat ≤ 5) ∧ (∃ e ∈ u.table0, e.len ≠ 0#4) ∧
    u.table0 = canonTable (u.table0.map CodeEntry.len) ∧
    (∃ v, exec (.build .metaAlpha) u = .next v ∧ v.last = .ok) ∧
    (u.space = 0 ∧ kraftSum u.table0 = 32768 ∨ u.numCodes = 1#5 ∧ kraftSum u.table0 ≤ 16384)

/-- `LENDEC` on the codes, in the tree of the meta-alphabet, of an accepted list of items ends `OK`: the lengths the
items stand for, repeats merged and flushed as R172 to R174 say, stand in table 1 with their canonical codes, and the
working registers are what the items leave (R170 to R178). That a run before every nonzero literal repeats 8, the start
value of `PREV_NZ`, is PRESUMED, the spec's G2 (assumption 8). -/
def Obligations.LendecDecodesAcceptedItems : Prop :=
  ∀ (s : State) (path : Symbol → List Bool) (dangling : Bool) (items : List LenItem),
    s.fatal = false → LenAccepted s.params dangling items →
    (∀ i ∈ items, path i.sym ≠ [] ∧ s.tree0.follow (path i.sym) = some (.leaf i.sym)) →
    Holds s s.pos.toNat (lenStream path items) →
    (dangling = true → s.pos.toNat + (lenStream path items).length = s.totalBits) →
    exec .lendec s = .next { s with
      pos := BitVec.ofNat 64 (s.pos.toNat + (lenStream path items).length)
      table1 := canonTable (padLens s.params.nsym (lenFinal dangling items).lens)
      space := 0
      symPos := BitVec.ofNat 17 (lenFinal dangling items).lens.length
      prevNz := (lenFinal dangling items).prev
      repCmd := (lenFinal dangling items).cmd
      repCount := (lenFinal dangling items).count
      last := .ok }

/-- Everything `LENDEC` can do: it writes `LEN[1]`, `CODE[1]`, `SPACE`, `SYMPOS`, `PREV_NZ`, `REP_CMD`, `REP_COUNT`,
`POS` and `STATUS.LAST`; on an error, which is one of four kinds, also the error record and `FATAL`, and `CODE[1]` is
all zero (R179). -/
def Obligations.LendecWritesOnlyItsState : Prop :=
  ∀ s : State, s.fatal = false → ∃ p tab space sym prev cmd count,
    exec .lendec s = .next { s with
      pos := p, table1 := tab, space := space, symPos := sym, prevNz := prev, repCmd := cmd, repCount := count
      last := .ok } ∨
    ∃ k sub, (k = .treeMismatch ∨ k = .insufficientBits ∨ k = .lengthOverrun ∨ k = .corruptHistogram) ∧
      (∀ e ∈ tab, e.code = 0#16) ∧
      exec .lendec s = .next (takeError true k sub { s with
        pos := p, table1 := tab, space := space, symPos := sym, prevNz := prev, repCmd := cmd, repCount := count })

/-- A real alphabet is accepted only if it uses up the code space exactly, with no exemption for a single code; its
codes are then canonical and `BUILD 1` does not raise (R177, R178, R151). -/
def Obligations.LendecAcceptsOnlyCompleteCodes : Prop :=
  ∀ s u : State, s.fatal = false → exec .lendec s = .next u → u.last = .ok →
    u.space = 0 ∧ kraftSum u.table1 = 32768 ∧ u.table1.length = s.params.nsym ∧
    u.table1 = canonTable (u.table1.map CodeEntry.len) ∧
    ∃ v, exec (.build .realAlpha) u = .next v ∧ v.last = .ok

/-! ### The stream and the session (45_stream_session.md) -/

/-- `STRDEC` decodes the codes of symbols until part 4 ends in one of its three ways; it always ends `OK` (R190). -/
def Obligations.StrdecDecodesToTheEnd : Prop :=
  ∀ (s : State) (path : Symbol → List Bool) (ys : List Symbol) (tail : List Bool) (e : SubCause),
    s.fatal = false →
    (∀ y ∈ ys, path y ≠ [] ∧ s.tree1.follow (path y) = some (.leaf y)) →
    Holds s s.pos.toNat (symStream path ys ++ tail) →
    StreamEnds s s.tree1 (s.pos.toNat + (symStream path ys).length) tail e →
    exec .strdec s = .next { s with
      out := s.out ++ ys
      res := BitVec.ofNat 64 ys.length
      pos := BitVec.ofNat 64 (streamEndPos s (s.pos.toNat + (symStream path ys).length) tail e)
      ending := e
      last := .ok }

/-- `STRDEC` writes `OUT`, `POS`, `RES`, `STATUS.END` and `STATUS.LAST` and nothing else, appends and never removes, and
always ends `OK`, on every tree that is not a bare Leaf (R190). -/
def Obligations.StrdecAlwaysEndsOk : Prop :=
  ∀ s : State, s.fatal = false → s.tree1.isLeaf = false → ∃ p ys e,
    exec .strdec s = .next { s with
      out := s.out ++ ys, res := BitVec.ofNat 64 ys.length, pos := p, ending := e, last := .ok }

/-- The pseudo-instructions stand for the commands that R97 lists, and `STEPRUN` is `RUN` step by step: the five
commands leave the state that `RUN` leaves when it ends `OK`; when `RUN` raises, the command that raises leaves `RUN`'s
state, and as the commands behind it are refused only `STATUS.LAST` differs at the end (R97). -/
def Obligations.RunIsTheFiveCommands : Prop :=
  (∀ n : BitVec 16, (Pseudo.consume n).expand = [.read n] ∧ (Pseudo.rewind n).expand = [.ret n] ∧
    (Pseudo.skip n).expand = [.adv n]) ∧
  Pseudo.session.expand = [.load, .run] ∧
  Pseudo.steprun.expand = [.cldec, .build .metaAlpha, .lendec, .build .realAlpha, .strdec] ∧
  ∀ s t : State, exec .run s = .next t →
    ∃ a b c d, exec .cldec s = .next a ∧ exec (.build .metaAlpha) a = .next b ∧ exec .lendec b = .next c ∧
      exec (.build .realAlpha) c = .next d ∧
      exec .strdec d = .next (if t.last = .ok then t else { t with last := .halted }) ∧
      (t.last ≠ .ok → s.fatal = false → t = a ∨ t = b ∨ t = c ∨ t = d)

/-- A whole session: on a stream made of an accepted list of code lengths, an accepted list of items in their canonical
code, and symbols in the canonical code of the lengths the items stand for, `RUN` ends `OK`, appends the symbols and
leaves every register as the rules say (R80, R191). PRESUMED by the spec, and so by this statement: the codes `00` and
`10` of the values 0 and 3 (G1, assumption 7) and the start value 8 of `PREV_NZ` (G2, assumption 8). -/
def Obligations.RunDecodesAWholeSession : Prop :=
  ∀ (s : State) (skip : Nat) (vals : List CodeLen) (dangling : Bool) (items : List LenItem)
    (ys : List Symbol) (tail : List Bool) (e : SubCause) (tree0 tree1 : Node) (p0 p1 : Symbol → List Bool),
    s.fatal = false → ClAccepted skip vals → LenAccepted s.params dangling items →
    insertAll (canonTable (clLens skip vals)) 0 .empty = some tree0 →
    insertAll (canonTable (padLens s.params.nsym (lenFinal dangling items).lens)) 0 .empty = some tree1 →
    (∀ i ∈ items, tree0.follow (p0 i.sym) = some (.leaf i.sym)) →
    (∀ y ∈ ys, tree1.follow (p1 y) = some (.leaf y)) →
    Holds s s.pos.toNat (clStream skip vals ++ lenStream p0 items ++ symStream p1 ys ++ tail) →
    s.pos.toNat + (clStream skip vals.dropLast).length + 4 ≤ s.totalBits →
    (dangling = true → s.pos.toNat + (clStream skip vals ++ lenStream p0 items).length = s.totalBits) →
    StreamEnds s tree1
      (s.pos.toNat + (clStream skip vals ++ lenStream p0 items ++ symStream p1 ys).length) tail e →
    exec .run s = .next { s with
      pos := BitVec.ofNat 64 (streamEndPos s
        (s.pos.toNat + (clStream skip vals ++ lenStream p0 items ++ symStream p1 ys).length) tail e)
      res := BitVec.ofNat 64 ys.length
      last := .ok
      ending := e
      space := 0
      symPos := BitVec.ofNat 17 (lenFinal dangling items).lens.length
      prevNz := (lenFinal dangling items).prev
      numCodes := BitVec.ofNat 5 (nonzeroCount vals)
      repCmd := (lenFinal dangling items).cmd
      repCount := (lenFinal dangling items).count
      table0 := canonTable (clLens skip vals)
      table1 := canonTable (padLens s.params.nsym (lenFinal dangling items).lens)
      tree0 := tree0
      tree1 := tree1
      out := s.out ++ ys }

/-- An error of `RUN` is fatal, appends nothing and leaves `RES` and `STATUS.END` alone; it is one of the kinds of the
two length phases (R191, R210). -/
def Obligations.RunErrorAppendsNothing : Prop :=
  ∀ s t : State, s.fatal = false → exec .run s = .next t → t.last ≠ .ok →
    t.fatal = true ∧ t.out = s.out ∧ t.res = s.res ∧ t.ending = s.ending ∧ t.errKind = t.last ∧ t.errPos = t.pos ∧
      (t.last = .insufficientBits ∨ t.last = .treeMismatch ∨ t.last = .corruptHistogram ∨ t.last = .lengthOverrun)

/-- `LOAD`, halted or not: `BUF_LEN` takes `LEN_IN`, `BUF` and `LEN_IN` stay, every other element takes its reset value
(R192, R39). The first four fields are the model's own (assumptions 1, 3, 5, 14); the value 8 of
`PREV_NZ` is PRESUMED, the spec's G2 (assumption 8). -/
def Obligations.LoadStartsASession : Prop :=
  ∀ s : State, exec .load s = .next
    { params := s.params, host := s.host, liveWritten := false, resets := s.resets
      buf := s.buf, lenIn := s.lenIn, bufLen := s.lenIn, pos := 0#64, res := 0#64
      last := .ok, fatal := false, ending := .none, errKind := .ok, errSub := .none, errPos := 0#64
      space := 0, symPos := 0#17, prevNz := 8#4, numCodes := 0#5, repCmd := .none, repCount := 0
      table0 := List.replicate 18 ⟨0#4, 0#16⟩, table1 := List.replicate s.params.nsym ⟨0#4, 0#16⟩
      tree0 := .empty, tree1 := .empty, out := [] }

/-! ### Errors and whole-machine rules (60_exceptions.md, 10_state.md) -/

/-- The wrapper's raise: the error record is written together, `ERR_POS` from `POS`, `STATUS.LAST` takes the code,
`FATAL` is set by a fatal raise and never cleared by one, and nothing else changes (R220, R27). -/
def Obligations.RaiseFillsTheErrorRecord : Prop :=
  ∀ (fatal : Bool) (body : State → Ret Unit) (s t : State) (k : ErrCode) (sub : SubCause),
    s.fatal = false → body s = .raised k sub t →
    command fatal body s = .next { t with
      errKind := k, errSub := sub, errPos := t.pos, last := k, fatal := t.fatal || fatal }

/-- Which raises are fatal: exactly those of `CANON`, `BUILD`, `CLDEC`, `LENDEC` and `RUN`, so none of `PEEK`, `READ`,
`ADV`, `RET`, `DECSYM`; `STRDEC`, `EXH`, `REM` and `LOAD` raise nothing; no `IllegalCommand` is fatal (R221). -/
def Obligations.FatalRaisesAreTheStructuralOnes : Prop :=
  (∀ (i : Instr) (s t : State), s.fatal = false → exec i s = .next t →
    (t.fatal = true ↔ t.last ≠ .ok ∧
      ((∃ a, i = .canon a) ∨ (∃ a, i = .build a) ∨ i = .cldec ∨ i = .lendec ∨ i = .run)) ∧
    (i = .strdec ∨ i = .exh ∨ i = .rem ∨ i = .load → t.last = .ok)) ∧
  ∀ (s t : State) (w : Word) (moves : List HostMove) (e : IllegalWord),
    s.host = .issue w :: moves → decode w = .error e → s.fatal = false → step s = .next t →
    t.last = .illegalCommand ∧ t.fatal = false

/-- Every command but `LOAD`: an `OK` end and a `Halted` end leave the error record alone, any other end is recorded with
the position at which the cursor was left; only `TreeMismatch` has a sub-cause (R27, R218). -/
def Obligations.EveryErrorIsRecorded : Prop :=
  ∀ (i : Instr) (s t : State), i ≠ .load → exec i s = .next t →
    (t.last = .ok ∨ t.last = .halted → t.errKind = s.errKind ∧ t.errSub = s.errSub ∧ t.errPos = s.errPos) ∧
    (t.last ≠ .ok → t.last ≠ .halted →
      t.errKind = t.last ∧ t.errPos = t.pos ∧ (t.errSub ≠ .none ↔ t.last = .treeMismatch))

/-- `RES` is written only by a command that yields a value and ends `OK` (R24). -/
def Obligations.ResultIsWrittenOnlyOnSuccess : Prop :=
  ∀ (i : Instr) (s t : State), i ≠ .load → exec i s = .next t →
    (t.last ≠ .ok → t.res = s.res) ∧
    ((∃ n, i = .adv n) ∨ (∃ n, i = .ret n) ∨ (∃ a, i = .canon a) ∨ (∃ a, i = .build a) ∨ i = .cldec ∨ i = .lendec →
      t.res = s.res)

/-- `FATAL` is cleared by nothing but a legal `LOAD` and reset (R25, R222). -/
def Obligations.OnlyLoadAndResetClearFatal : Prop :=
  ∀ s t : State, step s = .next t → s.fatal = true → t.fatal = false →
    ∃ moves, s.host = .reset :: moves ∨ ∃ w, s.host = .issue w :: moves ∧ decode w = .ok .load

/-- HPTD never writes `BUF` or `LEN_IN`, no command changes the parameters or the host's moves, and only `LOAD` writes
`BUF_LEN` (R21, R38, R68). -/
def Obligations.CommandsNeverWriteTheBuffer : Prop :=
  ∀ (i : Instr) (s t : State), exec i s = .next t →
    t.buf = s.buf ∧ t.lenIn = s.lenIn ∧ t.params = s.params ∧ t.host = s.host ∧ t.resets = s.resets ∧
      (i ≠ .load → t.bufLen = s.bufLen ∧ t.liveWritten = s.liveWritten)

/-- Who writes what, the column "written by" of R20: a command that is not named for an element leaves it alone. -/
def Obligations.EachElementHasItsWriters : Prop :=
  ∀ (i : Instr) (s t : State), i ≠ .load → exec i s = .next t →
    (i ≠ .cldec → i ≠ .canon .metaAlpha → i ≠ .run → t.table0 = s.table0) ∧
    (i ≠ .lendec → i ≠ .canon .realAlpha → i ≠ .run → t.table1 = s.table1) ∧
    (i ≠ .build .metaAlpha → i ≠ .run → t.tree0 = s.tree0) ∧
    (i ≠ .build .realAlpha → i ≠ .run → t.tree1 = s.tree1) ∧
    (i ≠ .strdec → i ≠ .run → t.out = s.out ∧ t.ending = s.ending) ∧
    (i ≠ .cldec → i ≠ .lendec → i ≠ .run → t.space = s.space) ∧
    (i ≠ .cldec → i ≠ .run → t.numCodes = s.numCodes) ∧
    (i ≠ .lendec → i ≠ .run →
      t.symPos = s.symPos ∧ t.prevNz = s.prevNz ∧ t.repCmd = s.repCmd ∧ t.repCount = s.repCount) ∧
    ((∃ n, i = .peek n) ∨ i = .exh ∨ i = .rem ∨ (∃ a, i = .canon a) ∨ (∃ a, i = .build a) → t.pos = s.pos)

/-- `OUT` only grows: a command other than `LOAD` appends to it and removes nothing (R36, R74). -/
def Obligations.OutputOnlyGrows : Prop :=
  ∀ (i : Instr) (s t : State), i ≠ .load → exec i s = .next t → s.out <+: t.out

/-- Only bytes `0 .. BUF_LEN-1` are ever read: two states that differ only in bytes beyond them, and in what reset left
in the buffer, go through a command alike (R21, R67; U11 of 93_implementation_defined.md). -/
def Obligations.BytesBeyondTheBufferAreNeverRead : Prop :=
  ∀ (i : Instr) (s : State) (m : Memory) (k : Nat),
    (∀ a, a < s.bufLen.toNat → bufByte { s with buf := m, resets := k } a = bufByte s a) →
    exec i { s with buf := m, resets := k } =
      match exec i s with
      | .next t => .next { t with buf := m, resets := k }
      | .fault f => .fault f
      | .refused r => .refused r

/-- Every command ends: from every state whose `TREE[1]` is not a bare Leaf, every command, well formed or not, answers
a next state (R193, R225). -/
def Obligations.EveryCommandEnds : Prop :=
  ∀ (i : Instr) (s : State), s.tree1.isLeaf = false → ∃ t, exec i s = .next t

/-- Every step keeps the invariant: the cursor within the buffer, the buffer memory canonical, tables of their sizes,
trees that `BUILD` can make, registers in their ranges, a sound pending repeat and error record, symbols of the real
alphabet in `OUT` (R22, R26 to R29, R34). -/
def Obligations.StepKeepsTheInvariant : Prop :=
  ∀ s t : State, s.Inv → step s = .next t → t.Inv

/-- The invariant holds right after reset, whatever the parameters. -/
def Obligations.ResetMeetsTheInvariant : Prop :=
  ∀ p : Params, (State.resetOf p).Inv

/-! ### Reset and the host (10_state.md R38, R39) -/

/-- Reset: the values of R39, with the default parameters of R6. The parameters, the first fields and the empty list for
`BUF` (whose contents are unspecified) are the model's own (assumptions 1 to 5 and 14); the value 8 of `PREV_NZ` is
PRESUMED, the spec's G2 (assumption 8). -/
def Obligations.ResetLeavesTheListedValues : Prop :=
  State.reset =
    { params := ⟨255#16, .drop, false⟩, host := [], liveWritten := false, resets := 0
      buf := [], lenIn := 0#32, bufLen := 0#32, pos := 0#64, res := 0#64
      last := .ok, fatal := false, ending := .none, errKind := .ok, errSub := .none, errPos := 0#64
      space := 0, symPos := 0#17, prevNz := 8#4, numCodes := 0#5, repCmd := .none, repCount := 0
      table0 := List.replicate 18 ⟨0#4, 0#16⟩, table1 := List.replicate 256 ⟨0#4, 0#16⟩
      tree0 := .empty, tree1 := .empty, out := [] }

/-- A host write to `LEN[t][i]`: while not halted and within the table it is what the host reads back, and every other
entry, and every code, stays; while halted, or beside the table, nothing changes; an entry beside the table reads as
zero (R38). -/
def Obligations.HostWritesLengths : Prop :=
  ∀ (s : State) (t : Alphabet) (i : Nat) (v : CodeLen) (moves : List HostMove),
    s.host = .writeLen t i v :: moves →
    (s.fatal = true ∨ (s.table t).length ≤ i → step s = .next { s with host := moves }) ∧
    (s.fatal = false → i < (s.table t).length → ∃ tab,
      step s = .next ({ s with host := moves }.setTable t tab) ∧
      (∀ j, (tab.getD j ⟨0#4, 0#16⟩).len = if j = i then v else ((s.table t).getD j ⟨0#4, 0#16⟩).len) ∧
      ∀ j, (tab.getD j ⟨0#4, 0#16⟩).code = ((s.table t).getD j ⟨0#4, 0#16⟩).code) ∧
    ((s.table t).length ≤ i → hostRead (.len t i) s = some 0 ∧ hostRead (.readOnly (.code t i)) s = some 0)

/-- A host write to `BUF[i]`: the byte is what the host reads back and what the cursor reads, every other byte and every
other element stays; the model remembers a write to a live byte (assumption 5). At an index the buffer does not have the
write is ignored and the host reads zero, which is D15's sentence read as one about `BUF` too (assumption 6)
(R21, R38). -/
def Obligations.HostWritesBytes : Prop :=
  ∀ (s : State) (i : Nat) (b : Byte) (moves : List HostMove), s.host = .writeBuf i b :: moves →
    (i < 2 ^ 32 - 1 → ∃ m live,
      step s = .next { s with host := moves, buf := m, liveWritten := live } ∧
      (∀ a, bufByte { s with buf := m } a = if a = i then b else bufByte s a) ∧
      (∀ a, a < 2 ^ 32 - 1 →
        hostRead (.buf a) { s with buf := m } = some ((if a = i then b else bufByte s a).toNat : Int)) ∧
      (live = true ↔ s.liveWritten = true ∨ i < s.bufLen.toNat)) ∧
    (2 ^ 32 - 1 ≤ i → step s = .next { s with host := moves } ∧ hostRead (.buf i) s = some 0)

/-- A host write to `LEN_IN` writes it and nothing else; a write to a read-only element is ignored; `OUT` beyond its
count reads as zero and the trees are not readable (R38). -/
def Obligations.HostWritesNothingElse : Prop :=
  ∀ (s : State) (moves : List HostMove),
    (∀ v, s.host = .writeLenIn v :: moves → step s = .next { s with host := moves, lenIn := v }) ∧
    (∀ e v, s.host = .writeReadOnly e v :: moves → step s = .next { s with host := moves }) ∧
    (∀ i, s.out.length ≤ i → hostRead (.readOnly (.out i)) s = some 0) ∧
    ∀ t, hostRead (.readOnly (.tree t)) s = none

/-- `STATUS` as one word: `LAST` in bits 3:0 with the codes of R210, `FATAL` in bit 4, `END` in bits 6:5, zero above
(R25, R210). -/
def Obligations.StatusWordLayout : Prop :=
  ∀ s : State,
    (statusWord s).toNat =
      (match s.last with
        | .ok => 0 | .insufficientBits => 1 | .positionUnderflow => 2 | .positionOverflow => 3
        | .treeMismatch => 4 | .corruptHistogram => 5 | .treeCollision => 8 | .lengthOverrun => 9
        | .illegalCommand => 10 | .halted => 11) +
      (if s.fatal then 16 else 0) +
      (match s.ending with | .none => 0 | .exhaustion => 32 | .emptyNode => 64)

/-- Reset applied by the host gives the values of R39 again, keeps the parameters, and leaves the contents of the buffer
unspecified anew (R39, R240; assumption 14). -/
def Obligations.HostAppliesReset : Prop :=
  ∀ (s : State) (moves : List HostMove), s.host = .reset :: moves →
    step s = .next { State.resetOf s.params with host := moves, resets := s.resets + 1 }
end

