-- ==== Sys2Proof/Laws/State.lean ====
section
/-! SUPPORT. One lemma per field and named update of the state, so that no later proof unfolds a record update. -/

namespace Sys2Proof.Machine

@[simp] theorem setPos_params (p : Nat) (s : State) : (setPos p s).params = s.params := rfl
@[simp] theorem setPos_host (p : Nat) (s : State) : (setPos p s).host = s.host := rfl
@[simp] theorem setPos_liveWritten (p : Nat) (s : State) : (setPos p s).liveWritten = s.liveWritten := rfl
@[simp] theorem setPos_resets (p : Nat) (s : State) : (setPos p s).resets = s.resets := rfl
@[simp] theorem setPos_buf (p : Nat) (s : State) : (setPos p s).buf = s.buf := rfl
@[simp] theorem setPos_lenIn (p : Nat) (s : State) : (setPos p s).lenIn = s.lenIn := rfl
@[simp] theorem setPos_bufLen (p : Nat) (s : State) : (setPos p s).bufLen = s.bufLen := rfl
@[simp] theorem setPos_pos (p : Nat) (s : State) : (setPos p s).pos = BitVec.ofNat 64 p := rfl
@[simp] theorem setPos_res (p : Nat) (s : State) : (setPos p s).res = s.res := rfl
@[simp] theorem setPos_last (p : Nat) (s : State) : (setPos p s).last = s.last := rfl
@[simp] theorem setPos_fatal (p : Nat) (s : State) : (setPos p s).fatal = s.fatal := rfl
@[simp] theorem setPos_ending (p : Nat) (s : State) : (setPos p s).ending = s.ending := rfl
@[simp] theorem setPos_errKind (p : Nat) (s : State) : (setPos p s).errKind = s.errKind := rfl
@[simp] theorem setPos_errSub (p : Nat) (s : State) : (setPos p s).errSub = s.errSub := rfl
@[simp] theorem setPos_errPos (p : Nat) (s : State) : (setPos p s).errPos = s.errPos := rfl
@[simp] theorem setPos_space (p : Nat) (s : State) : (setPos p s).space = s.space := rfl
@[simp] theorem setPos_symPos (p : Nat) (s : State) : (setPos p s).symPos = s.symPos := rfl
@[simp] theorem setPos_prevNz (p : Nat) (s : State) : (setPos p s).prevNz = s.prevNz := rfl
@[simp] theorem setPos_numCodes (p : Nat) (s : State) : (setPos p s).numCodes = s.numCodes := rfl
@[simp] theorem setPos_repCmd (p : Nat) (s : State) : (setPos p s).repCmd = s.repCmd := rfl
@[simp] theorem setPos_repCount (p : Nat) (s : State) : (setPos p s).repCount = s.repCount := rfl
@[simp] theorem setPos_table0 (p : Nat) (s : State) : (setPos p s).table0 = s.table0 := rfl
@[simp] theorem setPos_table1 (p : Nat) (s : State) : (setPos p s).table1 = s.table1 := rfl
@[simp] theorem setPos_tree0 (p : Nat) (s : State) : (setPos p s).tree0 = s.tree0 := rfl
@[simp] theorem setPos_tree1 (p : Nat) (s : State) : (setPos p s).tree1 = s.tree1 := rfl
@[simp] theorem setPos_out (p : Nat) (s : State) : (setPos p s).out = s.out := rfl
@[simp] theorem setPos_totalBits (p : Nat) (s : State) : (setPos p s).totalBits = s.totalBits := rfl

@[simp] theorem endOk_params (s : State) : (endOk s).params = s.params := rfl
@[simp] theorem endOk_host (s : State) : (endOk s).host = s.host := rfl
@[simp] theorem endOk_liveWritten (s : State) : (endOk s).liveWritten = s.liveWritten := rfl
@[simp] theorem endOk_resets (s : State) : (endOk s).resets = s.resets := rfl
@[simp] theorem endOk_buf (s : State) : (endOk s).buf = s.buf := rfl
@[simp] theorem endOk_lenIn (s : State) : (endOk s).lenIn = s.lenIn := rfl
@[simp] theorem endOk_bufLen (s : State) : (endOk s).bufLen = s.bufLen := rfl
@[simp] theorem endOk_pos (s : State) : (endOk s).pos = s.pos := rfl
@[simp] theorem endOk_res (s : State) : (endOk s).res = s.res := rfl
@[simp] theorem endOk_last (s : State) : (endOk s).last = .ok := rfl
@[simp] theorem endOk_fatal (s : State) : (endOk s).fatal = s.fatal := rfl
@[simp] theorem endOk_ending (s : State) : (endOk s).ending = s.ending := rfl
@[simp] theorem endOk_errKind (s : State) : (endOk s).errKind = s.errKind := rfl
@[simp] theorem endOk_errSub (s : State) : (endOk s).errSub = s.errSub := rfl
@[simp] theorem endOk_errPos (s : State) : (endOk s).errPos = s.errPos := rfl
@[simp] theorem endOk_space (s : State) : (endOk s).space = s.space := rfl
@[simp] theorem endOk_symPos (s : State) : (endOk s).symPos = s.symPos := rfl
@[simp] theorem endOk_prevNz (s : State) : (endOk s).prevNz = s.prevNz := rfl
@[simp] theorem endOk_numCodes (s : State) : (endOk s).numCodes = s.numCodes := rfl
@[simp] theorem endOk_repCmd (s : State) : (endOk s).repCmd = s.repCmd := rfl
@[simp] theorem endOk_repCount (s : State) : (endOk s).repCount = s.repCount := rfl
@[simp] theorem endOk_table0 (s : State) : (endOk s).table0 = s.table0 := rfl
@[simp] theorem endOk_table1 (s : State) : (endOk s).table1 = s.table1 := rfl
@[simp] theorem endOk_tree0 (s : State) : (endOk s).tree0 = s.tree0 := rfl
@[simp] theorem endOk_tree1 (s : State) : (endOk s).tree1 = s.tree1 := rfl
@[simp] theorem endOk_out (s : State) : (endOk s).out = s.out := rfl
@[simp] theorem endOk_totalBits (s : State) : (endOk s).totalBits = s.totalBits := rfl

@[simp] theorem refuseHalted_params (s : State) : (refuseHalted s).params = s.params := rfl
@[simp] theorem refuseHalted_host (s : State) : (refuseHalted s).host = s.host := rfl
@[simp] theorem refuseHalted_liveWritten (s : State) : (refuseHalted s).liveWritten = s.liveWritten := rfl
@[simp] theorem refuseHalted_resets (s : State) : (refuseHalted s).resets = s.resets := rfl
@[simp] theorem refuseHalted_buf (s : State) : (refuseHalted s).buf = s.buf := rfl
@[simp] theorem refuseHalted_lenIn (s : State) : (refuseHalted s).lenIn = s.lenIn := rfl
@[simp] theorem refuseHalted_bufLen (s : State) : (refuseHalted s).bufLen = s.bufLen := rfl
@[simp] theorem refuseHalted_pos (s : State) : (refuseHalted s).pos = s.pos := rfl
@[simp] theorem refuseHalted_res (s : State) : (refuseHalted s).res = s.res := rfl
@[simp] theorem refuseHalted_last (s : State) : (refuseHalted s).last = .halted := rfl
@[simp] theorem refuseHalted_fatal (s : State) : (refuseHalted s).fatal = s.fatal := rfl
@[simp] theorem refuseHalted_ending (s : State) : (refuseHalted s).ending = s.ending := rfl
@[simp] theorem refuseHalted_errKind (s : State) : (refuseHalted s).errKind = s.errKind := rfl
@[simp] theorem refuseHalted_errSub (s : State) : (refuseHalted s).errSub = s.errSub := rfl
@[simp] theorem refuseHalted_errPos (s : State) : (refuseHalted s).errPos = s.errPos := rfl
@[simp] theorem refuseHalted_space (s : State) : (refuseHalted s).space = s.space := rfl
@[simp] theorem refuseHalted_symPos (s : State) : (refuseHalted s).symPos = s.symPos := rfl
@[simp] theorem refuseHalted_prevNz (s : State) : (refuseHalted s).prevNz = s.prevNz := rfl
@[simp] theorem refuseHalted_numCodes (s : State) : (refuseHalted s).numCodes = s.numCodes := rfl
@[simp] theorem refuseHalted_repCmd (s : State) : (refuseHalted s).repCmd = s.repCmd := rfl
@[simp] theorem refuseHalted_repCount (s : State) : (refuseHalted s).repCount = s.repCount := rfl
@[simp] theorem refuseHalted_table0 (s : State) : (refuseHalted s).table0 = s.table0 := rfl
@[simp] theorem refuseHalted_table1 (s : State) : (refuseHalted s).table1 = s.table1 := rfl
@[simp] theorem refuseHalted_tree0 (s : State) : (refuseHalted s).tree0 = s.tree0 := rfl
@[simp] theorem refuseHalted_tree1 (s : State) : (refuseHalted s).tree1 = s.tree1 := rfl
@[simp] theorem refuseHalted_out (s : State) : (refuseHalted s).out = s.out := rfl
@[simp] theorem refuseHalted_totalBits (s : State) : (refuseHalted s).totalBits = s.totalBits := rfl

@[simp] theorem takeError_params (f : Bool) (k : ErrCode) (sub : SubCause) (s : State) : (takeError f k sub s).params = s.params := rfl
@[simp] theorem takeError_host (f : Bool) (k : ErrCode) (sub : SubCause) (s : State) : (takeError f k sub s).host = s.host := rfl
@[simp] theorem takeError_liveWritten (f : Bool) (k : ErrCode) (sub : SubCause) (s : State) : (takeError f k sub s).liveWritten = s.liveWritten := rfl
@[simp] theorem takeError_resets (f : Bool) (k : ErrCode) (sub : SubCause) (s : State) : (takeError f k sub s).resets = s.resets := rfl
@[simp] theorem takeError_buf (f : Bool) (k : ErrCode) (sub : SubCause) (s : State) : (takeError f k sub s).buf = s.buf := rfl
@[simp] theorem takeError_lenIn (f : Bool) (k : ErrCode) (sub : SubCause) (s : State) : (takeError f k sub s).lenIn = s.lenIn := rfl
@[simp] theorem takeError_bufLen (f : Bool) (k : ErrCode) (sub : SubCause) (s : State) : (takeError f k sub s).bufLen = s.bufLen := rfl
@[simp] theorem takeError_pos (f : Bool) (k : ErrCode) (sub : SubCause) (s : State) : (takeError f k sub s).pos = s.pos := rfl
@[simp] theorem takeError_res (f : Bool) (k : ErrCode) (sub : SubCause) (s : State) : (takeError f k sub s).res = s.res := rfl
@[simp] theorem takeError_last (f : Bool) (k : ErrCode) (sub : SubCause) (s : State) : (takeError f k sub s).last = k := rfl
@[simp] theorem takeError_fatal (f : Bool) (k : ErrCode) (sub : SubCause) (s : State) : (takeError f k sub s).fatal = (s.fatal || f) := rfl
@[simp] theorem takeError_ending (f : Bool) (k : ErrCode) (sub : SubCause) (s : State) : (takeError f k sub s).ending = s.ending := rfl
@[simp] theorem takeError_errKind (f : Bool) (k : ErrCode) (sub : SubCause) (s : State) : (takeError f k sub s).errKind = k := rfl
@[simp] theorem takeError_errSub (f : Bool) (k : ErrCode) (sub : SubCause) (s : State) : (takeError f k sub s).errSub = sub := rfl
@[simp] theorem takeError_errPos (f : Bool) (k : ErrCode) (sub : SubCause) (s : State) : (takeError f k sub s).errPos = s.pos := rfl
@[simp] theorem takeError_space (f : Bool) (k : ErrCode) (sub : SubCause) (s : State) : (takeError f k sub s).space = s.space := rfl
@[simp] theorem takeError_symPos (f : Bool) (k : ErrCode) (sub : SubCause) (s : State) : (takeError f k sub s).symPos = s.symPos := rfl
@[simp] theorem takeError_prevNz (f : Bool) (k : ErrCode) (sub : SubCause) (s : State) : (takeError f k sub s).prevNz = s.prevNz := rfl
@[simp] theorem takeError_numCodes (f : Bool) (k : ErrCode) (sub : SubCause) (s : State) : (takeError f k sub s).numCodes = s.numCodes := rfl
@[simp] theorem takeError_repCmd (f : Bool) (k : ErrCode) (sub : SubCause) (s : State) : (takeError f k sub s).repCmd = s.repCmd := rfl
@[simp] theorem takeError_repCount (f : Bool) (k : ErrCode) (sub : SubCause) (s : State) : (takeError f k sub s).repCount = s.repCount := rfl
@[simp] theorem takeError_table0 (f : Bool) (k : ErrCode) (sub : SubCause) (s : State) : (takeError f k sub s).table0 = s.table0 := rfl
@[simp] theorem takeError_table1 (f : Bool) (k : ErrCode) (sub : SubCause) (s : State) : (takeError f k sub s).table1 = s.table1 := rfl
@[simp] theorem takeError_tree0 (f : Bool) (k : ErrCode) (sub : SubCause) (s : State) : (takeError f k sub s).tree0 = s.tree0 := rfl
@[simp] theorem takeError_tree1 (f : Bool) (k : ErrCode) (sub : SubCause) (s : State) : (takeError f k sub s).tree1 = s.tree1 := rfl
@[simp] theorem takeError_out (f : Bool) (k : ErrCode) (sub : SubCause) (s : State) : (takeError f k sub s).out = s.out := rfl
@[simp] theorem takeError_totalBits (f : Bool) (k : ErrCode) (sub : SubCause) (s : State) : (takeError f k sub s).totalBits = s.totalBits := rfl

@[simp] theorem clearRepeat_params (s : State) : (clearRepeat s).params = s.params := rfl
@[simp] theorem clearRepeat_host (s : State) : (clearRepeat s).host = s.host := rfl
@[simp] theorem clearRepeat_liveWritten (s : State) : (clearRepeat s).liveWritten = s.liveWritten := rfl
@[simp] theorem clearRepeat_resets (s : State) : (clearRepeat s).resets = s.resets := rfl
@[simp] theorem clearRepeat_buf (s : State) : (clearRepeat s).buf = s.buf := rfl
@[simp] theorem clearRepeat_lenIn (s : State) : (clearRepeat s).lenIn = s.lenIn := rfl
@[simp] theorem clearRepeat_bufLen (s : State) : (clearRepeat s).bufLen = s.bufLen := rfl
@[simp] theorem clearRepeat_pos (s : State) : (clearRepeat s).pos = s.pos := rfl
@[simp] theorem clearRepeat_res (s : State) : (clearRepeat s).res = s.res := rfl
@[simp] theorem clearRepeat_last (s : State) : (clearRepeat s).last = s.last := rfl
@[simp] theorem clearRepeat_fatal (s : State) : (clearRepeat s).fatal = s.fatal := rfl
@[simp] theorem clearRepeat_ending (s : State) : (clearRepeat s).ending = s.ending := rfl
@[simp] theorem clearRepeat_errKind (s : State) : (clearRepeat s).errKind = s.errKind := rfl
@[simp] theorem clearRepeat_errSub (s : State) : (clearRepeat s).errSub = s.errSub := rfl
@[simp] theorem clearRepeat_errPos (s : State) : (clearRepeat s).errPos = s.errPos := rfl
@[simp] theorem clearRepeat_space (s : State) : (clearRepeat s).space = s.space := rfl
@[simp] theorem clearRepeat_symPos (s : State) : (clearRepeat s).symPos = s.symPos := rfl
@[simp] theorem clearRepeat_prevNz (s : State) : (clearRepeat s).prevNz = s.prevNz := rfl
@[simp] theorem clearRepeat_numCodes (s : State) : (clearRepeat s).numCodes = s.numCodes := rfl
@[simp] theorem clearRepeat_repCmd (s : State) : (clearRepeat s).repCmd = .none := rfl
@[simp] theorem clearRepeat_repCount (s : State) : (clearRepeat s).repCount = 0 := rfl
@[simp] theorem clearRepeat_table0 (s : State) : (clearRepeat s).table0 = s.table0 := rfl
@[simp] theorem clearRepeat_table1 (s : State) : (clearRepeat s).table1 = s.table1 := rfl
@[simp] theorem clearRepeat_tree0 (s : State) : (clearRepeat s).tree0 = s.tree0 := rfl
@[simp] theorem clearRepeat_tree1 (s : State) : (clearRepeat s).tree1 = s.tree1 := rfl
@[simp] theorem clearRepeat_out (s : State) : (clearRepeat s).out = s.out := rfl
@[simp] theorem clearRepeat_totalBits (s : State) : (clearRepeat s).totalBits = s.totalBits := rfl

@[simp] theorem clStart_params (s : State) : (clStart s).params = s.params := rfl
@[simp] theorem clStart_host (s : State) : (clStart s).host = s.host := rfl
@[simp] theorem clStart_liveWritten (s : State) : (clStart s).liveWritten = s.liveWritten := rfl
@[simp] theorem clStart_resets (s : State) : (clStart s).resets = s.resets := rfl
@[simp] theorem clStart_buf (s : State) : (clStart s).buf = s.buf := rfl
@[simp] theorem clStart_lenIn (s : State) : (clStart s).lenIn = s.lenIn := rfl
@[simp] theorem clStart_bufLen (s : State) : (clStart s).bufLen = s.bufLen := rfl
@[simp] theorem clStart_pos (s : State) : (clStart s).pos = s.pos := rfl
@[simp] theorem clStart_res (s : State) : (clStart s).res = s.res := rfl
@[simp] theorem clStart_last (s : State) : (clStart s).last = s.last := rfl
@[simp] theorem clStart_fatal (s : State) : (clStart s).fatal = s.fatal := rfl
@[simp] theorem clStart_ending (s : State) : (clStart s).ending = s.ending := rfl
@[simp] theorem clStart_errKind (s : State) : (clStart s).errKind = s.errKind := rfl
@[simp] theorem clStart_errSub (s : State) : (clStart s).errSub = s.errSub := rfl
@[simp] theorem clStart_errPos (s : State) : (clStart s).errPos = s.errPos := rfl
@[simp] theorem clStart_space (s : State) : (clStart s).space = spaceCl := rfl
@[simp] theorem clStart_symPos (s : State) : (clStart s).symPos = s.symPos := rfl
@[simp] theorem clStart_prevNz (s : State) : (clStart s).prevNz = s.prevNz := rfl
@[simp] theorem clStart_numCodes (s : State) : (clStart s).numCodes = 0#5 := rfl
@[simp] theorem clStart_repCmd (s : State) : (clStart s).repCmd = s.repCmd := rfl
@[simp] theorem clStart_repCount (s : State) : (clStart s).repCount = s.repCount := rfl
@[simp] theorem clStart_table0 (s : State) : (clStart s).table0 = clearTable Config.ncl := rfl
@[simp] theorem clStart_table1 (s : State) : (clStart s).table1 = s.table1 := rfl
@[simp] theorem clStart_tree0 (s : State) : (clStart s).tree0 = s.tree0 := rfl
@[simp] theorem clStart_tree1 (s : State) : (clStart s).tree1 = s.tree1 := rfl
@[simp] theorem clStart_out (s : State) : (clStart s).out = s.out := rfl
@[simp] theorem clStart_totalBits (s : State) : (clStart s).totalBits = s.totalBits := rfl

@[simp] theorem lenStart_params (s : State) : (lenStart s).params = s.params := rfl
@[simp] theorem lenStart_host (s : State) : (lenStart s).host = s.host := rfl
@[simp] theorem lenStart_liveWritten (s : State) : (lenStart s).liveWritten = s.liveWritten := rfl
@[simp] theorem lenStart_resets (s : State) : (lenStart s).resets = s.resets := rfl
@[simp] theorem lenStart_buf (s : State) : (lenStart s).buf = s.buf := rfl
@[simp] theorem lenStart_lenIn (s : State) : (lenStart s).lenIn = s.lenIn := rfl
@[simp] theorem lenStart_bufLen (s : State) : (lenStart s).bufLen = s.bufLen := rfl
@[simp] theorem lenStart_pos (s : State) : (lenStart s).pos = s.pos := rfl
@[simp] theorem lenStart_res (s : State) : (lenStart s).res = s.res := rfl
@[simp] theorem lenStart_last (s : State) : (lenStart s).last = s.last := rfl
@[simp] theorem lenStart_fatal (s : State) : (lenStart s).fatal = s.fatal := rfl
@[simp] theorem lenStart_ending (s : State) : (lenStart s).ending = s.ending := rfl
@[simp] theorem lenStart_errKind (s : State) : (lenStart s).errKind = s.errKind := rfl
@[simp] theorem lenStart_errSub (s : State) : (lenStart s).errSub = s.errSub := rfl
@[simp] theorem lenStart_errPos (s : State) : (lenStart s).errPos = s.errPos := rfl
@[simp] theorem lenStart_space (s : State) : (lenStart s).space = spaceSym := rfl
@[simp] theorem lenStart_symPos (s : State) : (lenStart s).symPos = 0#17 := rfl
@[simp] theorem lenStart_prevNz (s : State) : (lenStart s).prevNz = Config.prevInit := rfl
@[simp] theorem lenStart_numCodes (s : State) : (lenStart s).numCodes = s.numCodes := rfl
@[simp] theorem lenStart_repCmd (s : State) : (lenStart s).repCmd = .none := rfl
@[simp] theorem lenStart_repCount (s : State) : (lenStart s).repCount = 0 := rfl
@[simp] theorem lenStart_table0 (s : State) : (lenStart s).table0 = s.table0 := rfl
@[simp] theorem lenStart_table1 (s : State) : (lenStart s).table1 = clearTable s.params.nsym := rfl
@[simp] theorem lenStart_tree0 (s : State) : (lenStart s).tree0 = s.tree0 := rfl
@[simp] theorem lenStart_tree1 (s : State) : (lenStart s).tree1 = s.tree1 := rfl
@[simp] theorem lenStart_out (s : State) : (lenStart s).out = s.out := rfl
@[simp] theorem lenStart_totalBits (s : State) : (lenStart s).totalBits = s.totalBits := rfl

@[simp] theorem State.setTable_params (s : State) (t : Alphabet) (tab : List CodeEntry) : (s.setTable t tab).params = s.params := by cases t <;> rfl
@[simp] theorem State.setTable_host (s : State) (t : Alphabet) (tab : List CodeEntry) : (s.setTable t tab).host = s.host := by cases t <;> rfl
@[simp] theorem State.setTable_liveWritten (s : State) (t : Alphabet) (tab : List CodeEntry) : (s.setTable t tab).liveWritten = s.liveWritten := by cases t <;> rfl
@[simp] theorem State.setTable_resets (s : State) (t : Alphabet) (tab : List CodeEntry) : (s.setTable t tab).resets = s.resets := by cases t <;> rfl
@[simp] theorem State.setTable_buf (s : State) (t : Alphabet) (tab : List CodeEntry) : (s.setTable t tab).buf = s.buf := by cases t <;> rfl
@[simp] theorem State.setTable_lenIn (s : State) (t : Alphabet) (tab : List CodeEntry) : (s.setTable t tab).lenIn = s.lenIn := by cases t <;> rfl
@[simp] theorem State.setTable_bufLen (s : State) (t : Alphabet) (tab : List CodeEntry) : (s.setTable t tab).bufLen = s.bufLen := by cases t <;> rfl
@[simp] theorem State.setTable_pos (s : State) (t : Alphabet) (tab : List CodeEntry) : (s.setTable t tab).pos = s.pos := by cases t <;> rfl
@[simp] theorem State.setTable_res (s : State) (t : Alphabet) (tab : List CodeEntry) : (s.setTable t tab).res = s.res := by cases t <;> rfl
@[simp] theorem State.setTable_last (s : State) (t : Alphabet) (tab : List CodeEntry) : (s.setTable t tab).last = s.last := by cases t <;> rfl
@[simp] theorem State.setTable_fatal (s : State) (t : Alphabet) (tab : List CodeEntry) : (s.setTable t tab).fatal = s.fatal := by cases t <;> rfl
@[simp] theorem State.setTable_ending (s : State) (t : Alphabet) (tab : List CodeEntry) : (s.setTable t tab).ending = s.ending := by cases t <;> rfl
@[simp] theorem State.setTable_errKind (s : State) (t : Alphabet) (tab : List CodeEntry) : (s.setTable t tab).errKind = s.errKind := by cases t <;> rfl
@[simp] theorem State.setTable_errSub (s : State) (t : Alphabet) (tab : List CodeEntry) : (s.setTable t tab).errSub = s.errSub := by cases t <;> rfl
@[simp] theorem State.setTable_errPos (s : State) (t : Alphabet) (tab : List CodeEntry) : (s.setTable t tab).errPos = s.errPos := by cases t <;> rfl
@[simp] theorem State.setTable_space (s : State) (t : Alphabet) (tab : List CodeEntry) : (s.setTable t tab).space = s.space := by cases t <;> rfl
@[simp] theorem State.setTable_symPos (s : State) (t : Alphabet) (tab : List CodeEntry) : (s.setTable t tab).symPos = s.symPos := by cases t <;> rfl
@[simp] theorem State.setTable_prevNz (s : State) (t : Alphabet) (tab : List CodeEntry) : (s.setTable t tab).prevNz = s.prevNz := by cases t <;> rfl
@[simp] theorem State.setTable_numCodes (s : State) (t : Alphabet) (tab : List CodeEntry) : (s.setTable t tab).numCodes = s.numCodes := by cases t <;> rfl
@[simp] theorem State.setTable_repCmd (s : State) (t : Alphabet) (tab : List CodeEntry) : (s.setTable t tab).repCmd = s.repCmd := by cases t <;> rfl
@[simp] theorem State.setTable_repCount (s : State) (t : Alphabet) (tab : List CodeEntry) : (s.setTable t tab).repCount = s.repCount := by cases t <;> rfl
@[simp] theorem State.setTable_tree0 (s : State) (t : Alphabet) (tab : List CodeEntry) : (s.setTable t tab).tree0 = s.tree0 := by cases t <;> rfl
@[simp] theorem State.setTable_tree1 (s : State) (t : Alphabet) (tab : List CodeEntry) : (s.setTable t tab).tree1 = s.tree1 := by cases t <;> rfl
@[simp] theorem State.setTable_out (s : State) (t : Alphabet) (tab : List CodeEntry) : (s.setTable t tab).out = s.out := by cases t <;> rfl
@[simp] theorem State.setTable_totalBits (s : State) (t : Alphabet) (tab : List CodeEntry) : (s.setTable t tab).totalBits = s.totalBits := by cases t <;> rfl

@[simp] theorem State.setTree_params (s : State) (t : Alphabet) (n : Node) : (s.setTree t n).params = s.params := by cases t <;> rfl
@[simp] theorem State.setTree_host (s : State) (t : Alphabet) (n : Node) : (s.setTree t n).host = s.host := by cases t <;> rfl
@[simp] theorem State.setTree_liveWritten (s : State) (t : Alphabet) (n : Node) : (s.setTree t n).liveWritten = s.liveWritten := by cases t <;> rfl
@[simp] theorem State.setTree_resets (s : State) (t : Alphabet) (n : Node) : (s.setTree t n).resets = s.resets := by cases t <;> rfl
@[simp] theorem State.setTree_buf (s : State) (t : Alphabet) (n : Node) : (s.setTree t n).buf = s.buf := by cases t <;> rfl
@[simp] theorem State.setTree_lenIn (s : State) (t : Alphabet) (n : Node) : (s.setTree t n).lenIn = s.lenIn := by cases t <;> rfl
@[simp] theorem State.setTree_bufLen (s : State) (t : Alphabet) (n : Node) : (s.setTree t n).bufLen = s.bufLen := by cases t <;> rfl
@[simp] theorem State.setTree_pos (s : State) (t : Alphabet) (n : Node) : (s.setTree t n).pos = s.pos := by cases t <;> rfl
@[simp] theorem State.setTree_res (s : State) (t : Alphabet) (n : Node) : (s.setTree t n).res = s.res := by cases t <;> rfl
@[simp] theorem State.setTree_last (s : State) (t : Alphabet) (n : Node) : (s.setTree t n).last = s.last := by cases t <;> rfl
@[simp] theorem State.setTree_fatal (s : State) (t : Alphabet) (n : Node) : (s.setTree t n).fatal = s.fatal := by cases t <;> rfl
@[simp] theorem State.setTree_ending (s : State) (t : Alphabet) (n : Node) : (s.setTree t n).ending = s.ending := by cases t <;> rfl
@[simp] theorem State.setTree_errKind (s : State) (t : Alphabet) (n : Node) : (s.setTree t n).errKind = s.errKind := by cases t <;> rfl
@[simp] theorem State.setTree_errSub (s : State) (t : Alphabet) (n : Node) : (s.setTree t n).errSub = s.errSub := by cases t <;> rfl
@[simp] theorem State.setTree_errPos (s : State) (t : Alphabet) (n : Node) : (s.setTree t n).errPos = s.errPos := by cases t <;> rfl
@[simp] theorem State.setTree_space (s : State) (t : Alphabet) (n : Node) : (s.setTree t n).space = s.space := by cases t <;> rfl
@[simp] theorem State.setTree_symPos (s : State) (t : Alphabet) (n : Node) : (s.setTree t n).symPos = s.symPos := by cases t <;> rfl
@[simp] theorem State.setTree_prevNz (s : State) (t : Alphabet) (n : Node) : (s.setTree t n).prevNz = s.prevNz := by cases t <;> rfl
@[simp] theorem State.setTree_numCodes (s : State) (t : Alphabet) (n : Node) : (s.setTree t n).numCodes = s.numCodes := by cases t <;> rfl
@[simp] theorem State.setTree_repCmd (s : State) (t : Alphabet) (n : Node) : (s.setTree t n).repCmd = s.repCmd := by cases t <;> rfl
@[simp] theorem State.setTree_repCount (s : State) (t : Alphabet) (n : Node) : (s.setTree t n).repCount = s.repCount := by cases t <;> rfl
@[simp] theorem State.setTree_table0 (s : State) (t : Alphabet) (n : Node) : (s.setTree t n).table0 = s.table0 := by cases t <;> rfl
@[simp] theorem State.setTree_table1 (s : State) (t : Alphabet) (n : Node) : (s.setTree t n).table1 = s.table1 := by cases t <;> rfl
@[simp] theorem State.setTree_out (s : State) (t : Alphabet) (n : Node) : (s.setTree t n).out = s.out := by cases t <;> rfl
@[simp] theorem State.setTree_totalBits (s : State) (t : Alphabet) (n : Node) : (s.setTree t n).totalBits = s.totalBits := by cases t <;> rfl

@[simp] theorem State.table_metaAlpha (s : State) : s.table .metaAlpha = s.table0 := rfl
@[simp] theorem State.table_realAlpha (s : State) : s.table .realAlpha = s.table1 := rfl
@[simp] theorem State.tree_metaAlpha (s : State) : s.tree .metaAlpha = s.tree0 := rfl
@[simp] theorem State.tree_realAlpha (s : State) : s.tree .realAlpha = s.tree1 := rfl
@[simp] theorem State.setTable_metaAlpha (s : State) (tab : List CodeEntry) :
    s.setTable .metaAlpha tab = { s with table0 := tab } := rfl
@[simp] theorem State.setTable_realAlpha (s : State) (tab : List CodeEntry) :
    s.setTable .realAlpha tab = { s with table1 := tab } := rfl
@[simp] theorem State.setTree_metaAlpha (s : State) (n : Node) : s.setTree .metaAlpha n = { s with tree0 := n } := rfl
@[simp] theorem State.setTree_realAlpha (s : State) (n : Node) : s.setTree .realAlpha n = { s with tree1 := n } := rfl
@[simp] theorem State.table_setTable (s : State) (t : Alphabet) (tab : List CodeEntry) :
    (s.setTable t tab).table t = tab := by cases t <;> rfl
@[simp] theorem State.tree_setTree (s : State) (t : Alphabet) (n : Node) : (s.setTree t n).tree t = n := by
  cases t <;> rfl
@[simp] theorem State.tree_setTable (s : State) (t u : Alphabet) (tab : List CodeEntry) :
    (s.setTable t tab).tree u = s.tree u := by cases t <;> cases u <;> rfl
@[simp] theorem State.table_setTree (s : State) (t u : Alphabet) (n : Node) :
    (s.setTree t n).table u = s.table u := by cases t <;> cases u <;> rfl
@[simp] theorem State.setTree_setTree (s : State) (t : Alphabet) (n m : Node) :
    (s.setTree t n).setTree t m = s.setTree t m := by cases t <;> rfl
@[simp] theorem State.setTable_setTable (s : State) (t : Alphabet) (a b : List CodeEntry) :
    (s.setTable t a).setTable t b = s.setTable t b := by cases t <;> rfl
@[simp] theorem State.setTable_self (s : State) (t : Alphabet) : s.setTable t (s.table t) = s := by cases t <;> rfl

/-- The derived value `TOTAL_BITS` is below `2^35` (10_state.md R22). -/
theorem State.totalBits_lt (s : State) : s.totalBits < 2 ^ 35 := by
  have := s.bufLen.isLt
  simp only [State.totalBits]
  omega

end Sys2Proof.Machine
end

