-- ==== Sys2Proof/Laws/Memory.lean ====
section
/-! SUPPORT. The buffer memory: read after write, and the canonical form, which every write keeps. -/

namespace Sys2Proof.Machine

theorem Memory.read_write (m : Memory) (a b : Nat) (v : Byte) :
    Memory.read (Memory.write m a v) b = if b = a then some v else Memory.read m b := by
  induction m with
  | nil => simp [Memory.write, Memory.read]
  | cons c m ih =>
    obtain ⟨x, w⟩ := c
    by_cases h1 : a < x
    · simp [Memory.write, Memory.read, h1]
    · by_cases h2 : a = x
      · subst h2
        by_cases h3 : b = a <;> simp [Memory.write, Memory.read, h3]
      · by_cases h3 : b = x
        · subst h3
          simp [Memory.write, Memory.read, h1, h2, Ne.symm h2]
        · simp [Memory.write, Memory.read, h1, h2, h3, ih]

@[simp] theorem Memory.read_write_same (m : Memory) (a : Nat) (v : Byte) :
    Memory.read (Memory.write m a v) a = some v := by simp [Memory.read_write]

theorem Memory.read_write_other (m : Memory) {a b : Nat} (v : Byte) (h : b ≠ a) :
    Memory.read (Memory.write m a v) b = Memory.read m b := by simp [Memory.read_write, h]

theorem Memory.wfFrom_write (m : Memory) (lo a : Nat) (v : Byte) (h : Memory.wfFrom lo m = true)
    (hlo : lo ≤ a) (ha : a < Config.bufBytes) : Memory.wfFrom lo (Memory.write m a v) = true := by
  induction m generalizing lo with
  | nil => simp [Memory.write, Memory.wfFrom, hlo, ha]
  | cons c m ih =>
    obtain ⟨x, w⟩ := c
    simp only [Memory.wfFrom, Bool.and_eq_true, decide_eq_true_eq] at h
    by_cases h1 : a < x
    · simp [Memory.write, Memory.wfFrom, h1, hlo, ha, h.1.2, h.2, Nat.succ_le_of_lt h1]
    · by_cases h2 : a = x
      · subst h2
        simp [Memory.write, Memory.wfFrom, hlo, ha, h.2]
      · have := ih (x + 1) h.2 (by omega)
        simp [Memory.write, Memory.wfFrom, h1, h2, h.1.1, h.1.2, this]

/-- A write within `BUF` keeps the canonical form. -/
theorem Memory.wf_write (m : Memory) (a : Nat) (v : Byte) (h : Memory.wf m = true) (ha : a < Config.bufBytes) :
    Memory.wf (Memory.write m a v) = true :=
  Memory.wfFrom_write m 0 a v h (Nat.zero_le _) ha

/-- The memory of the reset state has the canonical form. -/
theorem State.reset_memory_wf (p : Params) : Memory.wf (State.resetOf p).buf = true := rfl

/-- Nothing is listed below the bound from which a memory is canonical. -/
theorem Memory.read_none_of_wfFrom (m : Memory) (lo a : Nat) (h : Memory.wfFrom lo m = true) (ha : a < lo) :
    Memory.read m a = none := by
  induction m generalizing lo with
  | nil => rfl
  | cons c m ih =>
    obtain ⟨x, w⟩ := c
    simp only [Memory.wfFrom, Bool.and_eq_true, decide_eq_true_eq] at h
    have hx : a ≠ x := by omega
    simp [Memory.read, hx, ih (x + 1) h.2 (by omega)]

/-- Equal memories are equal data: a canonical memory is determined by what it reads as. -/
theorem Memory.ext_of_wfFrom (m n : Memory) (lo : Nat) (hm : Memory.wfFrom lo m = true)
    (hn : Memory.wfFrom lo n = true) (h : ∀ a, Memory.read m a = Memory.read n a) : m = n := by
  induction m generalizing n lo with
  | nil =>
    cases n with
    | nil => rfl
    | cons c n => obtain ⟨x, w⟩ := c; simpa [Memory.read] using h x
  | cons c m ih =>
    obtain ⟨x, w⟩ := c
    cases n with
    | nil => simpa [Memory.read] using h x
    | cons d n =>
      obtain ⟨y, u⟩ := d
      simp only [Memory.wfFrom, Bool.and_eq_true, decide_eq_true_eq] at hm hn
      have hxy : x = y := by
        rcases Nat.lt_trichotomy x y with hlt | heq | hlt
        · have := h x
          have hne : x ≠ y := by omega
          simp [Memory.read, hne, Memory.read_none_of_wfFrom n (y + 1) x hn.2 (by omega)] at this
        · exact heq
        · have := h y
          have hne : y ≠ x := by omega
          simp [Memory.read, hne, Memory.read_none_of_wfFrom m (x + 1) y hm.2 (by omega)] at this
      subst hxy
      have hw : w = u := by simpa [Memory.read] using h x
      subst hw
      rw [ih n (x + 1) hm.2 hn.2 fun a => ?_]
      by_cases ha : a = x
      · subst ha
        rw [Memory.read_none_of_wfFrom m (a + 1) a hm.2 (by omega),
          Memory.read_none_of_wfFrom n (a + 1) a hn.2 (by omega)]
      · simpa [Memory.read, ha] using h a

end Sys2Proof.Machine
end

