-- ==== Sys2Proof/Laws/Ops.lean ====
section
/-! SUPPORT. The result of a primitive, the wrapper around a command, and the bits of the buffer. -/

namespace Sys2Proof.Machine

/-! ### Results -/

@[simp] theorem Ret.bind_done {α β : Type} (v : α) (s : State) (f : α → State → Ret β) :
    (Ret.done v s).bind f = f v s := rfl

@[simp] theorem Ret.bind_raised {α β : Type} (k : ErrCode) (sub : SubCause) (s : State) (f : α → State → Ret β) :
    (Ret.raised k sub s : Ret α).bind f = .raised k sub s := rfl

@[simp] theorem Ret.bind_stuck {α β : Type} (f : α → State → Ret β) : (Ret.stuck : Ret α).bind f = .stuck := rfl

theorem Ret.bind_assoc {α β γ : Type} (r : Ret α) (f : α → State → Ret β) (g : β → State → Ret γ) :
    (r.bind f).bind g = r.bind fun v s => (f v s).bind g := by
  cases r <;> rfl

theorem Ret.bind_eq_done {α β : Type} {r : Ret α} {f : α → State → Ret β} {v : β} {t : State} :
    r.bind f = .done v t ↔ ∃ w u, r = .done w u ∧ f w u = .done v t := by
  cases r <;> simp [Ret.bind]

theorem Ret.bind_eq_raised {α β : Type} {r : Ret α} {f : α → State → Ret β} {k : ErrCode} {sub : SubCause}
    {t : State} :
    r.bind f = .raised k sub t ↔ r = .raised k sub t ∨ ∃ w u, r = .done w u ∧ f w u = .raised k sub t := by
  cases r <;> simp [Ret.bind]

theorem Ret.bind_eq_stuck {α β : Type} {r : Ret α} {f : α → State → Ret β} :
    r.bind f = .stuck ↔ r = .stuck ∨ ∃ w u, r = .done w u ∧ f w u = .stuck := by
  cases r <;> simp [Ret.bind]

/-- A primitive ends, with `D` of its value and state if it returns and `R` of its kind, sub-cause and state if it
raises. What a body can do is said once, as such a `D` and `R`. -/
def Ret.Meets {α : Type} (D : α → State → Prop) (R : ErrCode → SubCause → State → Prop) : Ret α → Prop
  | .done v s => D v s
  | .raised k sub s => R k sub s
  | .stuck => False

@[simp] theorem Ret.meets_done {α : Type} (D : α → State → Prop) (R : ErrCode → SubCause → State → Prop) (v : α)
    (s : State) : (Ret.done v s).Meets D R ↔ D v s := Iff.rfl

@[simp] theorem Ret.meets_raised {α : Type} (D : α → State → Prop) (R : ErrCode → SubCause → State → Prop)
    (k : ErrCode) (sub : SubCause) (s : State) : (Ret.raised k sub s : Ret α).Meets D R ↔ R k sub s := Iff.rfl

@[simp] theorem Ret.not_meets_stuck {α : Type} (D : α → State → Prop) (R : ErrCode → SubCause → State → Prop) :
    ¬ (Ret.stuck : Ret α).Meets D R := id

theorem Ret.Meets.ne_stuck {α : Type} {D : α → State → Prop} {R : ErrCode → SubCause → State → Prop} {r : Ret α}
    (h : r.Meets D R) : r ≠ .stuck := by rintro rfl; exact h

theorem Ret.Meets.bind {α β : Type} {D : α → State → Prop} {E : β → State → Prop}
    {R : ErrCode → SubCause → State → Prop} {r : Ret α} {f : α → State → Ret β} (h : r.Meets D R)
    (hf : ∀ v s, D v s → (f v s).Meets E R) : (r.bind f).Meets E R := by
  cases r with
  | done v s => exact hf v s h
  | raised k sub s => exact h
  | stuck => exact h.elim

theorem Ret.Meets.imp {α : Type} {D E : α → State → Prop} {R Q : ErrCode → SubCause → State → Prop} {r : Ret α}
    (h : r.Meets D R) (hD : ∀ v s, D v s → E v s) (hR : ∀ k sub s, R k sub s → Q k sub s) : r.Meets E Q := by
  cases r with
  | done v s => exact hD v s h
  | raised k sub s => exact hR k sub s h
  | stuck => exact h.elim

/-! ### Commands -/

theorem command_halted {fatal : Bool} {body : State → Ret Unit} {s : State} (h : s.fatal = true) :
    command fatal body s = .next (refuseHalted s) := by simp [command, h]

theorem command_done {fatal : Bool} {body : State → Ret Unit} {s t : State} {v : Unit} (h : s.fatal = false)
    (hb : body s = .done v t) : command fatal body s = .next (endOk t) := by simp [command, h, hb]

theorem command_raised {fatal : Bool} {body : State → Ret Unit} {s t : State} {k : ErrCode} {sub : SubCause}
    (h : s.fatal = false) (hb : body s = .raised k sub t) :
    command fatal body s = .next (takeError fatal k sub t) := by simp [command, h, hb]

/-- Everything a command can do when it answers a next state. -/
theorem command_cases {fatal : Bool} {body : State → Ret Unit} {s t : State} (h : command fatal body s = .next t) :
    (s.fatal = true ∧ t = refuseHalted s) ∨
      (s.fatal = false ∧ ∃ u, body s = .done () u ∧ t = endOk u) ∨
      (s.fatal = false ∧ ∃ k sub u, body s = .raised k sub u ∧ t = takeError fatal k sub u) := by
  cases hf : s.fatal
  · cases hb : body s with
    | done v u => simp [command, hf, hb] at h; exact .inr (.inl ⟨rfl, u, rfl, h.symm⟩)
    | raised k sub u => simp [command, hf, hb] at h; exact .inr (.inr ⟨rfl, k, sub, u, rfl, h.symm⟩)
    | stuck => simp [command, hf, hb] at h
  · simp [command, hf] at h
    exact .inl ⟨rfl, h.symm⟩

/-- A command answers a next state unless its rule never ends. -/
theorem command_next {fatal : Bool} {body : State → Ret Unit} {s : State} (h : body s ≠ .stuck) :
    ∃ t, command fatal body s = .next t := by
  cases hf : s.fatal
  · cases hb : body s with
    | done v u => exact ⟨_, command_done hf hb⟩
    | raised k sub u => exact ⟨_, command_raised hf hb⟩
    | stuck => exact absurd hb h
  · exact ⟨_, command_halted hf⟩

/-- Everything a command can do whose body meets `D` and `R`. -/
theorem command_meets {fatal : Bool} {body : State → Ret Unit} {s t : State} {D : Unit → State → Prop}
    {R : ErrCode → SubCause → State → Prop} (hb : (body s).Meets D R) (h : command fatal body s = .next t) :
    (s.fatal = true ∧ t = refuseHalted s) ∨ (s.fatal = false ∧ ∃ u, D () u ∧ t = endOk u) ∨
      (s.fatal = false ∧ ∃ k sub u, R k sub u ∧ t = takeError fatal k sub u) := by
  rcases command_cases h with h | ⟨hf, u, hu, ht⟩ | ⟨hf, k, sub, u, hu, ht⟩
  · exact .inl h
  · exact .inr (.inl ⟨hf, u, by simpa [hu] using hb, ht⟩)
  · exact .inr (.inr ⟨hf, k, sub, u, by simpa [hu] using hb, ht⟩)

/-! ### Bits -/

/-- The bits are those of two states alike if the buffers and what reset left there are. -/
theorem bits_congr {s t : State} (p n : Nat) (h : ∀ i, i < n → bitAt s (p + i) = bitAt t (p + i)) :
    bits s p n = bits t p n := by
  induction n with
  | zero => rfl
  | succ n ih => simp only [bits, h n (by omega), ih fun i hi => h i (by omega)]

/-- The value of a field is below `2^n` (20_memory.md R62). -/
theorem bits_lt (s : State) (p n : Nat) : bits s p n < 2 ^ n := by
  induction n with
  | zero => simp [bits]
  | succ n ih =>
    have hb : (bitAt s (p + n)).toNat ≤ 1 := by cases bitAt s (p + n) <;> simp
    have hs : (bitAt s (p + n)).toNat <<< n ≤ 2 ^ n := by
      rw [Nat.shiftLeft_eq]; exact (Nat.mul_le_mul_right _ hb).trans (by simp)
    simp only [bits, Nat.pow_succ]
    omega

/-- A field in two parts, the low part first (20_memory.md R63). -/
theorem bits_add (s : State) (p n m : Nat) : bits s p (n + m) = bits s p n + bits s (p + n) m <<< n := by
  induction m with
  | zero => simp [bits]
  | succ m ih =>
    rw [← Nat.add_assoc, bits, ih, bits]
    simp only [Nat.shiftLeft_eq, Nat.pow_add, Nat.add_assoc, Nat.add_mul]
    ring

end Sys2Proof.Machine
end

