-- ==== Sys2Proof/Laws/Cursor.lean ====
section
/-! SUPPORT. What the cursor primitives can do: their values, their raises, and that they write nothing but `POS`. -/

namespace Sys2Proof.Machine

/-! ### Bits depend on the buffer alone -/

theorem bitAt_congr {s t : State} (hb : s.buf = t.buf) (hr : s.resets = t.resets) (p : Nat) : bitAt s p = bitAt t p := by
  simp [bitAt, bufByte, hb, hr]

theorem bits_eq_of_buf {s t : State} (hb : s.buf = t.buf) (hr : s.resets = t.resets) (p n : Nat) :
    bits s p n = bits t p n := bits_congr p n fun _ _ => bitAt_congr hb hr _

theorem Holds.congr {s t : State} {p : Nat} {bs : List Bool} (h : Holds s p bs) (hb : s.buf = t.buf)
    (hr : s.resets = t.resets) (hl : s.bufLen = t.bufLen) : Holds t p bs :=
  ⟨by simpa [State.totalBits, ← hl] using h.1, fun j hj => by rw [← bitAt_congr hb hr]; exact h.2 j hj⟩

theorem Holds.append_left {s : State} {p : Nat} {as bs : List Bool} (h : Holds s p (as ++ bs)) : Holds s p as := by
  refine ⟨?_, fun j hj => ?_⟩
  · have := h.1; simp at this; omega
  · rw [h.2 j (by simp; omega), List.getElem_append_left hj]

theorem Holds.append_right {s : State} {p : Nat} {as bs : List Bool} (h : Holds s p (as ++ bs)) :
    Holds s (p + as.length) bs := by
  refine ⟨?_, fun j hj => ?_⟩
  · have := h.1; simp at this; omega
  · rw [Nat.add_assoc, h.2 (as.length + j) (by simp; omega), List.getElem_append_right (by omega)]
    simp

theorem Holds.head {s : State} {p : Nat} {b : Bool} {bs : List Bool} (h : Holds s p (b :: bs)) : bitAt s p = b :=
  h.2 0 (Nat.succ_pos _)

theorem Holds.tail {s : State} {p : Nat} {b : Bool} {bs : List Bool} (h : Holds s p (b :: bs)) : Holds s (p + 1) bs :=
  h.append_right (as := [b])

@[simp] theorem fieldBits_length (v n : Nat) : (fieldBits v n).length = n := by
  induction n generalizing v with
  | zero => rfl
  | succ n ih => simp [fieldBits, ih]

/-- A fixed-width field that stands in the stream is the number `Bits` reads there (20_memory.md R62). -/
theorem bits_of_holds_fieldBits {s : State} {p v n : Nat} (h : Holds s p (fieldBits v n)) (hv : v < 2 ^ n) :
    bits s p n = v := by
  induction n generalizing p v with
  | zero => simp at hv; simp [bits, hv]
  | succ n ih =>
    have h1 := ih h.tail (by omega)
    have h0 : bitAt s p = v.testBit 0 := h.head
    rw [Nat.add_comm n 1, bits_add, h1]
    simp only [bits, Nat.zero_add, Nat.add_zero, h0, Nat.testBit_zero, Nat.shiftLeft_eq]
    rcases Nat.mod_two_eq_zero_or_one v with hm | hm <;> simp [hm] <;> omega

/-! ### Primitives -/

theorem setPos_pos_toNat {p : Nat} {s : State} (h : p ≤ s.totalBits) : (setPos p s).pos.toNat = p := by
  have := s.totalBits_lt
  simp only [setPos_pos, BitVec.toNat_ofNat]
  omega

@[simp] theorem setPos_self (s : State) : setPos s.pos.toNat s = s := by simp [setPos]

theorem peekBits_done {n : Nat} {s : State} (h : s.pos.toNat + n ≤ s.totalBits) :
    peekBits n s = .done (bits s s.pos.toNat n) s := by simp [peekBits, Nat.not_lt.mpr h]

theorem peekBits_raised {n : Nat} {s : State} (h : s.totalBits < s.pos.toNat + n) :
    peekBits n s = .raised .insufficientBits .none s := by simp [peekBits, h]

theorem readBits_done {n : Nat} {s : State} (h : s.pos.toNat + n ≤ s.totalBits) :
    readBits n s = .done (bits s s.pos.toNat n) (setPos (s.pos.toNat + n) s) := by simp [readBits, peekBits_done h]

theorem readBits_raised {n : Nat} {s : State} (h : s.totalBits < s.pos.toNat + n) :
    readBits n s = .raised .insufficientBits .none s := by simp [readBits, peekBits_raised h]

theorem advance_done {n : Nat} {s : State} (h : s.pos.toNat + n ≤ s.totalBits) :
    advance n s = .done () (setPos (s.pos.toNat + n) s) := by simp [advance, Nat.not_lt.mpr h]

theorem advance_raised {n : Nat} {s : State} (h : s.totalBits < s.pos.toNat + n) :
    advance n s = .raised .positionOverflow .none s := by simp [advance, h]

theorem retreat_done {n : Nat} {s : State} (h : n ≤ s.pos.toNat) :
    retreat n s = .done () (setPos (s.pos.toNat - n) s) := by simp [retreat, Nat.not_lt.mpr h]

theorem retreat_raised {n : Nat} {s : State} (h : s.pos.toNat < n) :
    retreat n s = .raised .positionUnderflow .none s := by simp [retreat, h]

/-- A read either gives the bits and moves `POS` within the buffer, or raises and changes nothing. -/
theorem readBits_cases (n : Nat) (s : State) :
    (s.pos.toNat + n ≤ s.totalBits ∧
        readBits n s = .done (bits s s.pos.toNat n) (setPos (s.pos.toNat + n) s)) ∨
      (s.totalBits < s.pos.toNat + n ∧ readBits n s = .raised .insufficientBits .none s) := by
  rcases Nat.lt_or_ge s.totalBits (s.pos.toNat + n) with h | h
  · exact .inr ⟨h, readBits_raised h⟩
  · exact .inl ⟨h, readBits_done h⟩

theorem exhausted_iff (s : State) : exhausted s = true ↔ s.pos.toNat = s.totalBits := by simp [exhausted]

theorem not_exhausted_iff (s : State) : exhausted s = false ↔ s.pos.toNat ≠ s.totalBits := by simp [exhausted]

end Sys2Proof.Machine
end

