-- ==== Sys2Proof/Laws/Table.lean ====
section
/-! SUPPORT. Reading a table after it was written: `setLen`, `fillLen`, `clearTable`, and the code space they take. -/

namespace Sys2Proof.Machine

@[simp] theorem clearTable_length (n : Nat) : (clearTable n).length = n := by simp [clearTable]

@[simp] theorem setLen_length (tab : List CodeEntry) (i : Nat) (v : CodeLen) : (setLen tab i v).length = tab.length := by
  induction tab generalizing i with
  | nil => rfl
  | cons e tab ih => cases i <;> simp [setLen, ih]

@[simp] theorem fillLen_length (tab : List CodeEntry) (i c : Nat) (v : CodeLen) :
    (fillLen tab i c v).length = tab.length := by
  induction tab generalizing i c with
  | nil => simp [fillLen]
  | cons e tab ih => cases i <;> cases c <;> simp [fillLen, ih]

@[simp] theorem fillLen_zero (tab : List CodeEntry) (i : Nat) (v : CodeLen) : fillLen tab i 0 v = tab := by
  induction tab generalizing i with
  | nil => simp [fillLen]
  | cons e tab ih => cases i <;> simp [fillLen, ih]

theorem setLen_of_length_le (tab : List CodeEntry) {i : Nat} (v : CodeLen) (h : tab.length ≤ i) : setLen tab i v = tab := by
  induction tab generalizing i with
  | nil => rfl
  | cons e tab ih =>
    cases i with
    | zero => simp at h
    | succ i => simp only [setLen]; rw [ih (by simpa using h)]

theorem setLen_getElem (tab : List CodeEntry) (i : Nat) (v : CodeLen) (j : Nat) (h : j < (setLen tab i v).length) :
    (setLen tab i v)[j] =
      if j = i then { tab[j]'(by simpa using h) with len := v } else tab[j]'(by simpa using h) := by
  induction tab generalizing i j with
  | nil => simp [setLen] at h
  | cons e tab ih => cases i <;> cases j <;> simp [setLen, ih]

theorem fillLen_getElem (tab : List CodeEntry) (i c : Nat) (v : CodeLen) (j : Nat) (h : j < (fillLen tab i c v).length) :
    (fillLen tab i c v)[j] =
      if i ≤ j ∧ j < i + c then { tab[j]'(by simpa using h) with len := v } else tab[j]'(by simpa using h) := by
  induction tab generalizing i c j with
  | nil => simp [fillLen] at h
  | cons e tab ih =>
    cases i with
    | zero =>
      cases c with
      | zero => simp
      | succ c => cases j <;> simp [fillLen, ih]
    | succ i =>
      cases j with
      | zero => simp [fillLen]
      | succ j =>
        simp only [fillLen, List.getElem_cons_succ, ih]
        congr 1
        simp only [eq_iff_iff]
        omega

/-! ### Codes stay 0 while only lengths are written -/

theorem clearTable_code_zero (n : Nat) : ∀ e ∈ clearTable n, e.code = 0#16 := by
  intro e he
  simp [clearTable] at he
  simp [he.2]

theorem setLen_code (tab : List CodeEntry) (i : Nat) (v : CodeLen) (h : ∀ e ∈ tab, e.code = 0#16) :
    ∀ e ∈ setLen tab i v, e.code = 0#16 := by
  intro e he
  obtain ⟨j, hj, rfl⟩ := List.getElem_of_mem he
  have hj' : j < tab.length := by simpa using hj
  rw [setLen_getElem]
  split <;> exact h tab[j] (List.getElem_mem hj')

theorem fillLen_code (tab : List CodeEntry) (i c : Nat) (v : CodeLen) (h : ∀ e ∈ tab, e.code = 0#16) :
    ∀ e ∈ fillLen tab i c v, e.code = 0#16 := by
  intro e he
  obtain ⟨j, hj, rfl⟩ := List.getElem_of_mem he
  have hj' : j < tab.length := by simpa using hj
  rw [fillLen_getElem]
  split <;> exact h tab[j] (List.getElem_mem hj')

/-! ### Tables as lists of lengths -/

@[simp] theorem lensTable_length (ls : List CodeLen) : (lensTable ls).length = ls.length := by simp [lensTable]

theorem clearTable_eq_lensTable (n : Nat) : clearTable n = lensTable (List.replicate n 0#4) := by
  simp [clearTable, lensTable]

theorem lensTable_append (as bs : List CodeLen) : lensTable (as ++ bs) = lensTable as ++ lensTable bs := by
  simp [lensTable]

/-- A table whose codes are all 0 is the table of its lengths. -/
theorem eq_lensTable_of_code_zero (tab : List CodeEntry) (h : ∀ e ∈ tab, e.code = 0#16) :
    tab = lensTable (tab.map CodeEntry.len) := by
  induction tab with
  | nil => rfl
  | cons e tab ih =>
    have he : e.code = 0#16 := h e (by simp)
    have := ih fun x hx => h x (by simp [hx])
    cases e
    simp only at he
    subst he
    simp [lensTable] at this ⊢
    exact this

theorem setLen_lensTable_append (as : List CodeLen) (b v : CodeLen) (bs : List CodeLen) :
    setLen (lensTable (as ++ b :: bs)) as.length v = lensTable (as ++ v :: bs) := by
  induction as with
  | nil => simp [lensTable, setLen]
  | cons a as ih =>
    simp only [lensTable, List.cons_append, List.map_cons, List.length_cons, setLen] at ih ⊢
    rw [ih]

theorem fillLen_lensTable_append (as : List CodeLen) (c m : Nat) (v : CodeLen) :
    fillLen (lensTable (as ++ List.replicate (c + m) 0#4)) as.length c v =
      lensTable (as ++ List.replicate c v ++ List.replicate m 0#4) := by
  induction as with
  | nil =>
    induction c with
    | zero => simp
    | succ c ih =>
      rw [Nat.succ_add]
      simp only [List.replicate_succ, List.nil_append, List.length_nil, List.cons_append] at ih ⊢
      simp only [lensTable, List.map_cons, fillLen] at ih ⊢
      rw [ih]
  | cons a as ih =>
    simp only [lensTable, List.cons_append, List.map_cons, List.length_cons, fillLen] at ih ⊢
    rw [ih]

/-! ### The code space -/

theorem kraftSum_cons (e : CodeEntry) (tab : List CodeEntry) : kraftSum (e :: tab) = kraftTerm e.len + kraftSum tab := by
  simp [kraftSum]

theorem kraftSum_append (as bs : List CodeEntry) : kraftSum (as ++ bs) = kraftSum as + kraftSum bs := by
  simp [kraftSum]

theorem lensCost_append (w : Nat) (as bs : List CodeLen) : lensCost w (as ++ bs) = lensCost w as + lensCost w bs := by
  simp [lensCost]

@[simp] theorem lensCost_nil (w : Nat) : lensCost w [] = 0 := rfl

theorem lensCost_cons (w : Nat) (a : CodeLen) (as : List CodeLen) : lensCost w (a :: as) = lenCost w a + lensCost w as := by
  simp [lensCost]

theorem lensCost_replicate (w n : Nat) (v : CodeLen) : lensCost w (List.replicate n v) = n * lenCost w v := by
  simp [lensCost]

@[simp] theorem lenCost_zero (w : Nat) : lenCost w 0#4 = 0 := rfl

theorem kraftTerm_eq_lenCost (l : CodeLen) : kraftTerm l = lenCost 32768 l := by
  revert l; decide

/-- The Kraft sum of a table is the code space its lengths take out of 32768 (42_canonical.md R151). -/
theorem kraftSum_eq_lensCost (tab : List CodeEntry) : kraftSum tab = lensCost 32768 (tab.map CodeEntry.len) := by
  induction tab with
  | nil => rfl
  | cons e tab ih => rw [kraftSum_cons, List.map_cons, lensCost_cons, ih, kraftTerm_eq_lenCost]

@[simp] theorem lensTable_lens (ls : List CodeLen) : (lensTable ls).map CodeEntry.len = ls := by
  simp [lensTable, Function.comp_def]

end Sys2Proof.Machine
end

