-- ==== Sys2Proof/Laws/Tree.lean ====
section
/-! SUPPORT. The prefix tree: where paths lead after an insert and after a build, when a build collides, and what a
walk along the stream does. -/

namespace Sys2Proof.Machine

/-! ### Paths -/

@[simp] theorem Node.follow_nil (node : Node) : node.follow [] = some node := by cases node <;> rfl

@[simp] theorem Node.follow_empty_cons (b : Bool) (p : List Bool) : Node.empty.follow (b :: p) = none := by
  cases b <;> rfl

@[simp] theorem Node.follow_leaf_cons (y : Symbol) (b : Bool) (p : List Bool) : (Node.leaf y).follow (b :: p) = none := by
  cases b <;> rfl

@[simp] theorem Node.follow_internal_cons (l r : Node) (b : Bool) (p : List Bool) :
    (Node.internal l r).follow (b :: p) = if b then r.follow p else l.follow p := by
  cases b <;> rfl

@[simp] theorem codePath_length (c : Code) (k : Nat) : (codePath c k).length = k := by
  induction k with
  | zero => rfl
  | succ k ih => simp [codePath, ih]

@[simp] theorem CodeEntry.path_length (e : CodeEntry) : e.path.length = e.len.toNat := by simp [CodeEntry.path]

theorem codePath_getElem (c : Code) (k j : Nat) (h : j < (codePath c k).length) :
    (codePath c k)[j] = c.getLsbD (k - 1 - j) := by
  induction k generalizing j with
  | zero => simp [codePath] at h
  | succ k ih =>
    cases j with
    | zero => simp [codePath]
    | succ j =>
      simp only [codePath, List.getElem_cons_succ, ih]
      congr 1
      omega

/-- The path `p` leads to a Leaf, which is symbol `y`. -/
abbrev Node.HasLeaf (node : Node) (p : List Bool) (y : Symbol) : Prop := node.follow p = some (.leaf y)

/-- No Internal node has two Empty children. -/
def Node.Live : Node → Prop
  | .empty => True
  | .leaf _ => True
  | .internal l r => (l ≠ .empty ∨ r ≠ .empty) ∧ l.Live ∧ r.Live

/-- A live node that is not Empty has a Leaf below it. -/
theorem Node.Live.exists_leaf {node : Node} (h : node.Live) (hne : node ≠ .empty) : ∃ p y, node.HasLeaf p y := by
  induction node with
  | empty => exact absurd rfl hne
  | leaf y => exact ⟨[], y, rfl⟩
  | internal l r ihl ihr =>
    obtain ⟨hlr, hl, hr⟩ := h
    by_cases hle : l = .empty
    · obtain ⟨p, y, hp⟩ := ihr hr (hlr.resolve_left (not_not.mpr hle))
      exact ⟨true :: p, y, by simpa [Node.HasLeaf] using hp⟩
    · obtain ⟨p, y, hp⟩ := ihl hl hle
      exact ⟨false :: p, y, by simpa [Node.HasLeaf] using hp⟩

/-! ### Insert -/

/-- An insert that succeeds leaves a live tree that is not Empty, with the new Leaf at its path and all others where
they were. -/
theorem Node.insert_spec {c : Code} {k : Nat} {y : Symbol} {node node' : Node} (hlive : node.Live)
    (h : node.insert c k y = some node') :
    node'.Live ∧ node' ≠ .empty ∧
      ∀ p z, node'.HasLeaf p z ↔ node.HasLeaf p z ∨ (p = codePath c k ∧ z = y) := by
  induction k generalizing node node' with
  | zero =>
    cases node with
    | empty =>
      simp only [Node.insert, Option.some.injEq] at h
      subst h
      refine ⟨trivial, by simp, fun p z => ?_⟩
      cases p <;> simp [Node.HasLeaf, codePath, eq_comm]
    | leaf x => simp [Node.insert] at h
    | internal l r => simp [Node.insert] at h
  | succ k ih =>
    cases node with
    | leaf x => simp [Node.insert] at h
    | empty =>
      simp only [Node.insert] at h
      split at h
      next hb =>
        obtain ⟨r', hr', rfl⟩ := Option.map_eq_some_iff.mp h
        obtain ⟨h1, h2, h3⟩ := ih (node := .empty) trivial hr'
        refine ⟨⟨.inr h2, trivial, h1⟩, by simp, fun p z => ?_⟩
        cases p with
        | nil => simp [Node.HasLeaf, codePath]
        | cons b p =>
          have := h3 p z
          cases b
          · cases p <;> simp [Node.HasLeaf, codePath, hb]
          · cases p <;> simp_all [Node.HasLeaf, codePath]
      next hb =>
        obtain ⟨l', hl', rfl⟩ := Option.map_eq_some_iff.mp h
        obtain ⟨h1, h2, h3⟩ := ih (node := .empty) trivial hl'
        refine ⟨⟨.inl h2, h1, trivial⟩, by simp, fun p z => ?_⟩
        cases p with
        | nil => simp [Node.HasLeaf, codePath]
        | cons b p =>
          have := h3 p z
          cases b
          · cases p <;> simp_all [Node.HasLeaf, codePath]
          · cases p <;> simp [Node.HasLeaf, codePath, hb]
    | internal l r =>
      obtain ⟨hlr, hl, hr⟩ := hlive
      simp only [Node.insert] at h
      split at h
      next hb =>
        obtain ⟨r', hr', rfl⟩ := Option.map_eq_some_iff.mp h
        obtain ⟨h1, h2, h3⟩ := ih hr hr'
        refine ⟨⟨.inr h2, hl, h1⟩, by simp, fun p z => ?_⟩
        cases p with
        | nil => simp [Node.HasLeaf, codePath]
        | cons b p =>
          cases b
          · simp [Node.HasLeaf, codePath, hb]
          · simpa [Node.HasLeaf, codePath, hb] using h3 p z
      next hb =>
        obtain ⟨l', hl', rfl⟩ := Option.map_eq_some_iff.mp h
        obtain ⟨h1, h2, h3⟩ := ih hl hl'
        refine ⟨⟨.inl h2, h1, hr⟩, by simp, fun p z => ?_⟩
        cases p with
        | nil => simp [Node.HasLeaf, codePath]
        | cons b p =>
          cases b
          · simpa [Node.HasLeaf, codePath, hb] using h3 p z
          · simp [Node.HasLeaf, codePath, hb]

/-- An insert into a live tree collides exactly when its path begins with the path of a Leaf or is the beginning of
one (41_prefixtree.md R131). -/
theorem Node.insert_eq_none_iff {c : Code} {k : Nat} {y : Symbol} {node : Node} (hlive : node.Live) :
    node.insert c k y = none ↔ ∃ p z, node.HasLeaf p z ∧ (p <+: codePath c k ∨ codePath c k <+: p) := by
  induction k generalizing node with
  | zero =>
    cases node with
    | empty =>
      simp only [Node.insert, reduceCtorEq, false_iff, not_exists]
      rintro p z ⟨h, -⟩
      cases p <;> simp [Node.HasLeaf] at h
    | leaf x =>
      simp only [Node.insert, true_iff]
      exact ⟨[], x, rfl, .inl (List.nil_prefix)⟩
    | internal l r =>
      simp only [Node.insert, true_iff]
      obtain ⟨p, z, hp⟩ := hlive.exists_leaf (by simp)
      exact ⟨p, z, hp, .inr List.nil_prefix⟩
  | succ k ih =>
    cases node with
    | leaf x =>
      simp only [Node.insert, true_iff]
      exact ⟨[], x, rfl, .inl List.nil_prefix⟩
    | empty =>
      have hno : ¬ ∃ p z, Node.empty.HasLeaf p z ∧ (p <+: codePath c (k + 1) ∨ codePath c (k + 1) <+: p) := by
        rintro ⟨p, z, h, -⟩
        cases p <;> simp [Node.HasLeaf] at h
      have hno' : ¬ ∃ p z, Node.empty.HasLeaf p z ∧ (p <+: codePath c k ∨ codePath c k <+: p) := by
        rintro ⟨p, z, h, -⟩
        cases p <;> simp [Node.HasLeaf] at h
      have := ih (node := .empty) trivial
      simp only [hno, hno', iff_false] at this ⊢
      simp only [Node.insert]
      split <;> simpa using this
    | internal l r =>
      obtain ⟨hlr, hl, hr⟩ := hlive
      simp only [Node.insert, codePath]
      split
      next hb =>
        rw [Option.map_eq_none_iff, ih hr, hb]
        constructor
        · rintro ⟨p, z, h1, h2⟩
          exact ⟨true :: p, z, by simpa [Node.HasLeaf] using h1, by simpa [List.cons_prefix_cons] using h2⟩
        · rintro ⟨p, z, h1, h2⟩
          cases p with
          | nil => simp [Node.HasLeaf] at h1
          | cons b p =>
            have hb' : b = true := by
              rcases h2 with h2 | h2 <;> simp [List.cons_prefix_cons] at h2 <;> simp [h2.1]
            subst hb'
            exact ⟨p, z, by simpa [Node.HasLeaf] using h1, by simpa [List.cons_prefix_cons] using h2⟩
      next hb =>
        have hb : c.getLsbD k = false := by simpa using hb
        rw [Option.map_eq_none_iff, ih hl, hb]
        constructor
        · rintro ⟨p, z, h1, h2⟩
          exact ⟨false :: p, z, by simpa [Node.HasLeaf] using h1, by simpa [List.cons_prefix_cons] using h2⟩
        · rintro ⟨p, z, h1, h2⟩
          cases p with
          | nil => simp [Node.HasLeaf] at h1
          | cons b p =>
            have hb' : b = false := by
              rcases h2 with h2 | h2 <;> simp [List.cons_prefix_cons] at h2 <;> simp [h2.1]
            subst hb'
            exact ⟨p, z, by simpa [Node.HasLeaf] using h1, by simpa [List.cons_prefix_cons] using h2⟩

/-! ### Build -/

/-- The leaf of a table: a path, and the symbol of an entry with nonzero length whose code it is, the first entry being
symbol `sym`. -/
def TableLeaf (tab : List CodeEntry) (sym : Nat) (p : List Bool) (y : Symbol) : Prop :=
  ∃ i, ∃ h : i < tab.length, tab[i].len ≠ 0#4 ∧ tab[i].path = p ∧ y = BitVec.ofNat 16 (sym + i)

theorem tableLeaf_cons {e : CodeEntry} {tab : List CodeEntry} {sym : Nat} {p : List Bool} {y : Symbol} :
    TableLeaf (e :: tab) sym p y ↔
      (e.len ≠ 0#4 ∧ p = e.path ∧ y = BitVec.ofNat 16 sym) ∨ TableLeaf tab (sym + 1) p y := by
  constructor
  · rintro ⟨i, h, h1, h2, h3⟩
    cases i with
    | zero => exact .inl ⟨h1, h2.symm, h3⟩
    | succ i => exact .inr ⟨i, by simpa using h, h1, h2, by rw [h3]; congr 1; omega⟩
  · rintro (⟨h1, h2, h3⟩ | ⟨i, h, h1, h2, h3⟩)
    · exact ⟨0, by simp, h1, h2.symm, h3⟩
    · exact ⟨i + 1, by simpa using h, h1, h2, by rw [h3]; congr 1; omega⟩

/-- The leaves after inserting a table are those before and those of the table. -/
theorem insertAll_spec {tab : List CodeEntry} {sym : Nat} {node node' : Node} (hlive : node.Live)
    (h : insertAll tab sym node = some node') :
    node'.Live ∧ (node' = .empty ↔ node = .empty ∧ ∀ e ∈ tab, e.len = 0#4) ∧
      ∀ p z, node'.HasLeaf p z ↔ node.HasLeaf p z ∨ TableLeaf tab sym p z := by
  induction tab generalizing sym node with
  | nil =>
    simp only [insertAll, Option.some.injEq] at h
    subst h
    refine ⟨hlive, by simp, fun p z => ?_⟩
    simp [TableLeaf]
  | cons e tab ih =>
    simp only [insertAll] at h
    split at h
    next he =>
      obtain ⟨h1, h2, h3⟩ := ih hlive h
      refine ⟨h1, by simp [h2, he], fun p z => ?_⟩
      rw [h3, tableLeaf_cons]
      simp [he]
    next he =>
      obtain ⟨n1, hn1, hn2⟩ := Option.bind_eq_some_iff.mp h
      obtain ⟨i1, i2, i3⟩ := Node.insert_spec hlive hn1
      obtain ⟨h1, h2, h3⟩ := ih i1 hn2
      refine ⟨h1, by simp [h2, he, i2], fun p z => ?_⟩
      rw [h3, i3, tableLeaf_cons]
      simp [he, CodeEntry.path, or_assoc]

/-- No two used codes of a table clash, and none clashes with a leaf that is already there. -/
theorem insertAll_isSome_iff {tab : List CodeEntry} {sym : Nat} {node : Node} (hlive : node.Live) :
    insertAll tab sym node ≠ none ↔
      PrefixFree tab ∧
        ∀ i (h : i < tab.length), tab[i].len ≠ 0#4 → ∀ p z, node.HasLeaf p z →
          ¬ p <+: tab[i].path ∧ ¬ tab[i].path <+: p := by
  induction tab generalizing sym node with
  | nil => simp [insertAll, PrefixFree]
  | cons e tab ih =>
    have hpf : PrefixFree (e :: tab) ↔ PrefixFree tab ∧
        (e.len ≠ 0#4 → ∀ i (h : i < tab.length), tab[i].len ≠ 0#4 →
          ¬ e.path <+: tab[i].path ∧ ¬ tab[i].path <+: e.path) := by
      constructor
      · intro h
        refine ⟨fun i j hi hj hij => ?_, fun he i hi hli => ?_⟩
        · exact h (i + 1) (j + 1) (by simpa using hi) (by simpa using hj) (by omega)
        · exact ⟨h 0 (i + 1) (by simp) (by simpa using hi) (by omega) he hli,
            h (i + 1) 0 (by simpa using hi) (by simp) (by omega) hli he⟩
      · rintro ⟨h1, h2⟩ i j hi hj hij
        cases i with
        | zero =>
          cases j with
          | zero => exact absurd rfl hij
          | succ j => exact fun hli hlj => (h2 hli j (by simpa using hj) hlj).1
        | succ i =>
          cases j with
          | zero => exact fun hli hlj => (h2 hlj i (by simpa using hi) hli).2
          | succ j => exact h1 i j (by simpa using hi) (by simpa using hj) (by omega)
    simp only [insertAll]
    split
    next he =>
      rw [ih hlive, hpf]
      constructor
      · rintro ⟨h1, h2⟩
        refine ⟨⟨h1, fun h => absurd he h⟩, fun i hi hli => ?_⟩
        cases i with
        | zero => exact absurd he hli
        | succ i => exact h2 i (by simpa using hi) hli
      · rintro ⟨⟨h1, -⟩, h2⟩
        exact ⟨h1, fun i hi hli => h2 (i + 1) (by simpa using hi) hli⟩
    next he =>
      cases hn : node.insert e.code e.len.toNat (BitVec.ofNat 16 sym) with
      | none =>
        obtain ⟨p, z, hp, hc⟩ := (Node.insert_eq_none_iff hlive).mp hn
        simp only [Option.bind_none, ne_eq, not_true_eq_false, false_iff]
        rintro ⟨-, h2⟩
        have h3 : ¬ p <+: e.path ∧ ¬ e.path <+: p := h2 0 (by simp) he p z hp
        rcases hc with hc | hc
        · exact h3.1 hc
        · exact h3.2 hc
      | some n1 =>
        obtain ⟨i1, i2, i3⟩ := Node.insert_spec hlive hn
        have hnc : ∀ p z, node.HasLeaf p z → ¬ p <+: e.path ∧ ¬ e.path <+: p := by
          intro p z hp
          have := mt (Node.insert_eq_none_iff (y := BitVec.ofNat 16 sym) hlive).mpr (by rw [hn]; simp)
          simp only [not_exists, not_and, not_or] at this
          exact this p z hp
        rw [Option.bind_some, ih i1, hpf]
        constructor
        · rintro ⟨h1, h2⟩
          refine ⟨⟨h1, fun _ i hi hli => h2 i hi hli _ _ ((i3 _ _).mpr (.inr ⟨rfl, rfl⟩))⟩, fun i hi hli p z hp => ?_⟩
          cases i with
          | zero => exact hnc p z hp
          | succ i => exact h2 i (by simpa using hi) hli p z ((i3 _ _).mpr (.inl hp))
        · rintro ⟨⟨h1, h2⟩, h3⟩
          refine ⟨h1, fun i hi hli p z hp => ?_⟩
          rcases (i3 p z).mp hp with hp | ⟨rfl, -⟩
          · exact h3 (i + 1) (by simpa using hi) hli p z hp
          · exact h2 he i hi hli

/-- A build succeeds exactly on a table whose used codes are prefix free (41_prefixtree.md R131, R132). -/
theorem insertAll_empty_isSome_iff (tab : List CodeEntry) : insertAll tab 0 .empty ≠ none ↔ PrefixFree tab := by
  rw [insertAll_isSome_iff (node := .empty) trivial]
  refine ⟨fun h => h.1, fun h => ⟨h, fun i hi hli p z hp => ?_⟩⟩
  cases p <;> simp [Node.HasLeaf] at hp

/-- The leaves of a built tree are exactly the used codes of the table. -/
theorem insertAll_empty_leaf {tab : List CodeEntry} {tree : Node} (h : insertAll tab 0 .empty = some tree)
    (p : List Bool) (z : Symbol) : tree.HasLeaf p z ↔ TableLeaf tab 0 p z := by
  rw [(insertAll_spec (node := .empty) trivial h).2.2]
  constructor
  · rintro (hp | hp)
    · cases p <;> simp [Node.HasLeaf] at hp
    · exact hp
  · exact .inr

/-- A built tree is not a bare Leaf (10_state.md R34). -/
theorem insertAll_empty_not_leaf {tab : List CodeEntry} {tree : Node} (h : insertAll tab 0 .empty = some tree) :
    tree.isLeaf = false := by
  cases tree with
  | empty => rfl
  | internal l r => rfl
  | leaf y =>
    obtain ⟨i, hi, hl, hp, -⟩ := (insertAll_empty_leaf h [] y).mp rfl
    have : (tab[i]'hi).len.toNat = 0 := by rw [← CodeEntry.path_length, hp]; rfl
    exact absurd (BitVec.eq_of_toNat_eq (by simpa using this)) hl

/-- A live tree with short paths and small symbols is one that `BUILD` can make. -/
theorem Node.inner_of_live {d n : Nat} {node : Node} (hlive : node.Live)
    (h : ∀ p y, node.HasLeaf p y → p.length ≤ d ∧ y.toNat < n) : node.inner d n = true := by
  induction node generalizing d with
  | empty => simp [Node.inner]
  | leaf y => simpa [Node.inner] using (h [] y rfl).2
  | internal l r ihl ihr =>
    obtain ⟨p, y, hp⟩ := Node.Live.exists_leaf hlive (by simp)
    have hlen := (h p y hp).1
    cases p with
    | nil => simp [Node.HasLeaf] at hp
    | cons b p =>
      cases d with
      | zero => simp at hlen
      | succ d =>
        have hl : l.inner d n = true := ihl hlive.2.1 fun p y hp => by
          have := h (false :: p) y (by simpa [Node.HasLeaf] using hp)
          simpa using this
        have hr : r.inner d n = true := ihr hlive.2.2 fun p y hp => by
          have := h (true :: p) y (by simpa [Node.HasLeaf] using hp)
          simpa using this
        simpa [Node.inner, hl, hr] using hlive.1

/-- A built tree is a tree that `BUILD` can make (10_state.md R34). -/
theorem insertAll_empty_wf {tab : List CodeEntry} {tree : Node} (h : insertAll tab 0 .empty = some tree)
    (hn : tab.length ≤ 65536) : tree.wf tab.length = true := by
  have hi : tree.inner 15 tab.length = true := by
    refine Node.inner_of_live (insertAll_spec (node := .empty) trivial h).1 fun p y hp => ?_
    obtain ⟨i, hi, -, hpath, hy⟩ := (insertAll_empty_leaf h p y).mp hp
    have hl := (tab[i]'hi).len.isLt
    rw [← hpath, CodeEntry.path_length, hy, BitVec.toNat_ofNat, Nat.zero_add, Nat.mod_eq_of_lt (by omega)]
    exact ⟨by omega, hi⟩
  simp [Node.wf, hi, insertAll_empty_not_leaf h]

/-! ### Walks -/

/-- One step of a walk: the next stream bit selects the child. -/
theorem walk_internal {start : Reg64} {l r : Node} {s : State} (h : s.pos.toNat + 1 ≤ s.totalBits) :
    walk start (.internal l r) s =
      walk start (if bitAt s s.pos.toNat then r else l) (setPos (s.pos.toNat + 1) s) := by
  have hne : exhausted s = false := by rw [not_exhausted_iff]; omega
  have hb : bits s s.pos.toNat 1 = (bitAt s s.pos.toNat).toNat := by simp [bits]
  simp only [walk, hne, readBits_done (n := 1) (s := s) h, Ret.bind_done, hb]
  cases bitAt s s.pos.toNat <;> simp

/-- A walk along bits that stand in the stream is a walk from where they lead (41_prefixtree.md R134). -/
theorem walk_follow {start : Reg64} {node node' : Node} {path : List Bool} {s : State}
    (h : Holds s s.pos.toNat path) (hf : node.follow path = some node') :
    walk start node s = walk start node' (setPos (s.pos.toNat + path.length) s) := by
  induction path generalizing node s with
  | nil =>
    simp only [Node.follow_nil, Option.some.injEq] at hf
    subst hf
    simp
  | cons b path ih =>
    cases node with
    | empty => simp at hf
    | leaf y => simp at hf
    | internal l r =>
      have hlen := h.1
      simp only [List.length_cons] at hlen
      have hle : s.pos.toNat + 1 ≤ s.totalBits := by omega
      have hpos : (setPos (s.pos.toNat + 1) s).pos.toNat = s.pos.toNat + 1 := setPos_pos_toNat hle
      have hh : Holds (setPos (s.pos.toNat + 1) s) (setPos (s.pos.toNat + 1) s).pos.toNat path := by
        rw [hpos]; exact h.tail.congr rfl rfl rfl
      have hadd : s.pos.toNat + (b :: path).length = s.pos.toNat + 1 + path.length := by
        simp only [List.length_cons]; omega
      have hf' : (if b then r else l).follow path = some node' := by
        rw [Node.follow_internal_cons] at hf
        cases b <;> exact hf
      rw [walk_internal hle, h.head, ih hh hf', hpos, hadd]
      rfl

/-- Everything a walk from a state within the buffer can do: it goes along a path that stands in the stream to a Leaf,
to an Empty node, or to an Internal node at the end of the buffer. -/
theorem walk_cases (start : Reg64) (node : Node) (s : State) (hc : CursorOk s) :
    ∃ path, Holds s s.pos.toNat path ∧
      ((∃ y, node.follow path = some (.leaf y) ∧
          walk start node s = .done y (setPos (s.pos.toNat + path.length) s)) ∨
        (node.follow path = some .empty ∧
          walk start node s = .raised .treeMismatch .emptyNode
            (if s.params.emptyRollback then { s with pos := start }
              else setPos (s.pos.toNat + path.length) s)) ∨
        (∃ l r, node.follow path = some (.internal l r) ∧ s.pos.toNat + path.length = s.totalBits ∧
          walk start node s = .raised .treeMismatch .exhaustion { s with pos := start })) := by
  induction node generalizing s with
  | empty => exact ⟨[], ⟨hc, by simp⟩, .inr (.inl ⟨rfl, by simp [walk]⟩)⟩
  | leaf y => exact ⟨[], ⟨hc, by simp⟩, .inl ⟨y, rfl, by simp [walk]⟩⟩
  | internal l r ihl ihr =>
    by_cases hex : exhausted s
    · exact ⟨[], ⟨hc, by simp⟩, .inr (.inr ⟨l, r, rfl, by simpa using (exhausted_iff s).mp hex, by simp [walk, hex]⟩)⟩
    · have hne : s.pos.toNat ≠ s.totalBits := fun h => hex ((exhausted_iff s).mpr h)
      have hc' : s.pos.toNat ≤ s.totalBits := hc
      have hle : s.pos.toNat + 1 ≤ s.totalBits := by omega
      have hpos : (setPos (s.pos.toNat + 1) s).pos.toNat = s.pos.toNat + 1 := setPos_pos_toNat hle
      have hcu : CursorOk (setPos (s.pos.toNat + 1) s) := by
        simp only [CursorOk, hpos, setPos_totalBits]; exact hle
      have hold : ∀ path, Holds (setPos (s.pos.toNat + 1) s) (setPos (s.pos.toNat + 1) s).pos.toNat path →
          Holds s s.pos.toNat (bitAt s s.pos.toNat :: path) := by
        intro path h
        rw [hpos] at h
        refine ⟨by have := h.1; simp only [setPos_totalBits] at this; simp; omega, fun j hj => ?_⟩
        cases j with
        | zero => rfl
        | succ j =>
          have := h.2 j (by simpa using hj)
          rw [List.getElem_cons_succ, ← this]
          have : s.pos.toNat + (j + 1) = s.pos.toNat + 1 + j := by omega
          rw [this]
          exact bitAt_congr rfl rfl _
      have hset : ∀ n, setPos (s.pos.toNat + 1 + n) (setPos (s.pos.toNat + 1) s) = setPos (s.pos.toNat + 1 + n) s :=
        fun _ => rfl
      have hadd : ∀ (b : Bool) (path : List Bool), s.pos.toNat + (b :: path).length = s.pos.toNat + 1 + path.length :=
        fun b path => by simp only [List.length_cons]; omega
      rw [walk_internal hle]
      cases hbit : bitAt s s.pos.toNat
      · obtain ⟨path, hp, h⟩ := ihl (setPos (s.pos.toNat + 1) s) hcu
        refine ⟨false :: path, hbit ▸ hold path hp, ?_⟩
        simp only [hpos, hset, setPos_totalBits] at h
        simp only [hadd, Node.follow_internal_cons, Bool.false_eq_true, if_false]
        exact h
      · obtain ⟨path, hp, h⟩ := ihr (setPos (s.pos.toNat + 1) s) hcu
        refine ⟨true :: path, hbit ▸ hold path hp, ?_⟩
        simp only [hpos, hset, setPos_totalBits] at h
        simp only [hadd, Node.follow_internal_cons, if_true]
        exact h

end Sys2Proof.Machine
end

