-- ==== Sys2Proof/Laws/Canonical.lean ====
section
/-! SUPPORT. The canonical codes: what `Canon` writes, in closed form, and why no code is a prefix of another
(42_canonical.md R150, R153). -/

namespace Sys2Proof.Machine

/-! ### The first code of each length -/

/-- The first code of length `len`: what the shorter codes use up, counted in codes of length `len`. -/
def firstCode (tab : List CodeEntry) (len : Nat) : Nat :=
  (tab.map fun e => if e.len ≠ 0#4 ∧ e.len.toNat < len then 2 ^ (len - e.len.toNat) else 0).sum

/-- How many entries have the length `len`. -/
def lenCount (tab : List CodeEntry) (len : CodeLen) : Nat := tab.countP fun e => e.len = len

theorem firstCode_cons (e : CodeEntry) (tab : List CodeEntry) (len : Nat) :
    firstCode (e :: tab) len =
      (if e.len ≠ 0#4 ∧ e.len.toNat < len then 2 ^ (len - e.len.toNat) else 0) + firstCode tab len := by
  simp [firstCode]

theorem blCount_cons (e : CodeEntry) (tab : List CodeEntry) (len : Nat) :
    blCount (e :: tab) len = (if len ≠ 0 ∧ e.len.toNat = len then 1 else 0) + blCount tab len := by
  by_cases h0 : len = 0
  · simp [blCount, h0]
  · by_cases he : e.len.toNat = len
    · simp [blCount, h0, he, Nat.add_comm]
    · simp [blCount, h0, he]

theorem blCount_eq_lenCount (tab : List CodeEntry) (len : CodeLen) (h : len ≠ 0#4) :
    blCount tab len.toNat = lenCount tab len := by
  have h0 : len.toNat ≠ 0 := fun hc => h (BitVec.eq_of_toNat_eq (by simpa using hc))
  simp [blCount, h0, lenCount, BitVec.toNat_inj]

/-- The recurrence of 42_canonical.md R150 holds of the closed form. -/
theorem firstCode_succ (tab : List CodeEntry) (len : Nat) :
    firstCode tab (len + 1) = (firstCode tab len + blCount tab len) <<< 1 := by
  induction tab with
  | nil => simp [firstCode, blCount]
  | cons e tab ih =>
    rw [firstCode_cons, firstCode_cons, blCount_cons, ih]
    simp only [Nat.shiftLeft_eq, Nat.pow_one, Nat.add_mul]
    have hnz : e.len ≠ 0#4 ↔ e.len.toNat ≠ 0 := by
      rw [ne_eq, ne_eq, ← BitVec.toNat_inj]; rfl
    by_cases hz : e.len = 0#4
    · have h0 : e.len.toNat = 0 := by simp [hz]
      have h1 : ¬ (len ≠ 0 ∧ e.len.toNat = len) := by omega
      simp [hz]
      omega
    · have h0 : e.len.toNat ≠ 0 := hnz.mp hz
      rcases Nat.lt_trichotomy e.len.toNat len with h | h | h
      · have e1 : len + 1 - e.len.toNat = len - e.len.toNat + 1 := by omega
        have h2 : ¬ e.len.toNat = len := by omega
        have h3 : e.len.toNat < len + 1 := by omega
        simp only [ne_eq, hz, not_false_eq_true, h, h2, h3, and_self, and_false, if_true, if_false, e1, Nat.pow_succ]
        omega
      · have h2 : ¬ e.len.toNat < len := by omega
        have h3 : e.len.toNat < len + 1 := by omega
        have h4 : len ≠ 0 := by omega
        have h5 : len + 1 - e.len.toNat = 1 := by omega
        simp only [ne_eq, hz, not_false_eq_true, h, h4, and_self, if_true, true_and]
        simp
        omega
      · have h2 : ¬ e.len.toNat < len := by omega
        have h3 : ¬ e.len.toNat < len + 1 := by omega
        have h4 : ¬ e.len.toNat = len := by omega
        simp only [h2, h3, h4, and_false, if_false]
        omega

theorem firstCode_zero (tab : List CodeEntry) : firstCode tab 0 = 0 := by
  induction tab with
  | nil => rfl
  | cons e tab ih => simp [firstCode_cons, ih]

theorem nextCodesAfter_getElem? (tab : List CodeEntry) (k n j : Nat) (hj : j < n) :
    (nextCodesAfter (firstCode tab k) ((List.range' k n).map (blCount tab)))[j]? = some (firstCode tab (k + j + 1)) := by
  induction n generalizing k j with
  | zero => omega
  | succ n ih =>
    rw [List.range'_succ, List.map_cons, nextCodesAfter, ← firstCode_succ]
    cases j with
    | zero => simp
    | succ j =>
      rw [List.getElem?_cons_succ, ih (k + 1) j (by omega)]
      congr 2
      omega

theorem nextCodesAfter_length (c : Nat) (counts : List Nat) : (nextCodesAfter c counts).length = counts.length := by
  induction counts generalizing c with
  | nil => rfl
  | cons d counts ih => simp [nextCodesAfter, ih]

@[simp] theorem nextCodes_length (tab : List CodeEntry) : (nextCodes tab).length = 16 := by
  simp [nextCodes, nextCodesAfter_length]

/-- `next_code` starts as the first code of each length. -/
theorem nextCodes_getElem? (tab : List CodeEntry) (len : Nat) (h : len < 16) :
    (nextCodes tab)[len]? = some (firstCode tab len) := by
  cases len with
  | zero => simp [nextCodes, firstCode_zero]
  | succ j =>
    have := nextCodesAfter_getElem? tab 0 15 j (by omega)
    rw [firstCode_zero, Nat.zero_add, ← List.range_eq_range'] at this
    simp only [nextCodes, List.getElem?_cons_succ, this]

theorem nextCodes_getD (tab : List CodeEntry) (l : CodeLen) : (nextCodes tab).getD l.toNat 0 = firstCode tab l.toNat := by
  rw [List.getD_eq_getElem?_getD, nextCodes_getElem? tab _ (by have := l.isLt; omega)]
  rfl

/-! ### What the assignment writes -/

@[simp] theorem assignCodes_length (tab : List CodeEntry) (next : List Nat) :
    (assignCodes tab next).length = tab.length := by
  induction tab generalizing next with
  | nil => rfl
  | cons e tab ih => simp only [assignCodes]; split <;> simp [ih]

/-- Every length stays, an absent symbol gets code 0, any other the counter of its length plus its rank among the
entries of that length. -/
theorem assignCodes_getElem (tab : List CodeEntry) (next : List Nat) (hn : next.length = 16) (i : Nat)
    (h : i < (assignCodes tab next).length) :
    (assignCodes tab next)[i] =
      { tab[i]'(by simpa using h) with
        code :=
          if (tab[i]'(by simpa using h)).len = 0#4 then 0#16
          else BitVec.ofNat 16
            (next.getD (tab[i]'(by simpa using h)).len.toNat 0 +
              lenCount (tab.take i) (tab[i]'(by simpa using h)).len) } := by
  induction tab generalizing next i with
  | nil => simp [assignCodes] at h
  | cons e tab ih =>
    by_cases he : e.len = 0#4
    · cases i with
      | zero => simp [assignCodes, he]
      | succ i =>
        simp only [assignCodes, he, if_true, List.getElem_cons_succ]
        rw [ih next hn i (by simpa [assignCodes, he] using h)]
        by_cases hz : (tab[i]'(by simpa [assignCodes, he] using h)).len = 0#4
        · simp [hz]
        · simp [hz, lenCount, List.take_succ_cons, he, Ne.symm hz]
    · cases i with
      | zero => simp [assignCodes, he, lenCount]
      | succ i =>
        have hi : i < tab.length := by simpa [assignCodes, he] using h
        simp only [assignCodes, he, if_false, List.getElem_cons_succ]
        rw [ih _ (by simp [hn]) i (by simpa [assignCodes, he] using h)]
        by_cases hz : tab[i].len = 0#4
        · simp [hz]
        · simp only [hz, if_false]
          congr 1
          by_cases hl : e.len = tab[i].len
          · have hlt : tab[i].len.toNat < next.length := by rw [hn]; exact tab[i].len.isLt
            simp only [hl, lenCount, List.take_succ_cons, List.countP_cons, decide_true, if_true]
            rw [List.getD_eq_getElem?_getD, List.getElem?_set_self hlt]
            simp only [Option.getD_some]
            congr 1
            omega
          · have hlt : e.len.toNat ≠ tab[i].len.toNat := fun hc => hl (BitVec.eq_of_toNat_eq hc)
            simp only [lenCount, List.take_succ_cons, List.countP_cons, hl, decide_false, Bool.false_eq_true, if_false]
            rw [List.getD_eq_getElem?_getD, List.getElem?_set_ne hlt]
            simp [List.getD_eq_getElem?_getD]

theorem assignCodes_lens (tab : List CodeEntry) (next : List Nat) :
    (assignCodes tab next).map CodeEntry.len = tab.map CodeEntry.len := by
  induction tab generalizing next with
  | nil => rfl
  | cons e tab ih => simp only [assignCodes]; split <;> simp [ih]

/-- `blCount`, and so all of `Canon`, looks at the lengths alone (42_canonical.md R153 (b)). -/
theorem nextCodes_congr {tab tab' : List CodeEntry} (h : tab.map CodeEntry.len = tab'.map CodeEntry.len) :
    nextCodes tab = nextCodes tab' := by
  have hb : blCount tab = blCount tab' := by
    funext len
    have : ∀ t : List CodeEntry, blCount t len =
        if len = 0 then 0 else (t.map CodeEntry.len).countP fun l => l.toNat = len := by
      intro t
      simp [blCount, List.countP_map, Function.comp_def]
    rw [this, this, h]
  simp [nextCodes, hb]

theorem assignCodes_congr {tab tab' : List CodeEntry} (h : tab.map CodeEntry.len = tab'.map CodeEntry.len)
    (next : List Nat) : assignCodes tab next = assignCodes tab' next := by
  induction tab generalizing tab' next with
  | nil =>
    cases tab' with
    | nil => rfl
    | cons e' tab' => simp at h
  | cons e tab ih =>
    cases tab' with
    | nil => simp at h
    | cons e' tab' =>
      simp only [List.map_cons, List.cons.injEq] at h
      simp only [assignCodes, h.1, ih h.2]

/-- The canonical table is determined by the lengths. -/
theorem assignCodes_eq_canonTable (tab : List CodeEntry) :
    assignCodes tab (nextCodes tab) = canonTable (tab.map CodeEntry.len) := by
  rw [canonTable, assignCodes_congr (tab' := lensTable (tab.map CodeEntry.len)) (by simp),
    nextCodes_congr (tab' := lensTable (tab.map CodeEntry.len)) (by simp)]

@[simp] theorem canonTable_lens (ls : List CodeLen) : (canonTable ls).map CodeEntry.len = ls := by
  rw [canonTable, assignCodes_lens, lensTable_lens]

@[simp] theorem canonTable_length (ls : List CodeLen) : (canonTable ls).length = ls.length := by
  simp [canonTable]

/-! ### The codes fit and are prefix free -/

/-- The value of the code of entry `i`. -/
def codeValue (tab : List CodeEntry) (i : Nat) (l : CodeLen) : Nat := firstCode tab l.toNat + lenCount (tab.take i) l

/-- The code space, scaled to 15 bits, that the codes up to entry `i` of length `l` use up. -/
theorem codeValue_scaled_le (tab : List CodeEntry) (l : CodeLen) (hl : l ≠ 0#4) :
    (firstCode tab l.toNat + lenCount tab l) * 2 ^ (15 - l.toNat) ≤ kraftSum tab := by
  have hl0 : l.toNat ≠ 0 := fun hc => hl (BitVec.eq_of_toNat_eq (by simpa using hc))
  have hl15 := l.isLt
  induction tab with
  | nil => simp [firstCode, lenCount]
  | cons e tab ih =>
    have key : ((if e.len ≠ 0#4 ∧ e.len.toNat < l.toNat then 2 ^ (l.toNat - e.len.toNat) else 0) +
        (if e.len = l then 1 else 0)) * 2 ^ (15 - l.toNat) ≤ kraftTerm e.len := by
      by_cases hz : e.len = 0#4
      · simp [hz, kraftTerm, Ne.symm hl]
      · by_cases hlt : e.len.toNat < l.toNat
        · have hne : e.len ≠ l := fun hc => by simp [hc] at hlt
          have hp : l.toNat - e.len.toNat + (15 - l.toNat) = 15 - e.len.toNat := by omega
          simp [hz, hlt, hne, kraftTerm, Nat.shiftLeft_eq, ← Nat.pow_add, hp]
        · by_cases heq : e.len = l
          · simp [heq, kraftTerm, hl, Nat.shiftLeft_eq]
          · simp [hlt, heq]
    rw [firstCode_cons, kraftSum_cons]
    have hcount : lenCount (e :: tab) l = (if e.len = l then 1 else 0) + lenCount tab l := by
      by_cases heq : e.len = l <;> simp [lenCount, heq, Nat.add_comm]
    rw [hcount]
    calc _ = ((if e.len ≠ 0#4 ∧ e.len.toNat < l.toNat then 2 ^ (l.toNat - e.len.toNat) else 0) +
              (if e.len = l then 1 else 0)) * 2 ^ (15 - l.toNat) +
            (firstCode tab l.toNat + lenCount tab l) * 2 ^ (15 - l.toNat) := by ring
      _ ≤ _ := Nat.add_le_add key ih

theorem lenCount_take_lt (tab : List CodeEntry) (i : Nat) (h : i < tab.length) :
    lenCount (tab.take i) tab[i].len < lenCount tab tab[i].len := by
  have gen : ∀ l, lenCount tab l = lenCount (tab.take i ++ tab[i] :: tab.drop (i + 1)) l := by simp
  rw [gen]
  simp only [lenCount, List.countP_append, List.countP_cons, decide_true, if_true]
  omega

theorem lenCount_take_mono (tab : List CodeEntry) {i j : Nat} (h : i ≤ j) (l : CodeLen) :
    lenCount (tab.take i) l ≤ lenCount (tab.take j) l := by
  have : tab.take i = (tab.take j).take i := by rw [List.take_take, Nat.min_eq_left h]
  rw [this]
  exact (List.take_sublist _ _).countP_le

/-- Within a code space that is not over-subscribed, the code of a symbol of length `L` is below `2^L`. -/
theorem codeValue_lt (tab : List CodeEntry) (hk : kraftSum tab ≤ 32768) (i : Nat) (h : i < tab.length)
    (hl : tab[i].len ≠ 0#4) : codeValue tab i tab[i].len < 2 ^ tab[i].len.toNat := by
  have h1 := codeValue_scaled_le tab tab[i].len hl
  have h2 := lenCount_take_lt tab i h
  have hl15 := tab[i].len.isLt
  have hpow : 2 ^ tab[i].len.toNat * 2 ^ (15 - tab[i].len.toNat) = 32768 := by
    rw [← Nat.pow_add]
    have : tab[i].len.toNat + (15 - tab[i].len.toNat) = 15 := by omega
    rw [this]
  by_contra hge
  have h3 : 2 ^ tab[i].len.toNat + 1 ≤ firstCode tab tab[i].len.toNat + lenCount tab tab[i].len := by
    simp only [codeValue] at hge
    omega
  have h4 := Nat.mul_le_mul_right (2 ^ (15 - tab[i].len.toNat)) h3
  have h5 : 0 < 2 ^ (15 - tab[i].len.toNat) := Nat.pow_pos (by omega)
  rw [Nat.add_mul, hpow, Nat.one_mul] at h4
  omega

/-- What `Canon` writes at entry `i`, as a number. -/
theorem assignCodes_code_toNat (tab : List CodeEntry) (hk : kraftSum tab ≤ 32768) (i : Nat) (h : i < tab.length)
    (h' : i < (assignCodes tab (nextCodes tab)).length) :
    (assignCodes tab (nextCodes tab))[i].len = tab[i].len ∧
      (assignCodes tab (nextCodes tab))[i].code.toNat =
        if tab[i].len = 0#4 then 0 else codeValue tab i tab[i].len := by
  rw [assignCodes_getElem tab _ (by simp) i h']
  refine ⟨rfl, ?_⟩
  by_cases hz : tab[i].len = 0#4
  · simp [hz]
  · have hlt := codeValue_lt tab hk i h hz
    have hl15 := tab[i].len.isLt
    have hp : 2 ^ tab[i].len.toNat ≤ 2 ^ 15 := Nat.pow_le_pow_right (by omega) (by omega)
    simp only [hz, if_false, nextCodes_getD, BitVec.toNat_ofNat]
    rw [Nat.mod_eq_of_lt]
    · rfl
    · exact Nat.lt_of_lt_of_le hlt (Nat.le_trans hp (by decide))

/-- The number a path spells, first bit most significant. -/
def pathValue (p : List Bool) : Nat := p.foldl (fun v b => 2 * v + b.toNat) 0

theorem pathValue_append (p q : List Bool) : pathValue (p ++ q) = pathValue p * 2 ^ q.length + pathValue q := by
  have key : ∀ (q : List Bool) (v : Nat),
      q.foldl (fun v b => 2 * v + b.toNat) v = v * 2 ^ q.length + q.foldl (fun v b => 2 * v + b.toNat) 0 := by
    intro q
    induction q with
    | nil => simp
    | cons b q ih =>
      intro v
      simp only [List.foldl_cons, List.length_cons]
      rw [ih (2 * v + b.toNat), ih (2 * 0 + b.toNat)]
      simp only [Nat.pow_succ]
      ring
  rw [pathValue, List.foldl_append, key]
  rfl

theorem pathValue_lt (p : List Bool) : pathValue p < 2 ^ p.length := by
  induction p using List.reverseRecOn with
  | nil => simp [pathValue]
  | append_singleton p b ih =>
    rw [pathValue_append]
    have : pathValue [b] ≤ 1 := by cases b <;> simp [pathValue]
    simp only [List.length_append, List.length_cons, List.length_nil, Nat.pow_succ, Nat.pow_zero]
    omega

theorem pathValue_codePath (c : Code) (k : Nat) : pathValue (codePath c k) = c.toNat % 2 ^ k := by
  induction k with
  | zero => simp [codePath, pathValue, Nat.mod_one]
  | succ k ih =>
    have : codePath c (k + 1) = [c.getLsbD k] ++ codePath c k := rfl
    rw [this, pathValue_append, ih, codePath_length, BitVec.getLsbD, Nat.mod_pow_succ, ← Nat.toNat_testBit]
    simp [pathValue, Nat.mul_comm, Nat.add_comm]

/-- No canonical code of a code space that is not over-subscribed is a prefix of another (42_canonical.md R153). -/
theorem prefixFree_assignCodes (tab : List CodeEntry) (hk : kraftSum tab ≤ 32768) :
    PrefixFree (assignCodes tab (nextCodes tab)) := by
  intro i j hi hj hij hli hlj hpre
  have hi' : i < tab.length := by simpa using hi
  have hj' : j < tab.length := by simpa using hj
  obtain ⟨ei, ci⟩ := assignCodes_code_toNat tab hk i hi' hi
  obtain ⟨ej, cj⟩ := assignCodes_code_toNat tab hk j hj' hj
  rw [ei] at hli
  rw [ej] at hlj
  rw [if_neg hli] at ci
  rw [if_neg hlj] at cj
  have bi := codeValue_lt tab hk i hi' hli
  have bj := codeValue_lt tab hk j hj' hlj
  obtain ⟨rest, hrest⟩ := hpre
  have hlen := congrArg List.length hrest
  simp only [List.length_append, CodeEntry.path_length, ei, ej] at hlen
  have hval := congrArg pathValue hrest
  rw [pathValue_append, CodeEntry.path, CodeEntry.path, pathValue_codePath, pathValue_codePath, ci, cj, ei, ej,
    Nat.mod_eq_of_lt bi, Nat.mod_eq_of_lt bj] at hval
  have hr := pathValue_lt rest
  rcases Nat.lt_or_eq_of_le (show tab[i].len.toNat ≤ tab[j].len.toNat by omega) with hlt | heq
  · -- a shorter code: everything of the longer length lies behind all codes of the shorter one
    have hrl : rest.length = tab[j].len.toNat - tab[i].len.toNat := by omega
    rw [hrl] at hval hr
    have hbig : (firstCode tab tab[i].len.toNat + lenCount tab tab[i].len) * 2 ^ (tab[j].len.toNat - tab[i].len.toNat) ≤
        firstCode tab tab[j].len.toNat := by
      have gen : ∀ t : List CodeEntry,
          (firstCode t tab[i].len.toNat + lenCount t tab[i].len) * 2 ^ (tab[j].len.toNat - tab[i].len.toNat) ≤
            firstCode t tab[j].len.toNat := by
        intro t
        induction t with
        | nil => simp [firstCode, lenCount]
        | cons e t ih =>
          have hcount : lenCount (e :: t) tab[i].len = (if e.len = tab[i].len then 1 else 0) + lenCount t tab[i].len := by
            by_cases h : e.len = tab[i].len <;> simp [lenCount, h, Nat.add_comm]
          have key : ((if e.len ≠ 0#4 ∧ e.len.toNat < tab[i].len.toNat then 2 ^ (tab[i].len.toNat - e.len.toNat) else 0) +
              (if e.len = tab[i].len then 1 else 0)) * 2 ^ (tab[j].len.toNat - tab[i].len.toNat) ≤
              if e.len ≠ 0#4 ∧ e.len.toNat < tab[j].len.toNat then 2 ^ (tab[j].len.toNat - e.len.toNat) else 0 := by
            by_cases hz : e.len = 0#4
            · simp [hz, Ne.symm hli]
            · by_cases h1 : e.len.toNat < tab[i].len.toNat
              · have h2 : e.len ≠ tab[i].len := fun hc => by simp [hc] at h1
                have h3 : e.len.toNat < tab[j].len.toNat := by omega
                have hp : tab[i].len.toNat - e.len.toNat + (tab[j].len.toNat - tab[i].len.toNat) =
                    tab[j].len.toNat - e.len.toNat := by omega
                simp [hz, h1, h2, h3, ← Nat.pow_add, hp]
              · by_cases h2 : e.len = tab[i].len
                · simp [h2, hli, hlt]
                · simp [h1, h2]
          rw [firstCode_cons, firstCode_cons, hcount]
          calc _ = ((if e.len ≠ 0#4 ∧ e.len.toNat < tab[i].len.toNat then 2 ^ (tab[i].len.toNat - e.len.toNat) else 0) +
                    (if e.len = tab[i].len then 1 else 0)) * 2 ^ (tab[j].len.toNat - tab[i].len.toNat) +
                  (firstCode t tab[i].len.toNat + lenCount t tab[i].len) *
                    2 ^ (tab[j].len.toNat - tab[i].len.toNat) := by ring
            _ ≤ _ := Nat.add_le_add key ih
      exact gen tab
    have hci : codeValue tab i tab[i].len + 1 ≤ firstCode tab tab[i].len.toNat + lenCount tab tab[i].len := by
      have := lenCount_take_lt tab i hi'
      simp only [codeValue]
      omega
    have hmul := Nat.mul_le_mul_right (2 ^ (tab[j].len.toNat - tab[i].len.toNat)) hci
    have hcj : firstCode tab tab[j].len.toNat ≤ codeValue tab j tab[j].len := by simp [codeValue]
    rw [Nat.add_mul, Nat.one_mul] at hmul
    omega
  · -- the same length: the ranks differ
    have hle : tab[i].len = tab[j].len := BitVec.eq_of_toNat_eq heq
    have hrl : rest = [] := by
      apply List.eq_nil_of_length_eq_zero
      omega
    rw [hrl] at hval
    simp only [List.length_nil, Nat.pow_zero, Nat.mul_one] at hval
    have hz : pathValue [] = 0 := rfl
    rw [hz, Nat.add_zero] at hval
    simp only [codeValue, hle] at hval
    rcases Nat.lt_or_gt_of_ne hij with h | h
    · have h1 := lenCount_take_mono tab (show i + 1 ≤ j from h) tab[j].len
      have h2 : lenCount (tab.take (i + 1)) tab[j].len = lenCount (tab.take i) tab[j].len + 1 := by
        rw [List.take_succ_eq_append_getElem hi', lenCount, List.countP_append, List.countP_singleton, hle]
        simp [lenCount]
      omega
    · have h1 := lenCount_take_mono tab (show j + 1 ≤ i from h) tab[j].len
      have h2 : lenCount (tab.take (j + 1)) tab[j].len = lenCount (tab.take j) tab[j].len + 1 := by
        rw [List.take_succ_eq_append_getElem hj', lenCount, List.countP_append, List.countP_singleton]
        simp [lenCount]
      omega

/-! ### `Canon` -/

theorem kraftSum_assignCodes (tab : List CodeEntry) (next : List Nat) : kraftSum (assignCodes tab next) = kraftSum tab := by
  rw [kraftSum_eq_lensCost, kraftSum_eq_lensCost, assignCodes_lens]

theorem canon_done {t : Alphabet} {s : State} (h : kraftSum (s.table t) ≤ 32768) :
    canon t s = .done () (s.setTable t (canonTable ((s.table t).map CodeEntry.len))) := by
  simp [canon, Nat.not_lt.mpr h, assignCodes_eq_canonTable]

theorem canon_raised {t : Alphabet} {s : State} (h : 32768 < kraftSum (s.table t)) :
    canon t s = .raised .corruptHistogram .none s := by simp [canon, h]

/-- A canonical table is prefix free, so a build of it succeeds. -/
theorem insertAll_canonTable {ls : List CodeLen} (h : lensCost 32768 ls ≤ 32768) :
    ∃ tree, insertAll (canonTable ls) 0 .empty = some tree := by
  have hk : kraftSum (lensTable ls) ≤ 32768 := by rw [kraftSum_eq_lensCost, lensTable_lens]; exact h
  have := (insertAll_empty_isSome_iff (canonTable ls)).mpr (prefixFree_assignCodes (lensTable ls) hk)
  exact Option.ne_none_iff_exists'.mp this

end Sys2Proof.Machine
end

