-- ==== Sys2Proof/Laws/CodeLengths.lean ====
section
/-! SUPPORT. What the bodies of the commands can do from any state at all: which elements they write, how they can
raise, and that they end. First the cursor and the walks, then `CLDec` (43_codelength_alphabet.md). -/

namespace Sys2Proof.Machine

/-! ### The cursor and the walks -/

theorem readBits_meets (n : Nat) (s : State) :
    (readBits n s).Meets
      (fun v t => v = bits s s.pos.toNat n ∧ s.pos.toNat + n ≤ s.totalBits ∧ t = setPos (s.pos.toNat + n) s)
      (fun k sub t => k = .insufficientBits ∧ sub = .none ∧ t = s) := by
  rcases readBits_cases n s with ⟨h, he⟩ | ⟨-, he⟩
  · rw [he]; exact ⟨rfl, h, rfl⟩
  · rw [he]; exact ⟨rfl, rfl, rfl⟩

/-- How `DecodeSymbol` can raise: with a sub-cause, or, only if the cursor has left the buffer, as its read does. -/
abbrev WalkError (k : ErrCode) (sub : SubCause) : Prop :=
  (k = .treeMismatch ∧ sub ≠ .none) ∨ (k = .insufficientBits ∧ sub = .none)

/-- A walk writes nothing but `POS`; it moves forward or back to its start, and forward by at least a bit unless it
starts at a Leaf. -/
theorem walk_meets (start : Reg64) (node : Node) (s : State) :
    (walk start node s).Meets
      (fun _ t => ∃ p, t = { s with pos := p } ∧ s.pos.toNat ≤ p.toNat ∧
        (p = s.pos ∨ p.toNat ≤ s.totalBits) ∧ (node.isLeaf = false → s.pos.toNat < p.toNat ∧ p.toNat ≤ s.totalBits))
      (fun k sub t => WalkError k sub ∧ ∃ p, t = { s with pos := p } ∧ (p = start ∨ p = s.pos ∨ p.toNat ≤ s.totalBits)) := by
  induction node generalizing s with
  | empty =>
    refine ⟨.inl ⟨rfl, by simp⟩, ?_⟩
    by_cases h : s.params.emptyRollback
    · exact ⟨start, by simp [h], .inl rfl⟩
    · exact ⟨s.pos, by simp [h], .inr (.inl rfl)⟩
  | leaf y => exact ⟨s.pos, rfl, Nat.le_refl _, .inl rfl, by simp [Node.isLeaf]⟩
  | internal l r ihl ihr =>
    simp only [walk]
    split
    · exact ⟨.inl ⟨rfl, by simp⟩, start, rfl, .inl rfl⟩
    · rcases readBits_cases 1 s with ⟨h, he⟩ | ⟨-, he⟩
      · have hp : (setPos (s.pos.toNat + 1) s).pos.toNat = s.pos.toNat + 1 := setPos_pos_toNat h
        have key : ∀ n : Node, (∀ s, (walk start n s).Meets
              (fun _ t => ∃ p, t = { s with pos := p } ∧ s.pos.toNat ≤ p.toNat ∧
                (p = s.pos ∨ p.toNat ≤ s.totalBits) ∧
                (n.isLeaf = false → s.pos.toNat < p.toNat ∧ p.toNat ≤ s.totalBits))
              (fun k sub t => WalkError k sub ∧
                ∃ p, t = { s with pos := p } ∧ (p = start ∨ p = s.pos ∨ p.toNat ≤ s.totalBits))) →
            (walk start n (setPos (s.pos.toNat + 1) s)).Meets
              (fun _ t => ∃ p, t = { s with pos := p } ∧ s.pos.toNat ≤ p.toNat ∧
                (p = s.pos ∨ p.toNat ≤ s.totalBits) ∧
                ((Node.internal l r).isLeaf = false → s.pos.toNat < p.toNat ∧ p.toNat ≤ s.totalBits))
              (fun k sub t => WalkError k sub ∧
                ∃ p, t = { s with pos := p } ∧ (p = start ∨ p = s.pos ∨ p.toNat ≤ s.totalBits)) := by
          intro n hn
          refine (hn _).imp ?_ ?_
          · rintro v t ⟨p, ht, h1, h2, -⟩
            rw [setPos_totalBits] at h2
            have hle : p.toNat ≤ s.totalBits := h2.elim (fun h2 => by rw [h2, hp]; exact h) id
            exact ⟨p, ht, by omega, .inr hle, fun _ => ⟨by omega, hle⟩⟩
          · rintro k sub t ⟨hk, p, ht, h2⟩
            rw [setPos_totalBits] at h2
            refine ⟨hk, p, ht, h2.imp id fun h2 => .inr (h2.elim (fun h2 => by rw [h2, hp]; exact h) id)⟩
        rw [he, Ret.bind_done]
        split
        · exact key l ihl
        · exact key r ihr
      · rw [he]
        exact ⟨.inr ⟨rfl, rfl⟩, s.pos, rfl, .inr (.inl rfl)⟩

theorem decodeSymbol_meets (a : Alphabet) (s : State) :
    (decodeSymbol a s).Meets
      (fun _ t => ∃ p, t = { s with pos := p } ∧ s.pos.toNat ≤ p.toNat ∧ (p = s.pos ∨ p.toNat ≤ s.totalBits) ∧
        ((s.tree a).isLeaf = false → s.pos.toNat < p.toNat ∧ p.toNat ≤ s.totalBits))
      (fun k sub t => WalkError k sub ∧ ∃ p, t = { s with pos := p } ∧ (p = s.pos ∨ p.toNat ≤ s.totalBits)) := by
  refine (walk_meets s.pos (s.tree a) s).imp (fun _ _ h => h) ?_
  rintro k sub t ⟨hk, p, ht, h⟩
  exact ⟨hk, p, ht, by tauto⟩

theorem canon_meets (a : Alphabet) (s : State) :
    (canon a s).Meets
      (fun _ t => kraftSum (s.table a) ≤ 32768 ∧ t = s.setTable a (canonTable ((s.table a).map CodeEntry.len)))
      (fun k sub t => 32768 < kraftSum (s.table a) ∧ k = .corruptHistogram ∧ sub = .none ∧ t = s) := by
  rcases Nat.lt_or_ge 32768 (kraftSum (s.table a)) with h | h
  · rw [canon_raised h]; exact ⟨h, rfl, rfl, rfl⟩
  · rw [canon_done h]; exact ⟨h, rfl⟩

theorem buildTree_meets (a : Alphabet) (s : State) :
    (buildTree a s).Meets
      (fun _ t => ∃ tree, insertAll (s.table a) 0 .empty = some tree ∧ t = s.setTree a tree)
      (fun k sub t => ¬ PrefixFree (s.table a) ∧ k = .treeCollision ∧ sub = .none ∧ t = s.setTree a .empty) := by
  cases h : insertAll (s.table a) 0 .empty with
  | none =>
    simp only [buildTree, h]
    exact ⟨fun hp => (insertAll_empty_isSome_iff _).mpr hp h, rfl, rfl, rfl⟩
  | some tree =>
    simp only [buildTree, h]
    exact ⟨tree, rfl, rfl⟩

/-- A build of a prefix-free table ends. -/
theorem buildTree_done {a : Alphabet} {s : State} {tree : Node} (h : insertAll (s.table a) 0 .empty = some tree) :
    buildTree a s = .done () (s.setTree a tree) := by simp [buildTree, h]

/-! ### The prefix table (30_encoding.md R82) -/

/-- The length is at most 5 and between 2 and 4 bits are consumed (30_encoding.md R82). -/
theorem clpfx_bounds (p : Nat) : (clpfx p).1.toNat ≤ 5 ∧ 2 ≤ (clpfx p).2 ∧ (clpfx p).2 ≤ 4 := by
  rcases Nat.lt_or_ge p 16 with h | h
  · revert p; decide
  · have : clpfx p = (0#4, 2) := by simp [clpfx, clpfxTable, List.getD_eq_getElem?_getD, h]
    simp [this]

theorem fieldBits_getElem (v n j : Nat) (h : j < (fieldBits v n).length) : (fieldBits v n)[j] = v.testBit j := by
  induction n generalizing v j with
  | zero => simp [fieldBits] at h
  | succ n ih =>
    cases j with
    | zero => rfl
    | succ j => simp only [fieldBits, List.getElem_cons_succ, ih, Nat.testBit_succ]

/-- The bits that stand in the stream are the field bits of what `Bits` reads. -/
theorem holds_fieldBits_bits {s : State} {p n : Nat} (h : p + n ≤ s.totalBits) : Holds s p (fieldBits (bits s p n) n) := by
  refine ⟨by simpa using h, fun j hj => ?_⟩
  have hj' : j < n := by simpa using hj
  rw [fieldBits_getElem]
  have gen : ∀ n, j < n → (bits s p n).testBit j = bitAt s (p + j) := by
    intro n
    induction n with
    | zero => omega
    | succ n ih =>
      intro hjn
      have hlt := bits_lt s p n
      rw [bits, Nat.shiftLeft_eq, Nat.add_comm, Nat.mul_comm, Nat.testBit_two_pow_mul_add _ hlt]
      rcases Nat.lt_or_ge j n with h1 | h1
      · simp [h1, ih h1]
      · have : j = n := by omega
        subst this
        cases bitAt s (p + j) <;> simp
  exact (gen n hj').symm

theorem clBits_length_le (v : CodeLen) : (clBits v).length ≤ 4 := by revert v; decide

/-- Four peeked bits that begin with the code of `v` are classified as `v`. -/
theorem clpfx_of_holds {s : State} {p : Nat} {v : CodeLen} (hv : v.toNat ≤ 5) (h : Holds s p (clBits v))
    (h4 : p + 4 ≤ s.totalBits) :
    clpfx (bits s p 4) = (v, (clBits v).length) := by
  have hf := holds_fieldBits_bits h4
  have hlt := bits_lt s p 4
  generalize bits s p 4 = q at hf hlt
  have table : ∀ q, q < 16 → ∀ v, v < 6 → clBits (BitVec.ofNat 4 v) <+: fieldBits q 4 →
      clpfx q = (BitVec.ofNat 4 v, (clBits (BitVec.ofNat 4 v)).length) := by decide +kernel
  have hvv : BitVec.ofNat 4 v.toNat = v := by simp
  have hlen := clBits_length_le v
  have := table q hlt v.toNat (by omega)
  rw [hvv] at this
  apply this
  rw [List.prefix_iff_eq_take]
  apply List.ext_getElem
  · simp [hlen]
  · intro j hj _
    rw [List.getElem_take, ← hf.2 j (by simp; omega), ← h.2 j hj]

/-! ### `CLDec` from any state -/

/-- Giving an absent symbol a length adds that length's share of the code space. -/
theorem kraftSum_setLen (tab : List CodeEntry) (i : Nat) (v : CodeLen) (hi : i < tab.length)
    (h0 : (tab.getD i ⟨0#4, 0#16⟩).len = 0#4) : kraftSum (setLen tab i v) = kraftSum tab + kraftTerm v := by
  induction tab generalizing i with
  | nil => simp at hi
  | cons e tab ih =>
    cases i with
    | zero =>
      have he : e.len = 0#4 := by simpa using h0
      simp [setLen, kraftSum_cons, he, kraftTerm, Nat.add_comm]
    | succ i =>
      simp only [setLen, kraftSum_cons, ih i (by simpa using hi) (by simpa using h0)]
      omega

/-- Giving an absent symbol a nonzero length makes one more symbol present. -/
theorem nonzeroCount_setLen (tab : List CodeEntry) (i : Nat) (v : CodeLen) (hi : i < tab.length)
    (h0 : (tab.getD i ⟨0#4, 0#16⟩).len = 0#4) :
    nonzeroCount ((setLen tab i v).map CodeEntry.len) =
      nonzeroCount (tab.map CodeEntry.len) + if v = 0#4 then 0 else 1 := by
  induction tab generalizing i with
  | nil => simp at hi
  | cons e tab ih =>
    cases i with
    | zero =>
      have he : e.len = 0#4 := by simpa using h0
      by_cases hv : v = 0#4 <;> simp [setLen, nonzeroCount, he, hv]
    | succ i =>
      have := ih i (by simpa using hi) (by simpa using h0)
      simp only [nonzeroCount] at this
      simp only [setLen, List.map_cons, nonzeroCount, List.countP_cons, this]
      omega

theorem setLen_getD (tab : List CodeEntry) (i : Nat) (v : CodeLen) (j : Nat) (d : CodeEntry) (h : j ≠ i) :
    (setLen tab i v).getD j d = tab.getD j d := by
  induction tab generalizing i j with
  | nil => rfl
  | cons e tab ih =>
    cases i <;> cases j <;> simp_all [setLen]

theorem setLen_mem {tab : List CodeEntry} {i : Nat} {v : CodeLen} {P : CodeEntry → Prop} (h : ∀ e ∈ tab, P e)
    (hv : ∀ e ∈ tab, P { e with len := v }) : ∀ e ∈ setLen tab i v, P e := by
  induction tab generalizing i with
  | nil => simp [setLen]
  | cons e tab ih =>
    simp only [List.mem_cons, forall_eq_or_imp] at h hv
    cases i with
    | zero => simp only [setLen, List.mem_cons, forall_eq_or_imp]; exact ⟨hv.1, h.2⟩
    | succ i => simp only [setLen, List.mem_cons, forall_eq_or_imp]; exact ⟨h.1, ih h.2 hv.2⟩

/-- A table of absent symbols takes no code space. -/
@[simp] theorem kraftSum_clearTable (n : Nat) : kraftSum (clearTable n) = 0 := by
  induction n with
  | zero => rfl
  | succ n ih =>
    have : clearTable (n + 1) = ⟨0#4, 0#16⟩ :: clearTable n := rfl
    rw [this, kraftSum_cons, ih]
    rfl

/-- What holds of table 0 and the working registers while `CLDec` reads its slots, those in `slots` still to come:
each length is at most 5, no code is written yet, and `SPACE` and `NUM_CODES` tell the lengths' cost and number. -/
structure ClInv (slots : List Nat) (tab : List CodeEntry) (space : Int) (num : BitVec 5) : Prop where
  size   : tab.length = Config.ncl
  codes  : ∀ e ∈ tab, e.code = 0#16
  short  : ∀ e ∈ tab, e.len.toNat ≤ 5
  absent : ∀ i ∈ slots, (tab.getD i ⟨0#4, 0#16⟩).len = 0#4
  cost   : (kraftSum tab : Int) = 1024 * (32 - space)
  number : num.toNat = nonzeroCount (tab.map CodeEntry.len)

/-- `NUM_CODES` keeps the range of 10_state.md R28. -/
theorem ClInv.number_le {slots : List Nat} {tab : List CodeEntry} {space : Int} {num : BitVec 5}
    (h : ClInv slots tab space num) : num.toNat ≤ Config.ncl := by
  rw [h.number, ← h.size]
  exact Nat.le_trans List.countP_le_length (by simp)

theorem clInv_start (slots : List Nat) : ClInv slots (clearTable Config.ncl) spaceCl 0#5 := by
  have h : ∀ e ∈ clearTable Config.ncl, e = ⟨0#4, 0#16⟩ := fun e he => by simp [clearTable] at he; exact he.2
  refine ⟨clearTable_length _, clearTable_code_zero _, fun e he => by simp [h e he], fun i _ => ?_, by decide, by decide⟩
  rw [List.getD_eq_getElem?_getD]
  cases hg : (clearTable Config.ncl)[i]? with
  | none => rfl
  | some e => rw [Option.getD_some, h e (List.mem_of_getElem? hg)]

theorem kraftTerm_of_short {v : CodeLen} (h : v.toNat ≤ 5) (h0 : v ≠ 0#4) :
    kraftTerm v = 1024 * (32 >>> v.toNat) ∧ 32 >>> v.toNat ≤ 16 := by
  revert v; decide

/-- One slot read. -/
theorem ClInv.slot {sym : Nat} {slots : List Nat} {tab : List CodeEntry} {space : Int} {num : BitVec 5} {v : CodeLen}
    (h : ClInv (sym :: slots) tab space num) (hnd : sym ∉ slots) (hsym : sym < Config.ncl) (hv : v.toNat ≤ 5) :
    (v = 0#4 → ClInv slots (setLen tab sym v) space num) ∧
      (v ≠ 0#4 → ClInv slots (setLen tab sym v) (space - ((32 >>> v.toNat : Nat) : Int)) (num + 1#5)) := by
  have hi : sym < tab.length := by rw [h.size]; exact hsym
  have h0 := h.absent sym (by simp)
  have hk := kraftSum_setLen tab sym v hi h0
  have hn := nonzeroCount_setLen tab sym v hi h0
  have hsize : (setLen tab sym v).length = Config.ncl := by simp [h.size]
  have hcodes : ∀ e ∈ setLen tab sym v, e.code = 0#16 := setLen_code _ _ _ h.codes
  have hshort : ∀ e ∈ setLen tab sym v, e.len.toNat ≤ 5 := setLen_mem h.short fun _ _ => hv
  have habs : ∀ i ∈ slots, ((setLen tab sym v).getD i ⟨0#4, 0#16⟩).len = 0#4 := by
    intro i hmem
    have hne : i ≠ sym := by rintro rfl; exact hnd hmem
    rw [setLen_getD _ _ _ _ _ hne]
    exact h.absent i (by simp [hmem])
  constructor
  · intro hz
    refine ⟨hsize, hcodes, hshort, habs, ?_, ?_⟩
    · have : kraftTerm v = 0 := by simp [hz, kraftTerm]
      rw [hk, this, Nat.add_zero]; exact h.cost
    · rw [hn, if_pos hz]; exact h.number
  · intro hz
    refine ⟨hsize, hcodes, hshort, habs, ?_, ?_⟩
    · rw [hk, (kraftTerm_of_short hv hz).1]
      have := h.cost
      push_cast
      omega
    · rw [hn, if_neg hz, ← h.number]
      have hle : nonzeroCount ((setLen tab sym v).map CodeEntry.len) ≤ 18 := by
        have := List.countP_le_length (p := fun l : CodeLen => decide (l ≠ 0#4)) (l := (setLen tab sym v).map CodeEntry.len)
        simpa [nonzeroCount, hsize, Config.ncl] using this
      rw [hn, if_neg hz, ← h.number] at hle
      rw [BitVec.toNat_add]
      exact Nat.mod_eq_of_lt (by simp; omega)

/-- The states `CLDec` goes through, from `s`. -/
def ClFrom (slots : List Nat) (s t : State) : Prop :=
  ∃ p tab space num, t = { s with pos := p, table0 := tab, space := space, numCodes := num } ∧
    (CursorOk s → p.toNat ≤ s.totalBits) ∧ -16 < space ∧ space ≤ 32 ∧ ClInv slots tab space num

theorem ClInv.forget {slots : List Nat} {tab : List CodeEntry} {space : Int} {num : BitVec 5}
    (h : ClInv slots tab space num) : ClInv [] tab space num :=
  ⟨h.size, h.codes, h.short, by simp, h.cost, h.number⟩

theorem ClFrom.forget {slots : List Nat} {s t : State} (h : ClFrom slots s t) : ClFrom [] s t := by
  obtain ⟨p, tab, space, num, ht, hp, h1, h2, hi⟩ := h
  exact ⟨p, tab, space, num, ht, hp, h1, h2, hi.forget⟩

theorem clSlot_meets {sym : Nat} {slots : List Nat} {s u : State} (h : ClFrom (sym :: slots) s u) (hpos : 0 < u.space)
    (hnd : sym ∉ slots) (hsym : sym < Config.ncl) :
    (clSlot sym u).Meets (fun _ t => ClFrom slots s t)
      (fun k sub t => k = .insufficientBits ∧ sub = .none ∧ ClFrom [] s t) := by
  obtain ⟨p, tab, space, num, rfl, hp, h1, h2, hi⟩ := h
  rcases Nat.lt_or_ge s.totalBits (p.toNat + 4) with hlt | hge
  · rw [clSlot, peekBits_raised hlt, Ret.bind_raised]
    exact ⟨rfl, rfl, p, tab, space, num, rfl, hp, h1, h2, hi.forget⟩
  · rw [clSlot, peekBits_done hge, Ret.bind_done]
    generalize bits _ _ 4 = q
    obtain ⟨b1, b2, b3⟩ := clpfx_bounds q
    have hle : p.toNat + (clpfx q).2 ≤ s.totalBits := by omega
    rw [advance_done (s := { s with pos := p, table0 := tab, space := space, numCodes := num }) hle, Ret.bind_done]
    obtain ⟨i1, i2⟩ := hi.slot hnd hsym b1
    have hp' : CursorOk s → (BitVec.ofNat 64 (p.toNat + (clpfx q).2)).toNat ≤ s.totalBits := by
      intro _
      exact Nat.le_trans (by rw [BitVec.toNat_ofNat]; exact Nat.mod_le _ _) hle
    simp only
    split
    next hz =>
      have := (kraftTerm_of_short b1 hz).2
      simp only at hpos
      refine ⟨_, _, _, _, rfl, hp', ?_, ?_, i2 hz⟩
      · show -16 < space - _
        omega
      · show space - ((32 >>> (clpfx q).1.toNat : Nat) : Int) ≤ 32
        have := Int.natCast_nonneg (32 >>> (clpfx q).1.toNat)
        omega
    next hz => exact ⟨_, _, _, _, rfl, hp', h1, h2, i1 (not_not.mp hz)⟩

theorem clLoop_meets {slots : List Nat} {s u : State} (h : ClFrom slots s u) (hpos : 0 < u.space)
    (hnd : slots.Nodup) (hsym : ∀ i ∈ slots, i < Config.ncl) :
    (clLoop slots u).Meets (fun _ t => ClFrom [] s t)
      (fun k sub t => k = .insufficientBits ∧ sub = .none ∧ ClFrom [] s t) := by
  induction slots generalizing u with
  | nil => exact h
  | cons sym slots ih =>
    rw [List.nodup_cons] at hnd
    refine (clSlot_meets h hpos hnd.1 (hsym sym (by simp))).bind fun _ t ht => ?_
    split
    · exact ht.forget
    next hs => exact ih ht (by omega) hnd.2 fun i hi => hsym i (by simp [hi])

theorem perm_drop_nodup (k : Nat) : (perm.drop k).Nodup := List.Nodup.sublist (List.drop_sublist k perm) (by decide)

theorem perm_drop_lt (k : Nat) : ∀ i ∈ perm.drop k, i < Config.ncl := fun i hi =>
  (show ∀ i ∈ perm, i < Config.ncl by decide) i (List.mem_of_mem_drop hi)

/-- With one code in the table, at most half of the code space is used. -/
theorem kraftSum_of_one {tab : List CodeEntry} (h : nonzeroCount (tab.map CodeEntry.len) ≤ 1) : kraftSum tab ≤ 16384 := by
  have hterm : ∀ l : CodeLen, kraftTerm l ≤ 16384 := by decide
  induction tab with
  | nil => simp [kraftSum]
  | cons e tab ih =>
    rw [kraftSum_cons]
    by_cases he : e.len = 0#4
    · have : kraftTerm e.len = 0 := by simp [he, kraftTerm]
      rw [this, Nat.zero_add]
      exact ih (by simpa [nonzeroCount, he] using h)
    · have h0 : nonzeroCount (tab.map CodeEntry.len) = 0 := by
        have h' : nonzeroCount (tab.map CodeEntry.len) + 1 ≤ 1 := by simpa [nonzeroCount, he] using h
        omega
      have hz : kraftSum tab = 0 := by
        clear ih h
        induction tab with
        | nil => rfl
        | cons e tab ih =>
          have he : e.len = 0#4 := by
            by_contra hc
            simp [nonzeroCount, hc] at h0
          rw [kraftSum_cons, ih (by simpa [nonzeroCount, he] using h0)]
          simp [he, kraftTerm]
      rw [hz, Nat.add_zero]
      exact hterm _

/-- Everything `CLDec` can do: it returns with the lengths read, their canonical codes and the guarantees of
43_codelength_alphabet.md R165, or raises one of two kinds with no code written. -/
theorem clDec_meets (s : State) :
    (clDec s).Meets
      (fun _ t => ∃ p tab space num, ClInv [] tab space num ∧ (CursorOk s → p.toNat ≤ s.totalBits) ∧
        (space = 0 ∧ kraftSum tab = 32768 ∨ num = 1#5 ∧ kraftSum tab ≤ 16384) ∧ 0 ≤ space ∧ space ≤ 32 ∧
        t = { s with
          pos := p, table0 := canonTable (tab.map CodeEntry.len), space := space, numCodes := num })
      (fun k sub t => (k = .insufficientBits ∨ k = .corruptHistogram) ∧ sub = .none ∧ ClFrom [] s t) := by
  have hstart : ∀ slots, ClFrom slots s (clStart s) := fun slots =>
    ⟨s.pos, _, _, _, rfl, id, by decide, by decide, clInv_start slots⟩
  refine (readBits_meets 2 (clStart s)).imp (fun _ _ h => h) ?_ |>.bind ?_
  · rintro k sub t ⟨rfl, rfl, rfl⟩
    exact ⟨.inl rfl, rfl, hstart []⟩
  rintro skip u ⟨-, hle, rfl⟩
  have hu : ClFrom (perm.drop skip) s (setPos ((clStart s).pos.toNat + 2) (clStart s)) :=
    ⟨_, _, _, _, rfl, fun _ => Nat.le_trans (by rw [BitVec.toNat_ofNat]; exact Nat.mod_le _ _) hle,
      by simp [clStart, spaceCl], by simp [clStart, spaceCl], clInv_start _⟩
  refine (clLoop_meets hu (by simp [clStart, spaceCl]) (perm_drop_nodup _) (perm_drop_lt _)).imp (fun _ _ h => h) ?_ |>.bind ?_
  · rintro k sub t ⟨rfl, rfl, h⟩
    exact ⟨.inl rfl, rfl, h⟩
  rintro - t ⟨p, tab, space, num, rfl, hp, h1, h2, hi⟩
  have hcost := hi.cost
  simp only [clCheck]
  split
  · exact ⟨.inr rfl, rfl, p, tab, space, num, rfl, hp, h1, h2, hi⟩
  next hc =>
    rw [Ret.bind_done]
    have hor : space = 0 ∧ kraftSum tab = 32768 ∨ num = 1#5 ∧ kraftSum tab ≤ 16384 := by
      by_cases hn : num = 1#5
      · exact .inr ⟨hn, kraftSum_of_one (by rw [← hi.number, hn]; decide)⟩
      · have : space = 0 := by
          by_contra hs
          exact hc ⟨hn, hs⟩
        exact .inl ⟨this, by omega⟩
    have hk : kraftSum tab ≤ 32768 := by omega
    rw [canon_done (t := .metaAlpha) (s := { s with pos := p, table0 := tab, space := space, numCodes := num }) hk]
    exact ⟨p, tab, space, num, hi, hp, hor, by omega, h2, rfl⟩

/-! ### `CLDec` on an accepted stream -/

/-- Several lengths written. -/
def setLens (tab : List CodeEntry) (ps : List (Nat × CodeLen)) : List CodeEntry :=
  ps.foldl (fun tab p => setLen tab p.1 p.2) tab

@[simp] theorem setLens_length (tab : List CodeEntry) (ps : List (Nat × CodeLen)) :
    (setLens tab ps).length = tab.length := by
  induction ps generalizing tab with
  | nil => rfl
  | cons p ps ih =>
    have : setLens tab (p :: ps) = setLens (setLen tab p.1 p.2) ps := rfl
    rw [this, ih, setLen_length]

theorem setLens_code (tab : List CodeEntry) (ps : List (Nat × CodeLen)) (h : ∀ e ∈ tab, e.code = 0#16) :
    ∀ e ∈ setLens tab ps, e.code = 0#16 := by
  induction ps generalizing tab with
  | nil => exact h
  | cons p ps ih => exact ih _ (setLen_code _ _ _ h)

theorem lookup_eq_none_of_forall_ne {ps : List (Nat × CodeLen)} {j : Nat} (h : ∀ p ∈ ps, p.1 ≠ j) : ps.lookup j = none := by
  induction ps with
  | nil => rfl
  | cons p ps ih =>
    obtain ⟨k, v⟩ := p
    simp only [List.mem_cons, forall_eq_or_imp] at h
    have hk : (j == k) = false := by simpa using Ne.symm h.1
    rw [List.lookup_cons, hk]
    exact ih h.2

/-- Lengths written at different symbols are found there afterwards. -/
theorem setLens_len (tab : List CodeEntry) (ps : List (Nat × CodeLen)) (hnd : (ps.map Prod.fst).Nodup) (j : Nat)
    (h : j < (setLens tab ps).length) :
    (setLens tab ps)[j].len = (ps.lookup j).getD (tab[j]'(by simpa using h)).len := by
  induction ps generalizing tab with
  | nil => rfl
  | cons p ps ih =>
    obtain ⟨k, v⟩ := p
    simp only [List.map_cons, List.nodup_cons, List.mem_map, not_exists, not_and] at hnd
    have hd : setLens tab ((k, v) :: ps) = setLens (setLen tab k v) ps := rfl
    simp only [hd, List.lookup_cons]
    rw [ih _ hnd.2, setLen_getElem]
    by_cases hj : j = k
    · subst hj
      have : ps.lookup j = none := lookup_eq_none_of_forall_ne fun p hp => hnd.1 p hp
      simp [this]
    · have hk : (j == k) = false := by simpa using hj
      simp [hj, hk]

/-- The table of lengths the slots leave. -/
theorem setLens_clearTable (skip : Nat) (vals : List CodeLen) :
    setLens (clearTable Config.ncl) ((perm.drop skip).zip vals) = lensTable (clLens skip vals) := by
  rw [eq_lensTable_of_code_zero (setLens (clearTable Config.ncl) ((perm.drop skip).zip vals))
    (setLens_code _ _ (clearTable_code_zero _))]
  congr 1
  apply List.ext_getElem
  · simp [clLens]
  · intro j h1 h2
    have hnd : (((perm.drop skip).zip vals).map Prod.fst).Nodup := by
      have hsub : ∀ (ks : List Nat) (vs : List CodeLen), (ks.zip vs).map Prod.fst <+: ks := by
        intro ks
        induction ks with
        | nil => simp
        | cons k ks ih => intro vs; cases vs <;> simp [ih]
      exact List.Nodup.sublist (hsub _ _).sublist (perm_drop_nodup skip)
    rw [List.getElem_map, setLens_len _ _ hnd]
    simp [clLens, clearTable]

theorem clBits_pos (v : CodeLen) : 0 < (clBits v).length := by revert v; decide

theorem nonzeroCount_cons (v : CodeLen) (vs : List CodeLen) :
    nonzeroCount (v :: vs) = (if v = 0#4 then 0 else 1) + nonzeroCount vs := by
  by_cases h : v = 0#4 <;> simp [nonzeroCount, h, Nat.add_comm]

/-- One slot of an accepted stream. -/
theorem clSlot_done {sym : Nat} {s : State} {v : CodeLen} (hv : v.toNat ≤ 5) (h : Holds s s.pos.toNat (clBits v))
    (h4 : s.pos.toNat + 4 ≤ s.totalBits) :
    clSlot sym s = .done () { s with
      pos := BitVec.ofNat 64 (s.pos.toNat + (clBits v).length)
      table0 := setLen s.table0 sym v
      space := s.space - (lenCost 32 v : Int)
      numCodes := s.numCodes + BitVec.ofNat 5 (nonzeroCount [v]) } := by
  have hcl := clpfx_of_holds hv h h4
  rw [clSlot, peekBits_done h4, Ret.bind_done, hcl, advance_done h.1, Ret.bind_done]
  by_cases hz : v = 0#4
  · simp [hz, nonzeroCount, setPos]
  · simp [hz, nonzeroCount, setPos, lenCost]

/-- The loop of `CLDec` on the codes of the values of the slots, where they end the loop. -/
theorem clLoop_done {slots : List Nat} {vals : List CodeLen} {s : State} (hlen : vals.length ≤ slots.length)
    (hv : ∀ v ∈ vals, v.toNat ≤ 5) (h : Holds s s.pos.toNat (vals.flatMap clBits))
    (h4 : s.pos.toNat + (vals.dropLast.flatMap clBits).length + 4 ≤ s.totalBits) (hpos : 0 < s.space)
    (hend : s.space = lensCost 32 vals ∧ (lensCost 32 vals.dropLast : Int) < s.space ∨
      (lensCost 32 vals : Int) < s.space ∧ vals.length = slots.length) :
    clLoop slots s = .done () { s with
      pos := BitVec.ofNat 64 (s.pos.toNat + (vals.flatMap clBits).length)
      table0 := setLens s.table0 (slots.zip vals)
      space := s.space - (lensCost 32 vals : Int)
      numCodes := s.numCodes + BitVec.ofNat 5 (nonzeroCount vals) } := by
  induction vals generalizing slots s with
  | nil =>
    rcases hend with ⟨h1, h2⟩ | ⟨-, h2⟩
    · simp at h1 h2; omega
    · have : slots = [] := List.eq_nil_of_length_eq_zero h2.symm
      subst this
      simp [clLoop, setLens, nonzeroCount]
  | cons v vals ih =>
    cases slots with
    | nil => simp at hlen
    | cons sym slots =>
      simp only [List.mem_cons, forall_eq_or_imp] at hv
      simp only [List.flatMap_cons] at h
      have hh := h.append_left
      have ht := h.append_right
      have h40 : s.pos.toNat + 4 ≤ s.totalBits := by omega
      have hb := hh.1
      have hlt := s.totalBits_lt
      rw [clLoop, clSlot_done hv.1 hh h40, Ret.bind_done]
      have hp : (BitVec.ofNat 64 (s.pos.toNat + (clBits v).length)).toNat = s.pos.toNat + (clBits v).length := by
        rw [BitVec.toNat_ofNat]; exact Nat.mod_eq_of_lt (by omega)
      rw [lensCost_cons] at hend
      push_cast at hend
      have hnum : s.numCodes + BitVec.ofNat 5 (nonzeroCount [v]) + BitVec.ofNat 5 (nonzeroCount vals) =
          s.numCodes + BitVec.ofNat 5 (nonzeroCount (v :: vals)) := by
        have h1 : nonzeroCount (v :: vals) = nonzeroCount [v] + nonzeroCount vals := by
          rw [nonzeroCount_cons v vals, nonzeroCount_cons v []]
          rfl
        rw [h1, BitVec.ofNat_add, BitVec.add_assoc]
      by_cases hnil : vals = []
      · subst hnil
        have hs : slots = [] ∨ s.space = lenCost 32 v := by
          rcases hend with ⟨h1, -⟩ | ⟨-, h1⟩
          · right; simpa using h1
          · left; exact List.eq_nil_of_length_eq_zero (by simpa using h1.symm)
        have hgoal : ∀ (P : Prop) [Decidable P] (x : State), P ∨ slots = [] →
            (if P then Ret.done () x else clLoop slots x) = .done () x := by
          intro P _ x hP
          split
          · rfl
          next hn => rw [hP.resolve_left hn]; rfl
        rw [hgoal _ _ (hs.symm.imp (fun hs => by simp [hs]) id)]
        simp [setLens, lensCost_cons]
      · have hspace : 0 < s.space - (lenCost 32 v : Int) := by
          rcases hend with ⟨-, h2⟩ | ⟨h1, -⟩
          · rw [List.dropLast_cons_of_ne_nil hnil, lensCost_cons] at h2
            push_cast at h2
            have := Int.natCast_nonneg (lensCost 32 vals.dropLast)
            omega
          · have := Int.natCast_nonneg (lensCost 32 vals)
            omega
        refine (if_neg (Int.not_le.mpr hspace)).trans ?_
        rw [List.dropLast_cons_of_ne_nil hnil] at h4 hend
        simp only [List.flatMap_cons, List.length_append] at h4
        rw [ih (by simpa using hlen) hv.2 (by simp only [hp]; exact ht.congr rfl rfl rfl)
          (by simp only [hp, State.totalBits] at h4 ⊢; omega) hspace ?_]
        · simp only [hp, hnum, List.flatMap_cons, List.length_append, lensCost_cons]
          have e1 : s.space - (lenCost 32 v : Int) - (lensCost 32 vals : Int) =
              s.space - ((lenCost 32 v + lensCost 32 vals : Nat) : Int) := by push_cast; omega
          rw [e1, Nat.add_assoc]
          rfl
        · rcases hend with ⟨h1, h2⟩ | ⟨h1, h2⟩
          · rw [lensCost_cons] at h2
            push_cast at h2
            left
            constructor
            · simp only; omega
            · simp only; omega
          · right
            constructor
            · simp only; omega
            · simpa using h2

theorem lenCost_le (w : Nat) (v : CodeLen) : 2 * lenCost w v ≤ w := by
  by_cases h : v = 0#4
  · simp [h]
  · have h0 : v.toNat ≠ 0 := fun hc => h (BitVec.eq_of_toNat_eq (by simpa using hc))
    simp only [lenCost, h, if_false, Nat.shiftRight_eq_div_pow]
    obtain ⟨k, hk⟩ := Nat.exists_eq_succ_of_ne_zero h0
    rw [hk, Nat.pow_succ, ← Nat.div_div_eq_div_mul]
    have := Nat.div_le_self w (2 ^ k)
    omega

/-- Lengths of which one is nonzero cost at most half of the code space. -/
theorem lensCost_of_one (w : Nat) {vals : List CodeLen} (h : nonzeroCount vals ≤ 1) : 2 * lensCost w vals ≤ w := by
  have zero : ∀ vals : List CodeLen, nonzeroCount vals = 0 → lensCost w vals = 0 := by
    intro vals h
    induction vals with
    | nil => rfl
    | cons v vals ih =>
      rw [nonzeroCount_cons] at h
      by_cases hv : v = 0#4
      · rw [lensCost_cons, hv, lenCost_zero, ih (by omega)]
      · rw [if_neg hv] at h; omega
  induction vals with
  | nil => simp
  | cons v vals ih =>
    rw [nonzeroCount_cons] at h
    rw [lensCost_cons]
    by_cases hv : v = 0#4
    · rw [hv, lenCost_zero, Nat.zero_add]
      exact ih (by omega)
    · rw [if_neg hv] at h
      rw [zero vals (by omega)]
      have := lenCost_le w v
      omega

/-- `CLDec` on an accepted stream. -/
theorem clDec_done {s : State} {skip : Nat} {vals : List CodeLen} (ha : ClAccepted skip vals)
    (h : Holds s s.pos.toNat (clStream skip vals))
    (h4 : s.pos.toNat + (clStream skip vals.dropLast).length + 4 ≤ s.totalBits) :
    clDec s = .done () { s with
      pos := BitVec.ofNat 64 (s.pos.toNat + (clStream skip vals).length)
      table0 := canonTable (clLens skip vals)
      space := 32 - (lensCost 32 vals : Int)
      numCodes := BitVec.ofNat 5 (nonzeroCount vals) } := by
  obtain ⟨hskip, hv, hlen, hacc⟩ := ha
  simp only [clStream] at h h4
  have hf := h.append_left
  have ht := h.append_right
  simp only [fieldBits_length] at ht
  have hfb := hf.1
  simp only [fieldBits_length] at hfb
  have hlt := s.totalBits_lt
  have hread : readBits 2 (clStart s) = .done skip (setPos (s.pos.toNat + 2) (clStart s)) := by
    have hb : bits (clStart s) (clStart s).pos.toNat 2 = skip := by
      rw [bits_eq_of_buf (s := clStart s) (t := s) rfl rfl]
      exact bits_of_holds_fieldBits hf (by omega)
    rw [readBits_done (s := clStart s) hfb, hb]
    rfl
  have hp : (setPos (s.pos.toNat + 2) (clStart s)).pos.toNat = s.pos.toNat + 2 := setPos_pos_toNat (s := clStart s) hfb
  have hloop := clLoop_done (slots := perm.drop skip) (vals := vals) (s := setPos (s.pos.toNat + 2) (clStart s))
    (by simpa [perm] using hlen) hv (by rw [hp]; exact ht.congr rfl rfl rfl)
    (by
      simp only [List.length_append, fieldBits_length] at h4
      have ht : (setPos (s.pos.toNat + 2) (clStart s)).totalBits = s.totalBits := rfl
      rw [hp, ht]
      omega)
    (by simp [clStart, spaceCl])
    (by
      simp only [setPos_space, clStart, spaceCl]
      rcases hacc with ⟨h1, h2⟩ | ⟨h1, h2⟩
      · left; omega
      · right
        have := lensCost_of_one 32 (vals := vals) (by omega)
        refine ⟨by omega, by simpa [perm] using h2⟩)
  have hu : ClFrom (perm.drop skip) s (setPos (s.pos.toNat + 2) (clStart s)) :=
    ⟨_, _, _, _, rfl, fun _ => by
      rw [BitVec.toNat_ofNat]; exact Nat.le_trans (Nat.mod_le _ _) hfb,
      by simp [clStart, spaceCl], by simp [clStart, spaceCl], clInv_start _⟩
  have hmeets := clLoop_meets hu (by simp [clStart, spaceCl]) (perm_drop_nodup _) (perm_drop_lt _)
  rw [hloop] at hmeets
  obtain ⟨p, tab, space, num, hst, -, -, -, hi⟩ := hmeets
  have htab := congrArg State.table0 hst
  have hsp := congrArg State.space hst
  have hnum := congrArg State.numCodes hst
  simp only [setPos_table0, setPos_space, setPos_numCodes, clStart, spaceCl, BitVec.zero_add] at htab hsp hnum
  rw [clDec, hread, Ret.bind_done, hloop, Ret.bind_done, clCheck]
  simp only [setPos_table0, setPos_space, setPos_numCodes, clStart, spaceCl, BitVec.zero_add]
  rw [setLens_clearTable] at htab ⊢
  have hcount : ¬ (BitVec.ofNat 5 (nonzeroCount vals) ≠ 1#5 ∧ (32 - (lensCost 32 vals : Int) ≠ 0)) := by
    rintro ⟨h1, h2⟩
    rcases hacc with ⟨h3, -⟩ | ⟨h3, -⟩
    · omega
    · rw [h3] at h1; exact h1 rfl
  rw [if_neg hcount, Ret.bind_done, canon_done]
  · have hp' : (BitVec.ofNat 64 (s.pos.toNat + 2)).toNat = s.pos.toNat + 2 := hp
    simp only [State.setTable, State.table, lensTable_lens, List.length_append, fieldBits_length, clStream, setPos, hp',
      Nat.add_assoc]
  · simp only [State.table]
    have hcost := hi.cost
    rw [← htab, ← hsp] at hcost
    have : lensCost 32 vals ≤ 32 := by
      rcases hacc with ⟨h3, -⟩ | ⟨h3, -⟩
      · omega
      · have := lensCost_of_one 32 (vals := vals) (by omega)
        omega
    omega

end Sys2Proof.Machine
end

