-- ==== Sys2Proof/Laws/RunLengths.lean ====
section
/-! SUPPORT. What `LenDec` can do (44_symbol_alphabet.md), from any state and on an accepted stream. -/

namespace Sys2Proof.Machine

/-! ### Fills -/

theorem kraftTerm_le (l : CodeLen) : kraftTerm l ≤ 16384 := by revert l; decide

/-- Filling absent symbols with a length adds its share of the code space for each. -/
theorem kraftSum_fillLen (tab : List CodeEntry) (i c : Nat) (v : CodeLen) (h : i + c ≤ tab.length)
    (h0 : ∀ j, i ≤ j → (tab.getD j ⟨0#4, 0#16⟩).len = 0#4) :
    kraftSum (fillLen tab i c v) = kraftSum tab + c * kraftTerm v := by
  induction tab generalizing i c with
  | nil =>
    have : c = 0 := by simp at h; omega
    simp [this, fillLen]
  | cons e tab ih =>
    cases i with
    | zero =>
      cases c with
      | zero => simp
      | succ c =>
        have he : e.len = 0#4 := by simpa using h0 0 (Nat.le_refl _)
        have ht : kraftTerm e.len = 0 := by simp [he, kraftTerm]
        rw [fillLen, kraftSum_cons, kraftSum_cons, ih 0 c (by simp at h; omega) fun j _ => by simpa using h0 (j + 1) (by omega)]
        simp only [ht]
        ring
    | succ i =>
      rw [fillLen, kraftSum_cons, kraftSum_cons,
        ih i c (by simp at h; omega) fun j hj => by simpa using h0 (j + 1) (by omega)]
      omega

theorem fillLen_getD (tab : List CodeEntry) (i c : Nat) (v : CodeLen) (j : Nat) (d : CodeEntry) (h : i + c ≤ j) :
    (fillLen tab i c v).getD j d = tab.getD j d := by
  rw [List.getD_eq_getElem?_getD, List.getD_eq_getElem?_getD]
  rcases Nat.lt_or_ge j tab.length with hj | hj
  · have hj' : j < (fillLen tab i c v).length := by simpa using hj
    rw [List.getElem?_eq_getElem hj, List.getElem?_eq_getElem hj', fillLen_getElem, if_neg (by omega)]
  · rw [List.getElem?_eq_none hj, List.getElem?_eq_none (by simpa using hj)]

theorem kraftSum_le (tab : List CodeEntry) : kraftSum tab ≤ tab.length * 16384 := by
  induction tab with
  | nil => simp [kraftSum]
  | cons e tab ih =>
    have := kraftTerm_le e.len
    rw [kraftSum_cons, List.length_cons]
    omega

/-- The share of a nonzero length, as `Flush` computes it (44_symbol_alphabet.md R174). -/
theorem shift_eq_mul_kraftTerm (c : Nat) {v : CodeLen} (h : v ≠ 0#4) : c <<< (15 - v.toNat) = c * kraftTerm v := by
  simp [kraftTerm, h, Nat.shiftLeft_eq]

theorem kraftTerm_eq_shiftRight {v : CodeLen} (h : v ≠ 0#4) : kraftTerm v = 32768 >>> v.toNat := by
  rw [kraftTerm_eq_lenCost, lenCost, if_neg h]

/-! ### `LenDec` from any state -/

/-- What holds of table 1 and the working registers while `LenDec` runs over `n` symbols: the symbols from `SYMPOS` on
are absent, no code is written, `SPACE` is what the lengths leave of 32768, and `PREV_NZ` is a length. -/
structure LnInv (n : Nat) (tab : List CodeEntry) (space : Int) (sym : BitVec 17) (prev : CodeLen) (cmd : RepCmd)
    (count : Nat) : Prop where
  size   : tab.length = n
  codes  : ∀ e ∈ tab, e.code = 0#16
  bound  : sym.toNat ≤ n
  prevNz : prev ≠ 0#4
  absent : ∀ j, sym.toNat ≤ j → (tab.getD j ⟨0#4, 0#16⟩).len = 0#4
  cost   : (kraftSum tab : Int) = 32768 - space
  count3 : count = 0 ∨ 3 ≤ count
  noCmd  : cmd = .none → count = 0

/-- `SPACE` keeps the range of 10_state.md R26. -/
theorem LnInv.space_bounds {p : Params} {tab : List CodeEntry} {space : Int} {sym : BitVec 17} {prev : CodeLen}
    {cmd : RepCmd} {count : Nat} (h : LnInv p.nsym tab space sym prev cmd count) :
    -(2 ^ 30) < space ∧ space ≤ 32768 := by
  have h1 := kraftSum_le tab
  have h2 := h.cost
  have h3 : p.nsym ≤ 65536 := by have := p.topSym.isLt; simp only [Params.nsym]; omega
  rw [h.size] at h1
  omega

/-- The states `LENDEC` goes through, from `s`; `pending` says that a repeat command has its count. -/
def LnFrom (pending : Prop) (s t : State) : Prop :=
  ∃ p tab space sym prev cmd count,
    t = { s with
      pos := p, table1 := tab, space := space, symPos := sym, prevNz := prev, repCmd := cmd, repCount := count } ∧
    (CursorOk s → p.toNat ≤ s.totalBits) ∧ LnInv s.params.nsym tab space sym prev cmd count ∧
    (pending → cmd ≠ .none → count ≠ 0)

theorem LnFrom.weaken {P Q : Prop} {s t : State} (h : LnFrom P s t) (hPQ : Q → P) : LnFrom Q s t := by
  obtain ⟨p, tab, space, sym, prev, cmd, count, ht, hp, hi, hc⟩ := h
  exact ⟨p, tab, space, sym, prev, cmd, count, ht, hp, hi, fun q => hc (hPQ q)⟩

theorem nsym_le (p : Params) : p.nsym ≤ 65536 := by
  have := p.topSym.isLt
  simp only [Params.nsym]
  omega

theorem symPos_toNat_add {n : Nat} {p : Params} (h : n ≤ p.nsym) : (BitVec.ofNat 17 n).toNat = n := by
  have := nsym_le p
  rw [BitVec.toNat_ofNat]
  exact Nat.mod_eq_of_lt (by omega)

/-- `Flush`: it applies the pending repeat, or raises and leaves everything as it was (44_symbol_alphabet.md R174). -/
theorem flush_meets {s u : State} (h : LnFrom True s u) :
    (flush u).Meets
      (fun _ t => LnFrom True s t ∧ t.repCmd = .none ∧ t.repCount = 0 ∧ u.symPos.toNat ≤ t.symPos.toNat ∧ t.pos = u.pos)
      (fun k sub t => k = .lengthOverrun ∧ sub = .none ∧ t = u) := by
  obtain ⟨p, tab, space, sym, prev, cmd, count, rfl, hp, hi, hc⟩ := h
  simp only [flush, clearRepeat]
  split
  · exact ⟨⟨p, tab, space, sym, prev, .none, 0, rfl, hp,
      ⟨hi.size, hi.codes, hi.bound, hi.prevNz, hi.absent, hi.cost, .inl rfl, fun _ => rfl⟩, by simp⟩,
      rfl, rfl, Nat.le_refl _, rfl⟩
  next h0 =>
    split
    · exact ⟨rfl, rfl, rfl⟩
    next hle =>
      have hle : sym.toNat + count ≤ s.params.nsym := Nat.not_lt.mp hle
      have hs := symPos_toNat_add hle
      have hk := kraftSum_fillLen tab sym.toNat count (fillValue { s with
        pos := p, table1 := tab, space := space, symPos := sym, prevNz := prev, repCmd := cmd, repCount := count })
        (by rw [hi.size]; exact hle) hi.absent
      refine ⟨⟨p, _, _, _, prev, .none, 0, rfl, hp, ?_, by simp⟩, rfl, rfl, ?_, rfl⟩
      · refine ⟨by simp [hi.size], fillLen_code _ _ _ _ hi.codes, by rw [hs]; exact hle, hi.prevNz, ?_, ?_, .inl rfl,
          fun _ => rfl⟩
        · intro j hj
          rw [hs] at hj
          rw [fillLen_getD _ _ _ _ _ _ hj]
          exact hi.absent j (by omega)
        · rw [hk]
          have hcost := hi.cost
          cases cmd with
          | none => exact absurd (hi.noCmd rfl) h0
          | rep16 =>
            simp only [fillValue, if_true, reduceCtorEq, if_false]
            rw [shift_eq_mul_kraftTerm _ hi.prevNz]
            push_cast
            omega
          | rep17 =>
            simp only [fillValue, if_true, reduceCtorEq, if_false]
            simp [kraftTerm, hcost]
      · simp only [hs]
        omega

/-- A literal (44_symbol_alphabet.md R172). -/
theorem literal_meets {s u : State} (v : CodeLen) (h : LnFrom True s u) :
    (literal v u).Meets
      (fun _ t => LnFrom True s t ∧ u.symPos.toNat < t.symPos.toNat ∧ t.pos = u.pos)
      (fun k sub t => k = .lengthOverrun ∧ sub = .none ∧ LnFrom True s t) := by
  refine (flush_meets h).imp (fun _ _ h => h) ?_ |>.bind ?_
  · rintro k sub t ⟨rfl, rfl, rfl⟩
    exact ⟨rfl, rfl, h⟩
  rintro - t ⟨⟨p, tab, space, sym, prev, cmd, count, rfl, hp, hi, hc⟩, rfl, rfl, hle, hpos⟩
  split
  · exact ⟨rfl, rfl, p, tab, space, sym, prev, _, _, rfl, hp, hi, hc⟩
  next hlt =>
    have hlt : sym.toNat < s.params.nsym := Nat.not_le.mp hlt
    have hs : (BitVec.ofNat 17 (sym.toNat + 1)).toNat = sym.toNat + 1 := symPos_toNat_add (p := s.params) (by omega)
    have hk := kraftSum_setLen tab sym.toNat v (by rw [hi.size]; exact hlt) (hi.absent _ (Nat.le_refl _))
    have habs : ∀ j, (BitVec.ofNat 17 (sym.toNat + 1)).toNat ≤ j →
        ((setLen tab sym.toNat v).getD j ⟨0#4, 0#16⟩).len = 0#4 := by
      intro j hj
      rw [hs] at hj
      rw [setLen_getD _ _ _ _ _ (by omega)]
      exact hi.absent j (by omega)
    simp only at hle hpos
    have hcost := hi.cost
    simp only [assignLiteral]
    split
    next hv =>
      refine ⟨⟨p, _, _, _, v, _, _, rfl, hp, ?_, by simp⟩, by simp only [hs]; omega, hpos⟩
      refine ⟨by simp [hi.size], setLen_code _ _ _ hi.codes, by rw [hs]; omega, hv, habs, ?_, .inl rfl, fun _ => rfl⟩
      rw [hk, kraftTerm_eq_shiftRight hv]
      push_cast
      omega
    next hv =>
      have hv : v = 0#4 := not_not.mp hv
      refine ⟨⟨p, _, _, _, prev, _, _, rfl, hp, ?_, by simp⟩, by simp only [hs]; omega, hpos⟩
      refine ⟨by simp [hi.size], setLen_code _ _ _ hi.codes, by rw [hs]; omega, hi.prevNz, habs, ?_, .inl rfl, fun _ => rfl⟩
      rw [hk]
      simp [hv, kraftTerm, hcost]

theorem three_le_mergedCount (count step extra : Nat) : 3 ≤ mergedCount count step extra := by
  simp only [mergedCount, repBase]
  split
  · exact Nat.le_trans (Nat.le_add_left 3 extra) (Nat.le_add_left _ _)
  · exact Nat.le_add_left 3 extra

/-- A repeat command (44_symbol_alphabet.md R173). -/
theorem repeatCommand_meets {s u : State} (c : RepCmd) (hc : c ≠ .none) (h : LnFrom True s u) :
    (repeatCommand c u).Meets
      (fun _ t => LnFrom True s t ∧ u.symPos.toNat ≤ t.symPos.toNat ∧ u.pos.toNat < t.pos.toNat ∧
        t.pos.toNat ≤ s.totalBits)
      (fun k sub t => (k = .lengthOverrun ∨ k = .insufficientBits) ∧ sub = .none ∧
        LnFrom (k ≠ .insufficientBits) s t) := by
  have hfirst : (if u.repCmd ≠ c then flush u else .done () u).Meets
      (fun _ t => LnFrom True s t ∧ (t.repCmd = .none ∨ t.repCmd = c) ∧ u.symPos.toNat ≤ t.symPos.toNat ∧ t.pos = u.pos)
      (fun k sub t => (k = .lengthOverrun ∨ k = .insufficientBits) ∧ sub = .none ∧
        LnFrom (k ≠ .insufficientBits) s t) := by
    split
    · refine (flush_meets h).imp ?_ ?_
      · rintro - t ⟨h1, h2, -, h3, h4⟩
        exact ⟨h1, .inl h2, h3, h4⟩
      · rintro k sub t ⟨rfl, rfl, rfl⟩
        exact ⟨.inl rfl, rfl, h.weaken fun _ => trivial⟩
    next hcmd => exact ⟨h, .inr (not_not.mp hcmd), Nat.le_refl _, rfl⟩
  refine hfirst.bind ?_
  rintro - t ⟨⟨p, tab, space, sym, prev, cmd, count, rfl, hp, hi, -⟩, -, hsym, hpos⟩
  have hi' : LnInv s.params.nsym tab space sym prev c count :=
    ⟨hi.size, hi.codes, hi.bound, hi.prevNz, hi.absent, hi.cost, hi.count3, fun h => absurd h hc⟩
  refine ((readBits_meets c.extraBits _).imp (fun _ _ h => h) ?_).bind ?_
  · rintro k sub t ⟨rfl, rfl, rfl⟩
    exact ⟨.inr rfl, rfl, p, tab, space, sym, prev, c, count, rfl, hp, hi', by simp⟩
  rintro extra t ⟨-, hle, rfl⟩
  simp only at hsym hpos
  subst hpos
  have hle : u.pos.toNat + c.extraBits ≤ s.totalBits := hle
  have hlt := s.totalBits_lt
  have hp' : (BitVec.ofNat 64 (u.pos.toNat + c.extraBits)).toNat = u.pos.toNat + c.extraBits := by
    rw [BitVec.toNat_ofNat]; exact Nat.mod_eq_of_lt (by omega)
  have hx : 0 < c.extraBits := by cases c <;> first | exact absurd rfl hc | decide
  refine ⟨⟨_, tab, space, sym, prev, c, _, rfl, fun _ => by simp only [setPos, hp']; exact hle, ?_, ?_⟩, hsym, ?_, ?_⟩
  · exact ⟨hi.size, hi.codes, hi.bound, hi.prevNz, hi.absent, hi.cost, .inr (three_le_mergedCount _ _ _), fun h => absurd h hc⟩
  · exact fun _ _ => Nat.ne_of_gt (Nat.lt_of_lt_of_le (by decide) (three_le_mergedCount _ _ _))
  · simp only [setPos, hp']; omega
  · simp only [setPos, hp']; exact hle

/-- A bound on how long the loop of `LenDec` can go on. -/
def lenMeasure (s : State) : Nat := (s.params.nsym - s.symPos.toNat) + remaining s

/-- How `LENDEC` can raise. -/
def LnError (s : State) (k : ErrCode) (sub : SubCause) (t : State) : Prop :=
  (k = .lengthOverrun ∨ k = .corruptHistogram ∨ k = .insufficientBits ∨ k = .treeMismatch) ∧
    (sub ≠ .none ↔ k = .treeMismatch) ∧ LnFrom (k ≠ .insufficientBits) s t

theorem repCmdOf_ne (v : Symbol) : repCmdOf v ≠ .none := by
  simp only [repCmdOf]
  split <;> simp

theorem lenItem_meets {s u : State} (h : LnFrom True s u) (hsym : u.symPos.toNat < s.params.nsym) :
    (lenItem u).Meets (fun _ t => LnFrom True s t ∧ lenMeasure t < lenMeasure u) (LnError s) := by
  refine ((decodeSymbol_meets .metaAlpha u).imp (fun _ _ h => h) ?_).bind ?_
  · rintro k sub t ⟨hk, p, rfl, hp⟩
    obtain ⟨p0, tab, space, sym, prev, cmd, count, rfl, hp0, hi, hc⟩ := h
    refine ⟨?_, ?_, p, tab, space, sym, prev, cmd, count, rfl, fun hcs => ?_, hi, fun _ => hc trivial⟩
    · rcases hk with ⟨rfl, -⟩ | ⟨rfl, -⟩ <;> simp
    · rcases hk with ⟨rfl, h⟩ | ⟨rfl, rfl⟩ <;> simp_all
    · rcases hp with rfl | hp
      · exact hp0 hcs
      · exact hp
  rintro v t ⟨p, rfl, hle, hp, -⟩
  have ht : LnFrom True s { u with pos := p } := by
    obtain ⟨p0, tab, space, sym, prev, cmd, count, rfl, hp0, hi, hc⟩ := h
    refine ⟨p, tab, space, sym, prev, cmd, count, rfl, fun hcs => ?_, hi, hc⟩
    rcases hp with rfl | hp
    · exact hp0 hcs
    · exact hp
  have hfix : ∀ t, LnFrom True s t → t.params = s.params ∧ t.totalBits = s.totalBits := by
    rintro t ⟨p0, tab, space, sym, prev, cmd, count, rfl, -⟩
    exact ⟨rfl, rfl⟩
  have hu := hfix u h
  split
  · refine (literal_meets _ ht).imp ?_ ?_
    · rintro - t ⟨h1, h2, h3⟩
      refine ⟨h1, ?_⟩
      have hb : t.symPos.toNat ≤ s.params.nsym := by
        obtain ⟨p0, tab, space, sym, prev, cmd, count, rfl, -, hi, -⟩ := h1
        exact hi.bound
      simp only [lenMeasure, remaining, (hfix t h1).1, (hfix t h1).2, hu.1, hu.2, h3]
      simp only at h2
      omega
    · rintro k sub t ⟨rfl, rfl, h1⟩
      exact ⟨.inl rfl, by simp, h1.weaken fun _ => trivial⟩
  · refine (repeatCommand_meets _ (repCmdOf_ne v) ht).imp ?_ ?_
    · rintro - t ⟨h1, h2, h3, h4⟩
      refine ⟨h1, ?_⟩
      simp only [lenMeasure, remaining, (hfix t h1).1, (hfix t h1).2, hu.1, hu.2]
      simp only at h2 h3
      omega
    · rintro k sub t ⟨hk, rfl, h1⟩
      refine ⟨by tauto, ?_, h1⟩
      rcases hk with rfl | rfl <;> simp

theorem LnFrom.params {P : Prop} {s t : State} (h : LnFrom P s t) : t.params = s.params := by
  obtain ⟨p0, tab, space, sym, prev, cmd, count, rfl, -⟩ := h
  rfl

theorem lenLoop_meets {fuel : Nat} {s u : State} (h : LnFrom True s u) (hf : lenMeasure u < fuel) :
    (lenLoop fuel u).Meets (fun _ t => LnFrom True s t) (LnError s) := by
  induction fuel generalizing u with
  | zero => omega
  | succ fuel ih =>
    simp only [lenLoop]
    split
    next hm =>
      simp only [lenMore, Bool.and_eq_true, decide_eq_true_eq] at hm
      refine (lenItem_meets h (by rw [← h.params]; exact hm.2)).bind ?_
      rintro - t ⟨h1, h2⟩
      exact ih h1 (by omega)
    · exact h

theorem lenDangling_meets {s u : State} (h : LnFrom True s u) :
    (lenDangling u).Meets (fun _ t => LnFrom True s t) (LnError s) := by
  simp only [lenDangling]
  split
  · refine (flush_meets h).imp (fun _ t h => h.1) ?_
    rintro k sub t ⟨rfl, rfl, rfl⟩
    exact ⟨.inl rfl, by simp, h.weaken fun _ => trivial⟩
  · exact h

theorem lnFrom_start (s : State) : LnFrom True s (lenStart s) := by
  have h : ∀ e ∈ clearTable s.params.nsym, e = ⟨0#4, 0#16⟩ := fun e he => by simp [clearTable] at he; exact he.2
  refine ⟨s.pos, _, _, _, _, _, _, rfl, id, ⟨clearTable_length _, clearTable_code_zero _, by simp, by decide, ?_, ?_,
    .inl rfl, fun _ => rfl⟩, by simp⟩
  · intro j _
    rw [List.getD_eq_getElem?_getD]
    cases hg : (clearTable s.params.nsym)[j]? with
    | none => rfl
    | some e => rw [Option.getD_some, h e (List.mem_of_getElem? hg)]
  · rw [kraftSum_clearTable]; rfl

/-- Everything `LENDEC` can do: it returns with lengths that use up the code space exactly and their canonical codes
(44_symbol_alphabet.md R177), or raises one of four kinds with no code written. -/
theorem lenDec_meets (s : State) :
    (lenDec s).Meets
      (fun _ t => ∃ p tab sym prev cmd count, LnInv s.params.nsym tab 0 sym prev cmd count ∧
        (CursorOk s → p.toNat ≤ s.totalBits) ∧ kraftSum tab = 32768 ∧ (cmd ≠ .none → count ≠ 0) ∧
        t = { s with
          pos := p, table1 := canonTable (tab.map CodeEntry.len), space := 0, symPos := sym, prevNz := prev
          repCmd := cmd, repCount := count })
      (LnError s) := by
  have hmeasure : lenMeasure (lenStart s) < lenFuel s := by
    simp only [lenMeasure, lenFuel, lenStart, remaining, State.totalBits]
    omega
  refine (lenLoop_meets (lnFrom_start s) hmeasure).bind fun _ u hu => (lenDangling_meets hu).bind fun _ t ht => ?_
  obtain ⟨p, tab, space, sym, prev, cmd, count, rfl, hp, hi, hc⟩ := ht
  simp only [lenCheck]
  split
  · exact ⟨.inr (.inl rfl), by simp, p, tab, space, sym, prev, cmd, count, rfl, hp, hi, fun _ => hc trivial⟩
  next hz =>
    have hz : space = 0 := not_not.mp hz
    subst hz
    have hcost := hi.cost
    have hk : kraftSum tab = 32768 := by omega
    rw [Ret.bind_done, canon_done (t := .realAlpha) (by simp only [State.table]; omega)]
    exact ⟨p, tab, sym, prev, cmd, count, hi, hp, hk, hc trivial, rfl⟩

/-! ### `LenDec` on an accepted stream -/

/-- The state in which `LENDEC`, started in `s`, stands at stream bit `p` when its items have given `a`. -/
def accState (s : State) (p : Nat) (a : LenAcc) : State :=
  { s with
    pos := BitVec.ofNat 64 p
    table1 := lensTable (padLens s.params.nsym a.lens)
    space := 32768 - (lensCost 32768 a.lens : Int)
    symPos := BitVec.ofNat 17 a.lens.length
    prevNz := a.prev
    repCmd := a.cmd
    repCount := a.count }

/-- `PREV_NZ` is a length and no count stands without a command. -/
structure LenAcc.Ok (a : LenAcc) : Prop where
  prevNz : a.prev ≠ 0#4
  noCmd  : a.cmd = .none → a.count = 0

theorem LenAcc.ok_start : LenAcc.start.Ok := ⟨by decide, fun _ => rfl⟩

theorem LenAcc.Ok.flushed {a : LenAcc} (h : a.Ok) : a.flushed.Ok := ⟨h.prevNz, fun _ => rfl⟩

theorem LenAcc.Ok.repeated {a : LenAcc} (h : a.Ok) {c : RepCmd} (hc : c ≠ .none) (step extra : Nat) :
    (a.repeated c step extra).Ok := by
  simp only [LenAcc.repeated]
  split
  next hac => exact ⟨h.prevNz, fun h' => absurd (hac ▸ h') hc⟩
  · exact ⟨h.prevNz, fun h' => absurd h' hc⟩

theorem LenAcc.Ok.add {a : LenAcc} (h : a.Ok) (i : LenItem) : (a.add i).Ok := by
  cases i with
  | lit v =>
    refine ⟨?_, fun _ => rfl⟩
    simp only [LenAcc.add]
    split
    · exact h.prevNz
    next hv => exact hv
  | rep16 e => exact h.repeated (by simp) _ _
  | rep17 e => exact h.repeated (by simp) _ _

theorem lenRun_ok (items : List LenItem) : (lenRun items).Ok := by
  induction items using List.reverseRecOn with
  | nil => exact LenAcc.ok_start
  | append_singleton items i ih =>
    have : lenRun (items ++ [i]) = (lenRun items).add i := by simp [lenRun]
    rw [this]
    exact ih.add i

theorem LenAcc.length_flushed (a : LenAcc) : a.flushed.lens.length = a.lens.length + a.count := by simp [LenAcc.flushed]

theorem padLens_append (n : Nat) (as bs : List CodeLen) :
    padLens n (as ++ bs) = as ++ bs ++ List.replicate (n - as.length - bs.length) 0#4 := by
  simp only [padLens, List.length_append]
  congr 2
  omega

theorem accState_pos {s : State} {p : Nat} {a : LenAcc} (h : p ≤ s.totalBits) : (accState s p a).pos.toNat = p := by
  have := s.totalBits_lt
  simp only [accState, BitVec.toNat_ofNat]
  exact Nat.mod_eq_of_lt (by omega)

theorem setPos_accState {s : State} {p n : Nat} {a : LenAcc} (h : p ≤ s.totalBits) :
    setPos ((accState s p a).pos.toNat + n) (accState s p a) = accState s (p + n) a := by
  rw [accState_pos h]
  rfl

theorem holds_accState {s : State} {p q : Nat} {a : LenAcc} {bs : List Bool} : Holds (accState s q a) p bs ↔ Holds s p bs :=
  ⟨fun h => h.congr rfl rfl rfl, fun h => h.congr rfl rfl rfl⟩

theorem flush_accState {s : State} {p : Nat} {a : LenAcc} (ha : a.Ok) (h : a.flushed.lens.length ≤ s.params.nsym) :
    flush (accState s p a) = .done () (accState s p a.flushed) := by
  rw [LenAcc.length_flushed] at h
  have hsym : (accState s p a).symPos.toNat = a.lens.length := symPos_toNat_add (p := s.params) (by omega)
  simp only [flush]
  split
  next h0 =>
    have h0 : a.count = 0 := h0
    simp [clearRepeat, accState, LenAcc.flushed, h0]
  next h0 =>
    have h0 : a.count ≠ 0 := h0
    rw [hsym, if_neg (by simp only [accState]; omega)]
    simp only [clearRepeat, accState, LenAcc.flushed, fillValue, Ret.done.injEq, true_and]
    congr 1
    · have hs := shift_eq_mul_kraftTerm a.count ha.prevNz
      have hn : a.cmd ≠ .none := fun hc => h0 (ha.noCmd hc)
      rw [hs, kraftTerm_eq_lenCost, lensCost_append, lensCost_replicate]
      by_cases h16 : a.cmd = .rep16
      · have h17 : ¬ a.cmd = .rep17 := by rw [h16]; simp
        refine (if_pos h16).trans ?_
        rw [if_neg h17]
        push_cast
        omega
      · have h17 : a.cmd = .rep17 := by
          cases hc : a.cmd with
          | none => exact absurd hc hn
          | rep16 => exact absurd hc h16
          | rep17 => rfl
        refine (if_neg h16).trans ?_
        rw [if_pos h17]
        simp
    · simp
    · have h1 : padLens s.params.nsym a.lens =
          a.lens ++ List.replicate (a.count + (s.params.nsym - a.lens.length - a.count)) 0#4 := by
        simp only [padLens]
        congr 2
        omega
      rw [h1, fillLen_lensTable_append, padLens_append, List.length_replicate]
      rfl

theorem literal_accState {s : State} {p : Nat} {a : LenAcc} (v : CodeLen) (ha : a.Ok)
    (h : (a.add (.lit v)).lens.length ≤ s.params.nsym) :
    literal v (accState s p a) = .done () (accState s p (a.add (.lit v))) := by
  have h1 : a.flushed.lens.length + 1 ≤ s.params.nsym := by simpa [LenAcc.add] using h
  have hsym : (accState s p a.flushed).symPos.toNat = a.flushed.lens.length :=
    symPos_toNat_add (p := s.params) (by omega)
  rw [literal, flush_accState ha (by omega), Ret.bind_done, hsym, if_neg (by simp only [accState]; omega)]
  simp only [assignLiteral, hsym]
  have htab : setLen (accState s p a.flushed).table1 a.flushed.lens.length v =
      lensTable (padLens s.params.nsym (a.flushed.lens ++ [v])) := by
    have h2 : padLens s.params.nsym a.flushed.lens =
        a.flushed.lens ++ 0#4 :: List.replicate (s.params.nsym - a.flushed.lens.length - 1) 0#4 := by
      simp only [padLens]
      rw [← List.replicate_succ]
      congr 2
      omega
    simp only [accState, h2]
    rw [setLen_lensTable_append, padLens_append]
    simp
  rw [htab]
  by_cases hv : v = 0#4
  · simp only [hv, ne_eq, not_true_eq_false, if_false, if_true, accState, LenAcc.add, LenAcc.flushed, lensCost_append,
      List.length_append, lensCost_cons, lenCost_zero, lensCost_nil, List.length_cons, List.length_nil,
      Nat.add_zero, Nat.zero_add]
  · simp only [hv, ne_eq, not_false_eq_true, if_false, if_true, accState, LenAcc.add, LenAcc.flushed, lensCost_append,
      List.length_append, lensCost_cons, lensCost_nil, List.length_cons, List.length_nil, lenCost,
      Nat.add_zero, Nat.zero_add, Ret.done.injEq, true_and]
    congr 1
    push_cast
    omega

theorem repeatCommand_accState {s : State} {p : Nat} {a : LenAcc} {c : RepCmd} {step extra : Nat} (ha : a.Ok)
    (hstep : c.extraBits = step) (hx : extra < 2 ^ step) (hh : Holds s p (fieldBits extra step))
    (h : (a.repeated c step extra).lens.length ≤ s.params.nsym) :
    repeatCommand c (accState s p a) = .done () (accState s (p + step) (a.repeated c step extra)) := by
  have hle := hh.1
  rw [fieldBits_length] at hle
  have hread : ∀ b : LenAcc, readBits step (accState s p b) = .done extra (accState s (p + step) b) := by
    intro b
    have hp : (accState s p b).pos.toNat = p := accState_pos (by omega)
    rw [readBits_done (by rw [hp]; exact hle), setPos_accState (by omega), hp]
    congr 1
    exact bits_of_holds_fieldBits (holds_accState.mpr hh) hx
  have hcmd : (accState s p a).repCmd = a.cmd := rfl
  simp only [repeatCommand, hcmd]
  by_cases hac : a.cmd = c
  · have hb : ({ accState s p a with repCmd := c } : State) = accState s p a := by rw [← hac]; rfl
    simp only [hac, ne_eq, not_true_eq_false, if_false, Ret.bind_done, hb, hstep, hread]
    simp only [LenAcc.repeated, hac, if_true, accState, mergedCount, repBase, Ret.done.injEq, true_and]
    congr 1
    split
    · rfl
    next h0 =>
      have : a.count = 0 := not_not.mp h0
      simp [this]
  · have hfl : a.flushed.lens.length ≤ s.params.nsym := by simpa [LenAcc.repeated, hac] using h
    have hb : ({ accState s p a.flushed with repCmd := c } : State) = accState s p { a.flushed with cmd := c } := rfl
    simp only [hac, ne_eq, not_false_eq_true, if_true, flush_accState ha hfl, Ret.bind_done, hb, hstep, hread]
    simp [LenAcc.repeated, hac, accState, mergedCount, repBase, LenAcc.flushed]

/-- `DecodeSymbol` on bits that stand in the stream and lead to a Leaf. -/
theorem decodeSymbol_done {a : Alphabet} {s : State} {path : List Bool} {y : Symbol} (h : Holds s s.pos.toNat path)
    (hf : (s.tree a).follow path = some (.leaf y)) :
    decodeSymbol a s = .done y (setPos (s.pos.toNat + path.length) s) := by
  rw [decodeSymbol, walk_follow h hf, walk]

/-- One item. -/
theorem lenItem_accState {s : State} {p : Nat} {a : LenAcc} {i : LenItem} {path : List Bool} (ha : a.Ok)
    (hf : s.tree0.follow path = some (.leaf i.sym)) (hh : Holds s p (path ++ i.extra))
    (h : (a.add i).lens.length ≤ s.params.nsym) :
    lenItem (accState s p a) = .done () (accState s (p + (path ++ i.extra).length) (a.add i)) := by
  have hp := hh.append_left
  have hx := hh.append_right
  have hple := hp.1
  have hpos : (accState s p a).pos.toNat = p := accState_pos (by omega)
  rw [lenItem, decodeSymbol_done (a := .metaAlpha) (s := accState s p a) (path := path) (y := i.sym) (by rw [hpos]; exact holds_accState.mpr hp) hf,
    setPos_accState (by omega), Ret.bind_done]
  cases i with
  | lit v =>
    have hlt : (v.setWidth 16).toNat < 16 := by
      rw [BitVec.toNat_setWidth]
      exact Nat.lt_of_le_of_lt (Nat.mod_le _ _) v.isLt
    have hw : (v.setWidth 16).setWidth 4 = v := by
      apply BitVec.eq_of_toNat_eq
      simp only [BitVec.toNat_setWidth]
      have := v.isLt
      omega
    simp only [LenItem.sym, hlt, if_true, hw, LenItem.extra, List.append_nil]
    exact literal_accState v ha h
  | rep16 e =>
    refine (if_neg (show ¬ (16#16).toNat < 16 by decide)).trans ?_
    simp only [LenItem.extra, List.length_append, fieldBits_length]
    rw [← Nat.add_assoc]
    exact repeatCommand_accState ha rfl e.isLt hx h
  | rep17 e =>
    refine (if_neg (show ¬ (17#16).toNat < 16 by decide)).trans ?_
    simp only [LenItem.extra, List.length_append, fieldBits_length]
    rw [← Nat.add_assoc]
    exact repeatCommand_accState ha rfl e.isLt hx h

theorem lenMore_accState {s : State} {p : Nat} {a : LenAcc} (hp : p ≤ s.totalBits) (ha : a.lens.length ≤ s.params.nsym) :
    lenMore (accState s p a) = true ↔
      p ≠ s.totalBits ∧ lensCost 32768 a.lens < 32768 ∧ a.lens.length < s.params.nsym := by
  have hsym : (accState s p a).symPos.toNat = a.lens.length := symPos_toNat_add ha
  have hx : exhausted (accState s p a) = decide (p = s.totalBits) := by
    rw [exhausted, accState_pos hp]; rfl
  simp only [lenMore, hsym, hx, Bool.and_eq_true, Bool.not_eq_true', decide_eq_false_iff_not, decide_eq_true_eq, and_assoc]
  simp only [accState]
  constructor <;> rintro ⟨h1, h2, h3⟩ <;> refine ⟨h1, ?_, h3⟩ <;> omega

/-- The loop of `LenDec` on items that each leave it open, followed by its end. -/
theorem lenLoop_accState {s : State} {path : Symbol → List Bool} {items : List LenItem} {fuel p : Nat} {a : LenAcc}
    (ha : a.Ok) (hf : items.length < fuel)
    (hleaf : ∀ i ∈ items, path i.sym ≠ [] ∧ s.tree0.follow (path i.sym) = some (.leaf i.sym))
    (hh : Holds s p (lenStream path items))
    (hopen : ∀ k, k < items.length →
      lensCost 32768 ((items.take k).foldl LenAcc.add a).lens < 32768 ∧
        ((items.take k).foldl LenAcc.add a).lens.length < s.params.nsym)
    (hfit : (items.foldl LenAcc.add a).lens.length ≤ s.params.nsym)
    (hstop : p + (lenStream path items).length = s.totalBits ∨
      32768 ≤ lensCost 32768 (items.foldl LenAcc.add a).lens) :
    lenLoop fuel (accState s p a) =
      .done () (accState s (p + (lenStream path items).length) (items.foldl LenAcc.add a)) := by
  induction items generalizing fuel p a with
  | nil =>
    obtain ⟨fuel, rfl⟩ := Nat.exists_eq_succ_of_ne_zero (show fuel ≠ 0 by simp at hf; omega)
    have hp : p ≤ s.totalBits := by simpa [lenStream] using hh.1
    have hm : ¬ lenMore (accState s p a) = true := by
      rw [lenMore_accState hp (by simpa using hfit)]
      rintro ⟨h1, h2, -⟩
      rcases hstop with h | h
      · exact h1 (by simpa [lenStream] using h)
      · simp at h; omega
    simp [lenLoop, hm, lenStream]
  | cons i items ih =>
    obtain ⟨fuel, rfl⟩ := Nat.exists_eq_succ_of_ne_zero (show fuel ≠ 0 by simp at hf; omega)
    simp only [List.mem_cons, forall_eq_or_imp] at hleaf
    have hcons : lenStream path (i :: items) = (path i.sym ++ i.extra) ++ lenStream path items := by simp [lenStream]
    rw [hcons] at hh hstop ⊢
    have hhd := hh.append_left
    have htl := hh.append_right
    have hble := hhd.1
    have hne : 0 < (path i.sym).length := List.length_pos_iff.mpr hleaf.1.1
    simp only [List.length_append] at hble
    have h0 := hopen 0 (by simp)
    simp only [List.take_zero, List.foldl_nil] at h0
    have hm : lenMore (accState s p a) = true := by
      rw [lenMore_accState (by omega) (by omega)]
      exact ⟨by omega, h0.1, h0.2⟩
    have hadd : (a.add i).lens.length ≤ s.params.nsym := by
      cases items with
      | nil => exact hfit
      | cons j items => exact Nat.le_of_lt (hopen 1 (by simp)).2
    rw [lenLoop, if_pos hm, lenItem_accState ha hleaf.1.2 hhd hadd, Ret.bind_done,
      ih (ha.add i) (by simpa using hf) hleaf.2 htl (fun k hk => by simpa using hopen (k + 1) (by simpa using hk))
        (by simpa using hfit) (by
          rw [List.length_append] at hstop
          simpa only [← Nat.add_assoc, List.foldl_cons] using hstop)]
    rw [List.length_append (as := path i.sym ++ i.extra), ← Nat.add_assoc]
    rfl

theorem lenStart_eq_accState (s : State) : lenStart s = accState s s.pos.toNat LenAcc.start := by
  simp [lenStart, accState, LenAcc.start, padLens, clearTable_eq_lensTable, spaceSym]

/-- `LenDec` on an accepted stream. -/
theorem lenDec_done {s : State} {path : Symbol → List Bool} {dangling : Bool} {items : List LenItem}
    (ha : LenAccepted s.params dangling items)
    (hleaf : ∀ i ∈ items, path i.sym ≠ [] ∧ s.tree0.follow (path i.sym) = some (.leaf i.sym))
    (hh : Holds s s.pos.toNat (lenStream path items))
    (hd : dangling = true → s.pos.toNat + (lenStream path items).length = s.totalBits) :
    lenDec s = .done () { s with
      pos := BitVec.ofNat 64 (s.pos.toNat + (lenStream path items).length)
      table1 := canonTable (padLens s.params.nsym (lenFinal dangling items).lens)
      space := 0
      symPos := BitVec.ofNat 17 (lenFinal dangling items).lens.length
      prevNz := (lenFinal dangling items).prev
      repCmd := (lenFinal dangling items).cmd
      repCount := (lenFinal dangling items).count } := by
  obtain ⟨hopen, hdang, hlen, hcost⟩ := ha
  have hok := lenRun_ok items
  have hfit : (lenRun items).lens.length ≤ s.params.nsym := by
    cases dangling with
    | false => exact hlen
    | true => exact Nat.le_of_lt (hdang rfl).2.2
  have hle := hh.1
  have hitems : items.length ≤ (lenStream path items).length := by
    clear hd hh hopen hdang hlen hcost hok hfit hle
    induction items with
    | nil => simp
    | cons i items ih =>
      simp only [List.mem_cons, forall_eq_or_imp] at hleaf
      have hne : 0 < (path i.sym).length := List.length_pos_iff.mpr hleaf.1.1
      have := ih hleaf.2
      simp only [lenStream, List.flatMap_cons, List.length_append, List.length_cons] at this ⊢
      omega
  have hstop : s.pos.toNat + (lenStream path items).length = s.totalBits ∨
      32768 ≤ lensCost 32768 (items.foldl LenAcc.add LenAcc.start).lens := by
    cases dangling with
    | false => exact .inr (Nat.le_of_eq hcost.symm)
    | true => exact .inl (hd rfl)
  have hloop := lenLoop_accState (fuel := lenFuel s) LenAcc.ok_start
    (by simp only [lenFuel, remaining]; omega) hleaf hh hopen hfit hstop
  have hdone : lenDangling (accState s (s.pos.toNat + (lenStream path items).length) (lenRun items)) =
      .done () (accState s (s.pos.toNat + (lenStream path items).length) (lenFinal dangling items)) := by
    have hx : exhausted (accState s (s.pos.toNat + (lenStream path items).length) (lenRun items)) =
        decide (s.pos.toNat + (lenStream path items).length = s.totalBits) := by
      rw [exhausted, accState_pos hle]; rfl
    have hsym : (accState s (s.pos.toNat + (lenStream path items).length) (lenRun items)).symPos.toNat =
        (lenRun items).lens.length := symPos_toNat_add hfit
    simp only [lenDangling, hx, hsym]
    cases dangling with
    | false =>
      have h0 : lensCost 32768 (lenRun items).lens = 32768 := hcost
      rw [if_neg]
      · rfl
      · rintro ⟨-, -, h1, -⟩
        simp only [accState, h0] at h1
        omega
    | true =>
      obtain ⟨h1, h2, h3⟩ := hdang rfl
      rw [if_pos, flush_accState hok hlen]
      · rfl
      · refine ⟨h1, decide_eq_true (hd rfl), ?_, h3⟩
        simp only [accState]
        omega
  have hspace : (32768 : Int) - (lensCost 32768 (lenFinal dangling items).lens : Int) = 0 := by omega
  rw [lenDec, lenStart_eq_accState, hloop, Ret.bind_done]
  have hrun : items.foldl LenAcc.add LenAcc.start = lenRun items := rfl
  rw [hrun, hdone, Ret.bind_done, lenCheck, if_neg (by simp only [accState, hspace]; simp), Ret.bind_done, canon_done]
  · simp only [State.setTable, State.table, accState, lensTable_lens, hspace]
  · simp only [State.table, accState]
    rw [kraftSum_eq_lensCost, lensTable_lens, padLens, lensCost_append, lensCost_replicate, lenCost_zero, hcost]
    simp

end Sys2Proof.Machine
end

