-- ==== Sys2Proof/Laws/Session.lean ====
section
/-! SUPPORT. What `StrDec` and `Run` can do (45_stream_session.md), and what a command's body does not look at. -/

namespace Sys2Proof.Machine

/-! ### Symbols of a tree -/

/-- What a walk returns is the symbol of a Leaf of its tree. -/
theorem walk_leaf (start : Reg64) (node : Node) (s : State) :
    ∀ y t, walk start node s = .done y t → ∃ path, node.follow path = some (.leaf y) := by
  induction node generalizing s with
  | empty => intro y t h; simp [walk] at h
  | leaf z =>
    intro y t h
    simp only [walk, Ret.done.injEq] at h
    exact ⟨[], by rw [Node.follow_nil, h.1]⟩
  | internal l r ihl ihr =>
    intro y t h
    simp only [walk] at h
    split at h
    · simp at h
    · obtain ⟨b, u, -, h⟩ := Ret.bind_eq_done.mp h
      split at h
      · obtain ⟨path, hp⟩ := ihl u y t h
        exact ⟨false :: path, by simpa using hp⟩
      · obtain ⟨path, hp⟩ := ihr u y t h
        exact ⟨true :: path, by simpa using hp⟩

/-- In a tree of depth at most `d`, every path is at most `d` long, and the symbols are below `n`. -/
theorem Node.inner_follow {d n : Nat} {node node' : Node} {path : List Bool} (h : node.inner d n = true)
    (hf : node.follow path = some node') : path.length ≤ d ∧ ∀ y, node' = .leaf y → y.toNat < n := by
  induction path generalizing node d with
  | nil =>
    simp only [Node.follow_nil, Option.some.injEq] at hf
    subst hf
    refine ⟨Nat.zero_le _, ?_⟩
    rintro y rfl
    simpa [Node.inner] using h
  | cons b path ih =>
    cases node with
    | empty => simp at hf
    | leaf y => simp at hf
    | internal l r =>
      cases d with
      | zero => simp [Node.inner] at h
      | succ d =>
        simp only [Node.inner, Bool.and_eq_true] at h
        rw [Node.follow_internal_cons] at hf
        cases b with
        | false =>
          obtain ⟨h1, h2⟩ := ih h.1.2 hf
          exact ⟨by simpa using h1, h2⟩
        | true =>
          obtain ⟨h1, h2⟩ := ih h.2 hf
          exact ⟨by simpa using h1, h2⟩

theorem Node.wf_symbol {n : Nat} {node : Node} {path : List Bool} {y : Symbol} (h : node.wf n = true)
    (hf : node.follow path = some (.leaf y)) : y.toNat < n := by
  simp only [Node.wf, Bool.and_eq_true] at h
  exact (Node.inner_follow h.2 hf).2 y rfl

theorem Node.wf_not_leaf {n : Nat} {node : Node} (h : node.wf n = true) : node.isLeaf = false := by
  simp only [Node.wf, Bool.and_eq_true, Bool.not_eq_true'] at h
  exact h.1

/-! ### `StrDec` from any state -/

/-- The states in which `STRDEC`, started in `u`, can return after the loop, `m - n` symbols having been appended. -/
def StrFrom (u : State) (n m : Nat) (t : State) : Prop :=
  ∃ p ys e, t = { u with out := u.out ++ ys, pos := p, ending := e } ∧ m = n + ys.length ∧
    (CursorOk u → p.toNat ≤ u.totalBits) ∧ ∀ y ∈ ys, ∃ path, u.tree1.follow path = some (.leaf y)

theorem StrFrom.cons {u t : State} {p : Reg64} {y : Symbol} {n m : Nat} {path : List Bool}
    (hp : CursorOk u → p.toNat ≤ u.totalBits) (hy : u.tree1.follow path = some (.leaf y))
    (h : StrFrom { u with pos := p, out := u.out ++ [y] } (n + 1) m t) : StrFrom u n m t := by
  obtain ⟨q, ys, e, rfl, rfl, hq, hys⟩ := h
  refine ⟨q, y :: ys, e, by simp, by simp only [List.length_cons]; omega, fun hc => hq (hp hc), ?_⟩
  intro z hz
  rcases List.mem_cons.mp hz with rfl | hz
  · exact ⟨path, hy⟩
  · exact hys z hz

/-- The loop of `StrDec`: if it ends it returns, having appended symbols of the tree; with a symbol for each bit that
remains, from a tree that is not a bare Leaf, it ends. -/
theorem strLoop_cases (fuel n : Nat) (u : State) :
    (strLoop fuel n u = .stuck ∧ (u.tree1.isLeaf = false → fuel ≤ remaining u)) ∨
      ∃ m t, strLoop fuel n u = .done m t ∧ StrFrom u n m t := by
  induction fuel generalizing n u with
  | zero => exact .inl ⟨rfl, fun _ => Nat.zero_le _⟩
  | succ fuel ih =>
    simp only [strLoop]
    split
    · exact .inr ⟨n, u, rfl, u.pos, [], u.ending, by simp, by simp, id, by simp⟩
    · have hm := decodeSymbol_meets .realAlpha u
      cases hd : decodeSymbol .realAlpha u with
      | done y t =>
        rw [hd] at hm
        obtain ⟨p, rfl, -, hp, hlt⟩ := hm
        obtain ⟨path, hpath⟩ := walk_leaf _ _ _ _ _ hd
        have hle : CursorOk u → p.toNat ≤ u.totalBits := by
          intro hc
          rcases hp with rfl | hp
          · exact hc
          · exact hp
        rcases ih (n + 1) { u with pos := p, out := u.out ++ [y] } with ⟨h1, h2⟩ | ⟨m, t, h1, h2⟩
        · refine .inl ⟨h1, fun htree => ?_⟩
          obtain ⟨hlt1, hlt2⟩ := hlt htree
          have := h2 htree
          simp only [remaining, State.totalBits] at this ⊢ hlt2
          omega
        · exact .inr ⟨m, t, h1, h2.cons hle hpath⟩
      | raised k sub t =>
        rw [hd] at hm
        obtain ⟨-, p, rfl, hp⟩ := hm
        refine .inr ⟨n, _, rfl, p, [], sub, by simp, by simp, fun hc => ?_, by simp⟩
        rcases hp with rfl | hp
        · exact hc
        · exact hp
      | stuck => rw [hd] at hm; exact hm.elim

/-- Everything `StrDec` can do: it never raises; if it ends it returns, and from a tree that is not a bare Leaf it
ends (45_stream_session.md R190). -/
theorem strDec_cases (s : State) :
    (strDec s = .stuck ∧ s.tree1.isLeaf = true) ∨
      (strDec s).Meets
        (fun _ t => ∃ p ys e,
          t = { s with out := s.out ++ ys, res := BitVec.ofNat 64 ys.length, pos := p, ending := e } ∧
          (CursorOk s → p.toNat ≤ s.totalBits) ∧ ∀ y ∈ ys, ∃ path, s.tree1.follow path = some (.leaf y))
        (fun _ _ _ => False) := by
  rcases strLoop_cases (remaining s + 1) 0 { s with ending := .none } with ⟨h1, h2⟩ | ⟨m, t, h1, p, ys, e, rfl, rfl, hp, hys⟩
  · refine .inl ⟨by rw [strDec, h1, Ret.bind_stuck], ?_⟩
    by_contra hc
    have := h2 (by simpa using hc)
    simp only [remaining, State.totalBits] at this
    omega
  · right
    rw [strDec, h1, Ret.bind_done]
    exact ⟨p, ys, e, by simp, hp, hys⟩

/-- Everything `StrDec` can do from a tree that is not a bare Leaf: it returns. -/
theorem strDec_meets {s : State} (htree : s.tree1.isLeaf = false) :
    (strDec s).Meets
      (fun _ t => ∃ p ys e,
        t = { s with out := s.out ++ ys, res := BitVec.ofNat 64 ys.length, pos := p, ending := e } ∧
        (CursorOk s → p.toNat ≤ s.totalBits) ∧ ∀ y ∈ ys, ∃ path, s.tree1.follow path = some (.leaf y))
      (fun _ _ _ => False) := by
  rcases strDec_cases s with ⟨-, h⟩ | h
  · simp [h] at htree
  · exact h

/-! ### `StrDec` on a stream of codes -/

theorem symStream_cons (path : Symbol → List Bool) (y : Symbol) (ys : List Symbol) :
    symStream path (y :: ys) = path y ++ symStream path ys := by simp [symStream]

theorem length_le_symStream {path : Symbol → List Bool} {ys : List Symbol} (h : ∀ y ∈ ys, path y ≠ []) :
    ys.length ≤ (symStream path ys).length := by
  induction ys with
  | nil => simp
  | cons y ys ih =>
    simp only [List.mem_cons, forall_eq_or_imp] at h
    have := ih h.2
    have := List.length_pos_iff.mpr h.1
    rw [symStream_cons, List.length_append, List.length_cons]
    omega

/-- The loop of `StrDec` on the codes of symbols and one of the ends of part 4. -/
theorem strLoop_done {path : Symbol → List Bool} {ys : List Symbol} {tail : List Bool} {e : SubCause} {fuel n : Nat}
    {u : State} (hf : ys.length < fuel) (hend : u.ending = .none)
    (hleaf : ∀ y ∈ ys, path y ≠ [] ∧ u.tree1.follow (path y) = some (.leaf y))
    (hh : Holds u u.pos.toNat (symStream path ys ++ tail))
    (hs : StreamEnds u u.tree1 (u.pos.toNat + (symStream path ys).length) tail e) :
    strLoop fuel n u = .done (n + ys.length) { u with
      out := u.out ++ ys
      pos := BitVec.ofNat 64 (streamEndPos u (u.pos.toNat + (symStream path ys).length) tail e)
      ending := e } := by
  induction ys generalizing fuel n u with
  | nil =>
    obtain ⟨fuel, rfl⟩ := Nat.exists_eq_succ_of_ne_zero (show fuel ≠ 0 by simp at hf; omega)
    simp only [symStream, List.flatMap_nil, List.nil_append, List.length_nil, Nat.add_zero, List.append_nil] at hh hs ⊢
    cases e with
    | none =>
      have hx : exhausted u = true := (exhausted_iff u).mpr hs.2
      simp only [strLoop, hx, if_true, streamEndPos, BitVec.ofNat_toNat, BitVec.setWidth_eq]
      rw [← hend]
    | exhaustion =>
      obtain ⟨hne, hlen, l, r, hfol⟩ := hs
      have hpos := List.length_pos_iff.mpr hne
      have hx : ¬ exhausted u = true := fun h => by rw [exhausted_iff] at h; omega
      have hx' : exhausted (setPos (u.pos.toNat + tail.length) u) = true := by
        rw [exhausted_iff, setPos_pos_toNat (by omega), setPos_totalBits, hlen]
      have hd : decodeSymbol .realAlpha u = .raised .treeMismatch .exhaustion u := by
        rw [decodeSymbol, State.tree, walk_follow hh hfol, walk, if_pos hx']
        rfl
      simp only [strLoop, hx, if_false, hd, streamEndPos, BitVec.ofNat_toNat, BitVec.setWidth_eq, Bool.false_eq_true]
    | emptyNode =>
      obtain ⟨hlt, hfol⟩ := hs
      have hx : ¬ exhausted u = true := fun h => by rw [exhausted_iff] at h; omega
      have hd : decodeSymbol .realAlpha u = .raised .treeMismatch .emptyNode
          { u with pos := BitVec.ofNat 64 (streamEndPos u u.pos.toNat tail .emptyNode) } := by
        rw [decodeSymbol, State.tree, walk_follow hh hfol, walk]
        simp only [setPos_params, streamEndPos]
        by_cases hr : u.params.emptyRollback = true
        · simp [hr, setPos]
        · simp [hr, setPos]
      simp only [strLoop, hx, if_false, hd, Bool.false_eq_true]
  | cons y ys ih =>
    obtain ⟨fuel, rfl⟩ := Nat.exists_eq_succ_of_ne_zero (show fuel ≠ 0 by simp at hf; omega)
    simp only [List.mem_cons, forall_eq_or_imp] at hleaf
    rw [symStream_cons, List.append_assoc] at hh
    have hhd := hh.append_left
    have htl := hh.append_right
    have hble := hhd.1
    have hpos := List.length_pos_iff.mpr hleaf.1.1
    have hlt := u.totalBits_lt
    have hx : ¬ exhausted u = true := fun h => by rw [exhausted_iff] at h; omega
    have hp : (setPos (u.pos.toNat + (path y).length) u).pos.toNat = u.pos.toNat + (path y).length := setPos_pos_toNat hble
    have hd : decodeSymbol .realAlpha u = .done y (setPos (u.pos.toNat + (path y).length) u) :=
      decodeSymbol_done hhd hleaf.1.2
    have hadd : u.pos.toNat + (symStream path (y :: ys)).length =
        u.pos.toNat + (path y).length + (symStream path ys).length := by
      rw [symStream_cons, List.length_append]; omega
    rw [hadd] at hs ⊢
    simp only [strLoop, hx, if_false, hd, Bool.false_eq_true]
    have hp' : ({ u with
        pos := BitVec.ofNat 64 (u.pos.toNat + (path y).length), out := u.out ++ [y] } : State).pos.toNat =
        u.pos.toNat + (path y).length := hp
    refine (ih (fuel := fuel) (n := n + 1) (u := { u with
        pos := BitVec.ofNat 64 (u.pos.toNat + (path y).length), out := u.out ++ [y] }) (by simpa using hf) hend hleaf.2
      (by rw [hp']; exact htl.congr rfl rfl rfl) (by rw [hp']; cases e <;> exact hs)).trans ?_
    have hn : n + 1 + ys.length = n + (y :: ys).length := by simp only [List.length_cons]; omega
    rw [hp', hn]
    simp only [List.append_assoc, List.singleton_append]
    cases e <;> rfl

/-- `StrDec` on a stream of codes. -/
theorem strDec_done {s : State} {path : Symbol → List Bool} {ys : List Symbol} {tail : List Bool} {e : SubCause}
    (hleaf : ∀ y ∈ ys, path y ≠ [] ∧ s.tree1.follow (path y) = some (.leaf y))
    (hh : Holds s s.pos.toNat (symStream path ys ++ tail))
    (hs : StreamEnds s s.tree1 (s.pos.toNat + (symStream path ys).length) tail e) :
    strDec s = .done () { s with
      out := s.out ++ ys
      res := BitVec.ofNat 64 ys.length
      pos := BitVec.ofNat 64 (streamEndPos s (s.pos.toNat + (symStream path ys).length) tail e)
      ending := e } := by
  have hb := hh.append_left.1
  have hl := length_le_symStream fun y hy => (hleaf y hy).1
  have := strLoop_done (fuel := remaining s + 1) (n := 0) (u := { s with ending := .none }) (path := path) (ys := ys)
    (tail := tail) (e := e) (by simp only [remaining]; omega) rfl hleaf (hh.congr rfl rfl rfl) (by cases e <;> exact hs)
  rw [strDec, this, Ret.bind_done, setRes, Nat.zero_add]
  cases e <;> rfl

/-! ### `Run` -/

/-- Canonical codes of a code space that is not over-subscribed build a tree, which is no bare Leaf. -/
theorem buildTree_canonTable {a : Alphabet} {s : State} {ls : List CodeLen} (h : s.table a = canonTable ls)
    (hk : lensCost 32768 ls ≤ 32768) :
    ∃ tree, insertAll (canonTable ls) 0 .empty = some tree ∧ buildTree a s = .done () (s.setTree a tree) := by
  obtain ⟨tree, ht⟩ := insertAll_canonTable hk
  exact ⟨tree, ht, buildTree_done (by rw [h]; exact ht)⟩

/-- How `RUN` can raise: as `CLDEC` or `LENDEC` does. `BUILD` never raises after them, `STRDEC` never does
(45_stream_session.md R191). -/
abbrev RunError (k : ErrCode) (sub : SubCause) : Prop :=
  (k = .insufficientBits ∨ k = .treeMismatch ∨ k = .corruptHistogram ∨ k = .lengthOverrun) ∧
    (sub ≠ .none ↔ k = .treeMismatch)

/-- Everything `Run` can do. It returns after all five steps, or raises in one of the two length decoders. -/
theorem runSession_meets (s : State) :
    (runSession s).Meets
      (fun _ t => ∃ tab0 space0 num tree0 tab1 sym prev cmd count tree1 p ys e,
        ClInv [] tab0 space0 num ∧ LnInv s.params.nsym tab1 0 sym prev cmd count ∧ (cmd ≠ .none → count ≠ 0) ∧
        (CursorOk s → p.toNat ≤ s.totalBits) ∧
        insertAll (canonTable (tab0.map CodeEntry.len)) 0 .empty = some tree0 ∧
        insertAll (canonTable (tab1.map CodeEntry.len)) 0 .empty = some tree1 ∧
        (∀ y ∈ ys, ∃ path, tree1.follow path = some (.leaf y)) ∧
        t = { s with
          pos := p, res := BitVec.ofNat 64 ys.length, ending := e, space := 0, symPos := sym, prevNz := prev
          numCodes := num, repCmd := cmd, repCount := count, table0 := canonTable (tab0.map CodeEntry.len)
          table1 := canonTable (tab1.map CodeEntry.len), tree0 := tree0, tree1 := tree1, out := s.out ++ ys })
      (fun k sub t => RunError k sub ∧
        (((k = .insufficientBits ∨ k = .corruptHistogram) ∧ sub = .none ∧ ClFrom [] s t) ∨
          ∃ (p0 : Reg64) (tab0 : List CodeEntry) (space0 : Int) (num : BitVec 5) (tree0 : Node), ClInv [] tab0 space0 num ∧ (CursorOk s → p0.toNat ≤ s.totalBits) ∧
            insertAll (canonTable (tab0.map CodeEntry.len)) 0 .empty = some tree0 ∧
            LnError { s with
              pos := p0, table0 := canonTable (tab0.map CodeEntry.len), space := space0, numCodes := num
              tree0 := tree0 } k sub t)) := by
  refine ((clDec_meets s).imp (fun _ _ h => h) ?_).bind ?_
  · rintro k sub t ⟨hk, rfl, h⟩
    refine ⟨⟨by tauto, ?_⟩, .inl ⟨hk, rfl, h⟩⟩
    rcases hk with rfl | rfl <;> simp
  rintro - u ⟨p0, tab0, space0, num, hi0, hp0, hor, -, -, rfl⟩
  obtain ⟨tree0, ht0, hb0⟩ := buildTree_canonTable (a := .metaAlpha) (s := { s with
    pos := p0, table0 := canonTable (tab0.map CodeEntry.len), space := space0, numCodes := num }) rfl
    (by rw [← kraftSum_eq_lensCost]; omega)
  rw [hb0, Ret.bind_done]
  refine ((lenDec_meets _).imp (fun _ _ h => h) ?_).bind ?_
  · intro k sub t h
    exact ⟨⟨by have := h.1; tauto, h.2.1⟩, .inr ⟨p0, tab0, space0, num, tree0, hi0, hp0, ht0, h⟩⟩
  rintro - u ⟨p1, tab1, sym, prev, cmd, count, hi1, hp1, hk1, hc, rfl⟩
  obtain ⟨tree1, ht1, hb1⟩ := buildTree_canonTable (a := .realAlpha) (s := { s with
    pos := p1, table0 := canonTable (tab0.map CodeEntry.len), space := 0, numCodes := num, tree0 := tree0
    table1 := canonTable (tab1.map CodeEntry.len), symPos := sym, prevNz := prev, repCmd := cmd, repCount := count }) rfl
    (by rw [← kraftSum_eq_lensCost]; omega)
  refine Eq.subst (motive := fun r : Ret Unit => (r.bind _).Meets _ _) hb1.symm ?_
  rw [Ret.bind_done]
  refine (strDec_meets (insertAll_empty_not_leaf ht1)).imp ?_ fun _ _ _ h => h.elim
  rintro - t ⟨p2, ys, e, rfl, hp2, hys⟩
  exact ⟨tab0, space0, num, tree0, tab1, sym, prev, cmd, count, tree1, p2, ys, e, hi0, hi1, hc,
    fun h => hp2 (hp1 (hp0 h)), ht0, ht1, hys, rfl⟩

end Sys2Proof.Machine
end

