-- ==== Sys2Proof/Laws/Blind.lean ====
section
/-! SUPPORT. What the bodies of the commands do not look at: `STATUS.LAST`, and the contents of the buffer beyond
`BUF_LEN`. Changing either before a body is the same as changing it after. -/

namespace Sys2Proof.Machine

/-- The state with other bytes in the buffer and another `STATUS.LAST`. -/
def overlay (m : Memory) (k : Nat) (l : ErrCode) (s : State) : State := { s with buf := m, resets := k, last := l }

/-- The bytes within `BUF_LEN` are those of `m` and `k`. -/
def SameBytes (m : Memory) (k : Nat) (s : State) : Prop :=
  ∀ a, a < s.bufLen.toNat → bufByte { s with buf := m, resets := k } a = bufByte s a

/-- A result with its state changed. -/
def Ret.mapState {α : Type} (g : State → State) : Ret α → Ret α
  | .done v s => .done v (g s)
  | .raised k sub s => .raised k sub (g s)
  | .stuck => .stuck

/-- `f` does not see what `overlay m k l` changes, and keeps the bytes within `BUF_LEN`. -/
def Blind {α : Type} (m : Memory) (k : Nat) (l : ErrCode) (f : State → Ret α) : Prop :=
  ∀ s, SameBytes m k s → f (overlay m k l s) = (f s).mapState (overlay m k l) ∧
    ∀ t, (∃ v, f s = .done v t) ∨ (∃ c sub, f s = .raised c sub t) → SameBytes m k t

variable {m : Memory} {k : Nat} {l : ErrCode}

theorem Blind.bind {α β : Type} {f : State → Ret α} {g : α → State → Ret β} (hf : Blind m k l f)
    (hg : ∀ v, Blind m k l (g v)) : Blind m k l fun s => (f s).bind (g · ·) := by
  intro s hs
  obtain ⟨h1, h2⟩ := hf s hs
  simp only [h1]
  cases h : f s with
  | done v t =>
    have := hg v t (h2 t (.inl ⟨v, h⟩))
    simpa [Ret.mapState] using this
  | raised c sub t =>
    refine ⟨rfl, ?_⟩
    rintro u (⟨v, hv⟩ | ⟨c', sub', hv⟩)
    · simp at hv
    · simp only [Ret.bind_raised, Ret.raised.injEq] at hv
      exact hv.2.2 ▸ h2 t (.inr ⟨c, sub, h⟩)
  | stuck =>
    refine ⟨rfl, ?_⟩
    rintro u (⟨v, hv⟩ | ⟨c', sub', hv⟩) <;> simp at hv

theorem Blind.ite {α : Type} {c : State → Prop} [∀ s, Decidable (c s)] {f g : State → Ret α}
    (hc : ∀ s, SameBytes m k s → (c (overlay m k l s) ↔ c s)) (hf : Blind m k l f) (hg : Blind m k l g) :
    Blind m k l fun s => if c s then f s else g s := by
  intro s hs
  by_cases h : c s
  · simp only [h, (hc s hs).mpr h, if_true]; exact hf s hs
  · simp only [h, mt (hc s hs).mp h, if_false]; exact hg s hs

/-- A return that writes none of the buffer, `BUF_LEN`, `STATUS.LAST`. -/
theorem Blind.done {α : Type} {v : State → α} {u : State → State}
    (hv : ∀ s, SameBytes m k s → v (overlay m k l s) = v s) (hu : ∀ s, u (overlay m k l s) = overlay m k l (u s))
    (hb : ∀ s, (u s).buf = s.buf ∧ (u s).resets = s.resets ∧ (u s).bufLen = s.bufLen) :
    Blind m k l fun s => .done (v s) (u s) := by
  intro s hs
  refine ⟨by simp only [hv s hs, hu s, Ret.mapState], ?_⟩
  rintro t (⟨w, hw⟩ | ⟨c, sub, hw⟩)
  · simp only [Ret.done.injEq] at hw
    rw [← hw.2]
    obtain ⟨h1, h2, h3⟩ := hb s
    intro a ha
    have := hs a (by rw [← h3]; exact ha)
    simpa [bufByte, h1, h2] using this
  · simp at hw

theorem Blind.raised {α : Type} {c : ErrCode} {sub : SubCause} {u : State → State}
    (hu : ∀ s, u (overlay m k l s) = overlay m k l (u s))
    (hb : ∀ s, (u s).buf = s.buf ∧ (u s).resets = s.resets ∧ (u s).bufLen = s.bufLen) :
    Blind m k l (fun s => .raised c sub (u s) : State → Ret α) := by
  intro s hs
  refine ⟨by simp only [hu s, Ret.mapState], ?_⟩
  rintro t (⟨w, hw⟩ | ⟨c', sub', hw⟩)
  · simp at hw
  · simp only [Ret.raised.injEq] at hw
    rw [← hw.2.2]
    obtain ⟨h1, h2, h3⟩ := hb s
    intro a ha
    have := hs a (by rw [← h3]; exact ha)
    simpa [bufByte, h1, h2] using this

theorem bits_overlay {s : State} {p n : Nat} (h : SameBytes m k s) (hle : p + n ≤ s.totalBits) :
    bits (overlay m k l s) p n = bits s p n := by
  refine bits_congr p n fun i hi => ?_
  have ha : (p + i) / 8 < s.bufLen.toNat := by simp only [State.totalBits] at hle; omega
  have := h _ ha
  simp only [bitAt]
  rw [← this]
  rfl

/-! ### The cursor and the walks -/

theorem blind_peekBits (n : Nat) : Blind m k l (peekBits n) := by
  intro s hs
  rcases Nat.lt_or_ge s.totalBits (s.pos.toNat + n) with h | h
  · rw [peekBits_raised h, peekBits_raised (s := overlay m k l s) h]
    refine ⟨rfl, ?_⟩
    rintro t (⟨w, hw⟩ | ⟨c', sub', hw⟩) <;> simp at hw
    rw [← hw.2.2]; exact hs
  · rw [peekBits_done h, peekBits_done (s := overlay m k l s) h]
    refine ⟨?_, ?_⟩
    · have : bits (overlay m k l s) (overlay m k l s).pos.toNat n = bits s s.pos.toNat n := bits_overlay hs h
      rw [this]; rfl
    · rintro t (⟨w, hw⟩ | ⟨c', sub', hw⟩) <;> simp at hw
      rw [← hw.2]; exact hs

theorem blind_readBits (n : Nat) : Blind m k l (readBits n) :=
  (blind_peekBits n).bind fun v => Blind.done (v := fun _ => v) (u := fun s => setPos (s.pos.toNat + n) s)
    (fun _ _ => rfl) (fun _ => rfl) fun _ => ⟨rfl, rfl, rfl⟩

theorem blind_advance (n : Nat) : Blind m k l (advance n) :=
  Blind.ite (c := fun s => s.totalBits < s.pos.toNat + n) (fun _ _ => Iff.rfl)
    (Blind.raised (u := id) (fun _ => rfl) fun _ => ⟨rfl, rfl, rfl⟩)
    (Blind.done (v := fun _ => ()) (fun _ _ => rfl) (fun _ => rfl) fun _ => ⟨rfl, rfl, rfl⟩)

theorem blind_retreat (n : Nat) : Blind m k l (retreat n) :=
  Blind.ite (c := fun s => s.pos.toNat < n) (fun _ _ => Iff.rfl)
    (Blind.raised (u := id) (fun _ => rfl) fun _ => ⟨rfl, rfl, rfl⟩)
    (Blind.done (v := fun _ => ()) (fun _ _ => rfl) (fun _ => rfl) fun _ => ⟨rfl, rfl, rfl⟩)

theorem blind_setRes (v : Nat) : Blind m k l (setRes v) :=
  Blind.done (v := fun _ => ()) (u := fun s => { s with res := BitVec.ofNat 64 v }) (fun _ _ => rfl) (fun _ => rfl)
    fun _ => ⟨rfl, rfl, rfl⟩

theorem blind_withLegalCount (n : BitVec 16) {f : State → Ret Unit} (hf : Blind m k l f) :
    Blind m k l (withLegalCount n f) :=
  Blind.ite (c := fun _ => maxPeek < countOf n) (fun _ _ => Iff.rfl)
    (Blind.raised (u := id) (fun _ => rfl) fun _ => ⟨rfl, rfl, rfl⟩) hf

theorem blind_walk (start : Reg64) (node : Node) : Blind m k l (walk start node) := by
  induction node with
  | leaf y => exact Blind.done (v := fun _ => y) (u := id) (fun _ _ => rfl) (fun _ => rfl) fun _ => ⟨rfl, rfl, rfl⟩
  | empty =>
    refine Blind.raised (u := fun s => if s.params.emptyRollback then { s with pos := start } else s) ?_ ?_
    · intro s
      by_cases h : s.params.emptyRollback <;> simp [overlay, h]
    · intro s
      by_cases h : s.params.emptyRollback <;> simp [h]
  | internal lt rt ihl ihr =>
    refine Blind.ite (c := fun s => exhausted s = true) (fun _ _ => Iff.rfl)
      (Blind.raised (u := fun s => { s with pos := start }) (fun _ => rfl) fun _ => ⟨rfl, rfl, rfl⟩) ?_
    refine (blind_readBits 1).bind fun b => ?_
    exact Blind.ite (c := fun _ => b = 0) (fun _ _ => Iff.rfl) ihl ihr

theorem blind_decodeSymbol (a : Alphabet) : Blind m k l (decodeSymbol a) := by
  intro s hs
  have : decodeSymbol a (overlay m k l s) = walk s.pos (s.tree a) (overlay m k l s) := by cases a <;> rfl
  rw [this]
  exact blind_walk s.pos (s.tree a) s hs

theorem table_overlay (a : Alphabet) (s : State) : (overlay m k l s).table a = s.table a := by cases a <;> rfl

theorem blind_canon (a : Alphabet) : Blind m k l (canon a) := by
  refine Blind.ite (c := fun s => 32768 < kraftSum (s.table a)) (fun s _ => by rw [table_overlay])
    (Blind.raised (u := id) (fun _ => rfl) fun _ => ⟨rfl, rfl, rfl⟩)
    (Blind.done (v := fun _ => ()) (fun _ _ => rfl) ?_ ?_)
  · intro s
    rw [table_overlay]
    cases a <;> rfl
  · intro s
    cases a <;> exact ⟨rfl, rfl, rfl⟩

theorem blind_buildTree (a : Alphabet) : Blind m k l (buildTree a) := by
  intro s hs
  have h1 : Blind m k l fun s => (Ret.raised .treeCollision .none (s.setTree a .empty) : Ret Unit) :=
    Blind.raised (fun _ => by cases a <;> rfl) fun _ => by cases a <;> exact ⟨rfl, rfl, rfl⟩
  have h2 : ∀ tree, Blind m k l fun s => (Ret.done () (s.setTree a tree) : Ret Unit) := fun tree =>
    Blind.done (v := fun _ => ()) (fun _ _ => rfl) (fun _ => by cases a <;> rfl) fun _ => by cases a <;> exact ⟨rfl, rfl, rfl⟩
  simp only [buildTree, table_overlay]
  cases insertAll (s.table a) 0 .empty with
  | none => exact h1 s hs
  | some tree => exact h2 tree s hs

/-! ### `CLDec`, `LenDec`, `StrDec` -/

/-- A change of the state that writes none of the buffer, `BUF_LEN`, `STATUS.LAST`, before `f`. -/
theorem Blind.comp {α : Type} {f : State → Ret α} (hf : Blind m k l f) {u : State → State}
    (hu : ∀ s, u (overlay m k l s) = overlay m k l (u s))
    (hb : ∀ s, (u s).buf = s.buf ∧ (u s).resets = s.resets ∧ (u s).bufLen = s.bufLen) : Blind m k l fun s => f (u s) :=
  (Blind.done (v := fun _ => ()) (fun _ _ => rfl) hu hb).bind fun _ => hf

theorem blind_done_unit {u : State → State} (hu : ∀ s, u (overlay m k l s) = overlay m k l (u s))
    (hb : ∀ s, (u s).buf = s.buf ∧ (u s).resets = s.resets ∧ (u s).bufLen = s.bufLen) :
    Blind m k l fun s => Ret.done () (u s) :=
  Blind.done (v := fun _ => ()) (fun _ _ => rfl) hu hb

theorem blind_pure : Blind m k l fun s => Ret.done () s := blind_done_unit (fun _ => rfl) fun _ => ⟨rfl, rfl, rfl⟩

theorem blind_clSlot (sym : Nat) : Blind m k l (clSlot sym) := by
  refine (blind_peekBits 4).bind fun p => (blind_advance (clpfx p).2).bind fun _ => ?_
  exact Blind.ite (c := fun _ => (clpfx p).1 ≠ 0#4) (fun _ _ => Iff.rfl)
    (blind_done_unit (fun _ => rfl) fun _ => ⟨rfl, rfl, rfl⟩)
    (blind_done_unit (fun _ => rfl) fun _ => ⟨rfl, rfl, rfl⟩)

theorem blind_clLoop (slots : List Nat) : Blind m k l (clLoop slots) := by
  induction slots with
  | nil => exact blind_pure
  | cons sym slots ih =>
    exact (blind_clSlot sym).bind fun _ => Blind.ite (c := fun s => s.space ≤ 0) (fun _ _ => Iff.rfl) blind_pure ih

theorem blind_clDec : Blind m k l clDec := by
  refine Blind.bind (f := fun s => readBits 2 (clStart s))
    ((blind_readBits 2).comp (u := clStart) (fun _ => rfl) fun _ => ⟨rfl, rfl, rfl⟩) fun skip => ?_
  refine (blind_clLoop _).bind fun _ => Blind.bind (f := clCheck) ?_ fun _ => blind_canon .metaAlpha
  exact Blind.ite (c := fun s => s.numCodes ≠ 1#5 ∧ s.space ≠ 0) (fun _ _ => Iff.rfl)
    (Blind.raised (u := id) (fun _ => rfl) fun _ => ⟨rfl, rfl, rfl⟩) blind_pure

theorem blind_flush : Blind m k l flush := by
  refine Blind.ite (c := fun s => s.repCount = 0) (fun _ _ => Iff.rfl)
    (blind_done_unit (fun _ => rfl) fun _ => ⟨rfl, rfl, rfl⟩) ?_
  exact Blind.ite (c := fun s => s.params.nsym < s.symPos.toNat + s.repCount) (fun _ _ => Iff.rfl)
    (Blind.raised (u := id) (fun _ => rfl) fun _ => ⟨rfl, rfl, rfl⟩)
    (blind_done_unit (fun _ => rfl) fun _ => ⟨rfl, rfl, rfl⟩)

theorem blind_literal (v : CodeLen) : Blind m k l (literal v) := by
  refine blind_flush.bind fun _ => ?_
  refine Blind.ite (c := fun s => s.params.nsym ≤ s.symPos.toNat) (fun _ _ => Iff.rfl)
    (Blind.raised (u := id) (fun _ => rfl) fun _ => ⟨rfl, rfl, rfl⟩) (blind_done_unit ?_ ?_)
  · intro s
    by_cases h : v = 0#4 <;> simp [assignLiteral, h, overlay]
  · intro s
    by_cases h : v = 0#4 <;> simp [assignLiteral, h]

theorem blind_repeatCommand (c : RepCmd) : Blind m k l (repeatCommand c) := by
  refine Blind.bind (f := fun s => if s.repCmd ≠ c then flush s else .done () s)
    (Blind.ite (c := fun s => s.repCmd ≠ c) (fun _ _ => Iff.rfl) blind_flush blind_pure) fun _ => ?_
  refine Blind.bind (f := fun s => readBits c.extraBits { s with repCmd := c })
    ((blind_readBits _).comp (u := fun s => { s with repCmd := c }) (fun _ => rfl) fun _ => ⟨rfl, rfl, rfl⟩) fun extra => ?_
  exact blind_done_unit (fun _ => rfl) fun _ => ⟨rfl, rfl, rfl⟩

theorem blind_lenItem : Blind m k l lenItem := by
  refine (blind_decodeSymbol .metaAlpha).bind fun v => ?_
  exact Blind.ite (c := fun _ => v.toNat < 16) (fun _ _ => Iff.rfl) (blind_literal _) (blind_repeatCommand _)

theorem blind_stuck {α : Type} : Blind m k l fun _ => (Ret.stuck : Ret α) := by
  intro s _
  refine ⟨rfl, ?_⟩
  rintro t (⟨v, hv⟩ | ⟨c, sub, hv⟩) <;> simp at hv

theorem blind_lenLoop (fuel : Nat) : Blind m k l (lenLoop fuel) := by
  induction fuel with
  | zero => exact blind_stuck
  | succ fuel ih =>
    exact Blind.ite (c := fun s => lenMore s = true) (fun _ _ => Iff.rfl) (blind_lenItem.bind fun _ => ih) blind_pure

theorem blind_lenDec : Blind m k l lenDec := by
  refine Blind.bind (f := fun s => lenLoop (lenFuel s) (lenStart s)) ?_ fun _ => ?_
  · intro s hs
    exact ((blind_lenLoop (lenFuel s)).comp (u := lenStart) (fun _ => rfl) fun _ => ⟨rfl, rfl, rfl⟩) s hs
  refine Blind.bind (f := lenDangling) ?_ fun _ => Blind.bind (f := lenCheck) ?_ fun _ => blind_canon .realAlpha
  · exact Blind.ite (c := fun s =>
      s.params.dangling = .flush ∧ exhausted s = true ∧ 0 < s.space ∧ s.symPos.toNat < s.params.nsym)
      (fun _ _ => Iff.rfl) blind_flush blind_pure
  · exact Blind.ite (c := fun s => s.space ≠ 0) (fun _ _ => Iff.rfl)
      (Blind.raised (u := id) (fun _ => rfl) fun _ => ⟨rfl, rfl, rfl⟩) blind_pure

theorem blind_strLoop (fuel n : Nat) : Blind m k l (strLoop fuel n) := by
  induction fuel generalizing n with
  | zero => exact blind_stuck
  | succ fuel ih =>
    refine Blind.ite (c := fun s => exhausted s = true) (fun _ _ => Iff.rfl)
      (Blind.done (v := fun _ => n) (u := id) (fun _ _ => rfl) (fun _ => rfl) fun _ => ⟨rfl, rfl, rfl⟩) ?_
    intro s hs
    obtain ⟨h1, h2⟩ := blind_decodeSymbol (m := m) (k := k) (l := l) .realAlpha s hs
    simp only [h1]
    cases h : decodeSymbol .realAlpha s with
    | done y t =>
      have ht := h2 t (.inl ⟨y, h⟩)
      exact ((ih (n + 1)).comp (u := fun s => { s with out := s.out ++ [y] }) (fun _ => rfl) fun _ => ⟨rfl, rfl, rfl⟩) t ht
    | raised c sub t =>
      have ht := h2 t (.inr ⟨c, sub, h⟩)
      exact (Blind.done (v := fun _ => n) (u := fun s => { s with ending := sub }) (fun _ _ => rfl) (fun _ => rfl)
        fun _ => ⟨rfl, rfl, rfl⟩) t ht
    | stuck => exact blind_stuck s hs

theorem blind_strDec : Blind m k l strDec := by
  refine Blind.bind (f := fun s => strLoop (remaining s + 1) 0 { s with ending := .none }) ?_ fun n => blind_setRes n
  intro s hs
  exact ((blind_strLoop (remaining s + 1) 0).comp (u := fun s => { s with ending := .none }) (fun _ => rfl)
    fun _ => ⟨rfl, rfl, rfl⟩) s hs

theorem blind_runSession : Blind m k l runSession :=
  blind_clDec.bind fun _ => (blind_buildTree .metaAlpha).bind fun _ => blind_lenDec.bind fun _ =>
    (blind_buildTree .realAlpha).bind fun _ => blind_strDec

/-- A body run after a normal end of the command before it, which wrote only `STATUS.LAST`, returns as it would
have straight after that command's body. -/
theorem command_endOk_done {fatal : Bool} {f : State → Ret Unit} (hb : ∀ m k l, Blind m k l f) {u v : State}
    (h : f u = .done () v) (hf : u.fatal = false) (h1 : v.buf = u.buf) (h2 : v.resets = u.resets) :
    command fatal f (endOk u) = .next (endOk v) := by
  have hs := (hb u.buf u.resets .ok u fun _ _ => rfl).1
  rw [h] at hs
  rw [command_done (s := endOk u) hf hs, ← h1, ← h2]
  rfl

/-- The same for a raise. -/
theorem command_endOk_raised {fatal : Bool} {f : State → Ret Unit} (hb : ∀ m k l, Blind m k l f) {u v : State}
    {c : ErrCode} {sub : SubCause} (h : f u = .raised c sub v) (hf : u.fatal = false) (h1 : v.buf = u.buf)
    (h2 : v.resets = u.resets) : command fatal f (endOk u) = .next (takeError fatal c sub v) := by
  have hs := (hb u.buf u.resets .ok u fun _ _ => rfl).1
  rw [h] at hs
  rw [command_raised (s := endOk u) hf hs, ← h1, ← h2]
  rfl

end Sys2Proof.Machine
end

