-- ==== Sys2Proof/Laws/Decode.lean ====
section
/-! SUPPORT. The fields of a command word built by the encoder. -/

namespace Sys2Proof

/-- Bit `i` of a word put together from its four fields. -/
theorem getLsbD_fields (op : BitVec 8) (z : BitVec 7) (t : BitVec 1) (n : BitVec 16) (i : Nat) :
    BitVec.getLsbD (op ++ z ++ t ++ n : Word) i =
      if i < 16 then n.getLsbD i
      else if i - 16 < 1 then t.getLsbD (i - 16)
      else if i - 16 - 1 < 7 then z.getLsbD (i - 16 - 1)
      else op.getLsbD (i - 16 - 1 - 7) := by
  refine BitVec.getLsbD_append.trans ?_
  rw [BitVec.getLsbD_append, BitVec.getLsbD_append]

theorem opField_append (op : BitVec 8) (z : BitVec 7) (t : BitVec 1) (n : BitVec 16) :
    opField (op ++ z ++ t ++ n : Word) = op := by
  apply BitVec.eq_of_getLsbD_eq
  intro i hi
  have h1 : ¬ 24 + i < 16 := by omega
  have h2 : ¬ 24 + i - 16 < 1 := by omega
  have h3 : ¬ 24 + i - 16 - 1 < 7 := by omega
  have h4 : 24 + i - 16 - 1 - 7 = i := by omega
  rw [opField, BitVec.getLsbD_extractLsb', getLsbD_fields, if_neg h1, if_neg h2, if_neg h3, h4]
  simp [hi]

theorem zField_append (op : BitVec 8) (z : BitVec 7) (t : BitVec 1) (n : BitVec 16) :
    zField (op ++ z ++ t ++ n : Word) = z := by
  apply BitVec.eq_of_getLsbD_eq
  intro i hi
  have h1 : ¬ 17 + i < 16 := by omega
  have h2 : ¬ 17 + i - 16 < 1 := by omega
  have h4 : 17 + i - 16 - 1 = i := by omega
  rw [zField, BitVec.getLsbD_extractLsb', getLsbD_fields, if_neg h1, if_neg h2, h4, if_pos hi]
  simp [hi]

theorem tField_append (op : BitVec 8) (z : BitVec 7) (t : BitVec 1) (n : BitVec 16) :
    tField (op ++ z ++ t ++ n : Word) = t := by
  apply BitVec.eq_of_getLsbD_eq
  intro i hi
  have h1 : ¬ 16 + i < 16 := by omega
  have h4 : 16 + i - 16 = i := by omega
  rw [tField, BitVec.getLsbD_extractLsb', getLsbD_fields, if_neg h1, h4, if_pos hi]
  simp [hi]

theorem nField_append (op : BitVec 8) (z : BitVec 7) (t : BitVec 1) (n : BitVec 16) :
    nField (op ++ z ++ t ++ n : Word) = n := by
  apply BitVec.eq_of_getLsbD_eq
  intro i hi
  rw [nField, BitVec.getLsbD_extractLsb', getLsbD_fields, Nat.zero_add, if_pos hi]
  simp [hi]

@[simp] theorem opField_encode (i : Instr) : opField (encode i) = i.opcode := opField_append ..
@[simp] theorem zField_encode (i : Instr) : zField (encode i) = 0#7 := zField_append ..
@[simp] theorem tField_encode (i : Instr) : tField (encode i) = i.tBit := tField_append ..
@[simp] theorem nField_encode (i : Instr) : nField (encode i) = i.count := nField_append ..

/-- A word is its four fields in their places (30_encoding.md R90). -/
theorem word_eq_fields (w : Word) : w = opField w ++ zField w ++ tField w ++ nField w := by
  apply BitVec.eq_of_getLsbD_eq
  intro i hi
  have hi' : i < 32 := hi
  rw [getLsbD_fields]
  split
  next h1 => simp [nField, h1]
  next h1 =>
    split
    next h2 =>
      have : 16 + (i - 16) = i := by omega
      simp [tField, h2, this]
    next h2 =>
      split
      next h3 =>
        have : 17 + (i - 16 - 1) = i := by omega
        simp [zField, h3, this]
      next h3 =>
        have h4 : i - 16 - 1 - 7 < 8 := by omega
        have : 24 + (i - 16 - 1 - 7) = i := by omega
        simp [opField, h4, this]

@[simp] theorem alphabetOf_bit (t : Alphabet) : alphabetOf t.bit = t := by cases t <;> rfl

@[simp] theorem bit_alphabetOf (b : BitVec 1) : (alphabetOf b).bit = b := by
  revert b; decide

end Sys2Proof
end

