-- ==== Sys2Proof/Laws/Frame.lean ====
section
/-! SUPPORT. Every command but `LOAD` as the wrapper around a body, and what the bodies leave alone: the column
"written by" of 10_state.md R20, said once. -/

namespace Sys2Proof.Machine

/-- The body of a command: its rule without the wrapper. -/
def bodyOf : Instr → State → Ret Unit
  | .peek n => withLegalCount n fun s => (peekBits (countOf n) s).bind setRes
  | .read n => withLegalCount n fun s => (readBits (countOf n) s).bind setRes
  | .adv n => advance (countOf n)
  | .ret n => retreat (countOf n)
  | .exh => fun s => setRes (exhausted s).toNat s
  | .rem => fun s => setRes (remaining s) s
  | .canon t => canon t
  | .build t => buildTree t
  | .decsym t => fun s => (decodeSymbol t s).bind fun y s => setRes y.toNat s
  | .cldec => clDec
  | .lendec => lenDec
  | .strdec => strDec
  | .run => runSession
  | .load => fun s => .done () (discardSession s)

/-- Whether a command's raises are fatal (60_exceptions.md R221). -/
def fatalOf : Instr → Bool
  | .canon _ => true
  | .build _ => true
  | .cldec => true
  | .lendec => true
  | .run => true
  | .peek _ => false
  | .read _ => false
  | .adv _ => false
  | .ret _ => false
  | .exh => false
  | .rem => false
  | .decsym _ => false
  | .strdec => false
  | .load => false

theorem exec_eq_command {i : Instr} (h : i ≠ .load) (s : State) : exec i s = command (fatalOf i) (bodyOf i) s := by
  cases i <;> first | rfl | exact absurd rfl h

/-- Nothing of what a command sees of `STATUS.LAST` or of the buffer beyond `BUF_LEN`. -/
theorem blind_bodyOf {i : Instr} (h : i ≠ .load) (m : Memory) (k : Nat) (l : ErrCode) : Blind m k l (bodyOf i) := by
  cases i with
  | peek n => exact blind_withLegalCount n ((blind_peekBits _).bind fun v => blind_setRes v)
  | read n => exact blind_withLegalCount n ((blind_readBits _).bind fun v => blind_setRes v)
  | adv n => exact blind_advance _
  | ret n => exact blind_retreat _
  | exh =>
    exact Blind.done (v := fun _ => ()) (u := fun s => { s with res := BitVec.ofNat 64 (exhausted s).toNat })
      (fun _ _ => rfl) (fun _ => rfl) fun _ => ⟨rfl, rfl, rfl⟩
  | rem =>
    exact Blind.done (v := fun _ => ()) (u := fun s => { s with res := BitVec.ofNat 64 (remaining s) })
      (fun _ _ => rfl) (fun _ => rfl) fun _ => ⟨rfl, rfl, rfl⟩
  | canon t => exact blind_canon t
  | build t => exact blind_buildTree t
  | decsym t => exact (blind_decodeSymbol t).bind fun y => blind_setRes _
  | cldec => exact blind_clDec
  | lendec => exact blind_lenDec
  | strdec => exact blind_strDec
  | run => exact blind_runSession
  | load => exact absurd rfl h

/-- What the body of a command leaves alone, whether it returns or raises. -/
structure Frame (i : Instr) (s t : State) : Prop where
  fixed : t.params = s.params ∧ t.host = s.host ∧ t.liveWritten = s.liveWritten ∧ t.resets = s.resets ∧
    t.buf = s.buf ∧ t.lenIn = s.lenIn ∧ t.bufLen = s.bufLen
  error : t.last = s.last ∧ t.fatal = s.fatal ∧ t.errKind = s.errKind ∧ t.errSub = s.errSub ∧ t.errPos = s.errPos
  cursor : CursorOk s → CursorOk t
  pos : (∃ n, i = .peek n) ∨ i = .exh ∨ i = .rem ∨ (∃ a, i = .canon a) ∨ (∃ a, i = .build a) → t.pos = s.pos
  res : (∃ n, i = .adv n) ∨ (∃ n, i = .ret n) ∨ (∃ a, i = .canon a) ∨ (∃ a, i = .build a) ∨ i = .cldec ∨ i = .lendec →
    t.res = s.res
  table0 : i ≠ .cldec → i ≠ .canon .metaAlpha → i ≠ .run → t.table0 = s.table0
  table1 : i ≠ .lendec → i ≠ .canon .realAlpha → i ≠ .run → t.table1 = s.table1
  tree0 : i ≠ .build .metaAlpha → i ≠ .run → t.tree0 = s.tree0
  tree1 : i ≠ .build .realAlpha → i ≠ .run → t.tree1 = s.tree1
  stream : i ≠ .strdec → i ≠ .run → t.out = s.out ∧ t.ending = s.ending
  grows : s.out <+: t.out
  space : i ≠ .cldec → i ≠ .lendec → i ≠ .run → t.space = s.space
  number : i ≠ .cldec → i ≠ .run → t.numCodes = s.numCodes
  runs : i ≠ .lendec → i ≠ .run →
    t.symPos = s.symPos ∧ t.prevNz = s.prevNz ∧ t.repCmd = s.repCmd ∧ t.repCount = s.repCount

theorem Frame.same (i : Instr) (s : State) : Frame i s s := by constructor <;> simp

theorem Frame.posRes {i : Instr} {s : State} {p r : Reg64} (hp : CursorOk s → p.toNat ≤ s.totalBits)
    (h : i = .strdec ∨ (∃ n, i = .read n) ∨ (∃ a, i = .decsym a)) : Frame i s { s with pos := p, res := r } := by
  constructor <;> first | exact hp | (rcases h with rfl | ⟨n, rfl⟩ | ⟨n, rfl⟩ <;> simp)

/-- The raises a command can have: those of the column "raised by" of 60_exceptions.md R210, and their sub-causes. -/
abbrev RaisesOnly (k : ErrCode) (sub : SubCause) : Prop := k ≠ .ok ∧ k ≠ .halted ∧ (sub ≠ .none ↔ k = .treeMismatch)

theorem walkError_raisesOnly {k : ErrCode} {sub : SubCause} (h : WalkError k sub) : RaisesOnly k sub := by
  rcases h with ⟨rfl, h⟩ | ⟨rfl, rfl⟩
  · exact ⟨by simp, by simp, by simp [h]⟩
  · exact ⟨by simp, by simp, by simp⟩

/-- What holds of a raise of a command's body: the frame; it is one of those listed, and it leaves `RES`, `OUT` and
`STATUS.END` alone. -/
structure RaiseFrame (i : Instr) (s : State) (k : ErrCode) (sub : SubCause) (t : State) : Prop where
  frame : Frame i s t
  quiet : t.res = s.res ∧ t.out = s.out ∧ t.ending = s.ending
  kind  : RaisesOnly k sub
  who   : i ≠ .strdec ∧ i ≠ .exh ∧ i ≠ .rem

/-- What the body of a command other than `STRDEC` can do: it ends, within its frame. -/
theorem bodyOf_meets {i : Instr} (h : i ≠ .load) (hs : i ≠ .strdec) (s : State) :
    (bodyOf i s).Meets (fun _ t => Frame i s t) (RaiseFrame i s) := by
  have hmod : ∀ n, (BitVec.ofNat 64 n).toNat ≤ n := fun n => by rw [BitVec.toNat_ofNat]; exact Nat.mod_le _ _
  cases i with
  | peek n =>
    simp only [bodyOf, withLegalCount]
    split
    · exact ⟨Frame.same _ s, by simp, by simp [RaisesOnly], by simp⟩
    · simp only [peekBits]
      split
      · exact ⟨Frame.same _ s, by simp, by simp [RaisesOnly], by simp⟩
      · simp only [Ret.bind_done, setRes]
        constructor <;> first | exact id | simp
  | read n =>
    simp only [bodyOf, withLegalCount]
    split
    · exact ⟨Frame.same _ s, by simp, by simp [RaisesOnly], by simp⟩
    · rcases readBits_cases (countOf n) s with ⟨hle, he⟩ | ⟨-, he⟩
      · rw [he, Ret.bind_done]
        exact Frame.posRes (fun _ => Nat.le_trans (hmod _) hle) (.inr (.inl ⟨n, rfl⟩))
      · rw [he]
        exact ⟨Frame.same _ s, by simp, by simp [RaisesOnly], by simp⟩
  | adv n =>
    simp only [bodyOf, advance]
    split
    · exact ⟨Frame.same _ s, by simp, by simp [RaisesOnly], by simp⟩
    next hle =>
      constructor <;> first
        | simp; done
        | (intro _; exact Nat.le_trans (hmod _) (Nat.not_lt.mp hle))
  | ret n =>
    simp only [bodyOf, retreat]
    split
    · exact ⟨Frame.same _ s, by simp, by simp [RaisesOnly], by simp⟩
    next hle =>
      constructor <;> first
        | simp; done
        | (intro hc; exact Nat.le_trans (hmod _) (Nat.le_trans (Nat.sub_le _ _) hc))
  | exh => simp only [bodyOf, setRes]; constructor <;> first | exact id | simp
  | rem => simp only [bodyOf, setRes]; constructor <;> first | exact id | simp
  | canon a =>
    refine (canon_meets a s).imp ?_ ?_
    · rintro - t ⟨-, rfl⟩
      cases a <;> constructor <;> simp [State.setTable, State.totalBits]
    · rintro k sub t ⟨-, rfl, rfl, rfl⟩
      exact ⟨Frame.same _ _, by simp, by simp [RaisesOnly], by simp⟩
  | build a =>
    refine (buildTree_meets a s).imp ?_ ?_
    · rintro - t ⟨tree, -, rfl⟩
      cases a <;> constructor <;> simp [State.setTree, State.totalBits]
    · rintro k sub t ⟨-, rfl, rfl, rfl⟩
      cases a <;> exact ⟨by constructor <;> simp [State.setTree, State.totalBits], by simp [State.setTree],
        by simp [RaisesOnly], by simp⟩
  | decsym a =>
    refine ((decodeSymbol_meets a s).imp (fun _ _ h => h) ?_).bind ?_
    · rintro k sub t ⟨hk, p, rfl, hp⟩
      refine ⟨Frame.posRes (r := s.res) (fun hc => ?_) (.inr (.inr ⟨a, rfl⟩)), ⟨rfl, rfl, rfl⟩,
        walkError_raisesOnly hk, by simp⟩
      rcases hp with rfl | hp
      · exact hc
      · exact hp
    · rintro y t ⟨p, rfl, -, hp, -⟩
      refine Frame.posRes (fun hc => ?_) (.inr (.inr ⟨a, rfl⟩))
      rcases hp with rfl | hp
      · exact hc
      · exact hp
  | cldec =>
    refine (clDec_meets s).imp ?_ ?_
    · rintro - t ⟨p, tab, space, num, -, hp, -, -, -, rfl⟩
      constructor <;> first | exact hp | simp
    · rintro k sub t ⟨hk, rfl, p, tab, space, num, rfl, hp, -⟩
      refine ⟨by constructor <;> first | exact hp | simp, ⟨rfl, rfl, rfl⟩, ?_, by simp⟩
      rcases hk with rfl | rfl <;> simp [RaisesOnly]
  | lendec =>
    refine (lenDec_meets s).imp ?_ ?_
    · rintro - t ⟨p, tab, sym, prev, cmd, count, -, hp, -, -, rfl⟩
      constructor <;> first | exact hp | simp
    · rintro k sub t ⟨hk, hsub, p, tab, space, sym, prev, cmd, count, rfl, hp, -⟩
      refine ⟨by constructor <;> first | exact hp | simp, ⟨rfl, rfl, rfl⟩, ⟨?_, ?_, hsub⟩, by simp⟩
      · rcases hk with rfl | rfl | rfl | rfl <;> simp
      · rcases hk with rfl | rfl | rfl | rfl <;> simp
  | strdec => exact absurd rfl hs
  | run =>
    refine (runSession_meets s).imp ?_ ?_
    · rintro - t ⟨_, _, _, _, _, _, _, _, _, _, p, ys, e, -, -, -, hp, -, -, -, rfl⟩
      constructor <;> first | exact hp | simp
    · rintro k sub t ⟨⟨hk, hsub⟩, ht⟩
      have hk' : RaisesOnly k sub := by
        refine ⟨?_, ?_, hsub⟩
        · rcases hk with rfl | rfl | rfl | rfl <;> simp
        · rcases hk with rfl | rfl | rfl | rfl <;> simp
      rcases ht with ⟨-, -, p, tab, space, num, rfl, hp, -⟩ |
        ⟨p0, tab0, space0, num, tree0, -, hp0, -, -, -, p, tab, space, sym, prev, cmd, count, rfl, hp, -⟩
      · exact ⟨by constructor <;> first | exact hp | simp, ⟨rfl, rfl, rfl⟩, hk', by simp⟩
      · exact ⟨by constructor <;> first | exact (fun hc => hp (hp0 hc)) | simp, ⟨rfl, rfl, rfl⟩, hk', by simp⟩
  | load => exact absurd rfl h

theorem strDec_frame {s t : State} {v : Unit} (h : strDec s = .done v t) : Frame .strdec s t := by
  rcases strDec_cases s with ⟨h', -⟩ | h'
  · rw [h] at h'; simp at h'
  · rw [h] at h'
    obtain ⟨p, ys, e, rfl, hp, -⟩ := h'
    constructor <;> first | exact hp | simp

theorem strDec_not_raised {s t : State} {k : ErrCode} {sub : SubCause} : strDec s ≠ .raised k sub t := by
  intro h
  rcases strDec_cases s with ⟨h', -⟩ | h'
  · rw [h] at h'; simp at h'
  · rw [h] at h'; exact h'

/-- Everything a command but `LOAD` can do when it answers a next state: it is refused because HPTD is halted, or its
body returned, or its body raised; the last two within its frame. -/
theorem exec_cases {i : Instr} {s t : State} (hi : i ≠ .load) (h : exec i s = .next t) :
    (s.fatal = true ∧ t = refuseHalted s) ∨
      (s.fatal = false ∧ ∃ u, bodyOf i s = .done () u ∧ Frame i s u ∧ t = endOk u) ∨
      (s.fatal = false ∧ ∃ k sub u, bodyOf i s = .raised k sub u ∧ RaiseFrame i s k sub u ∧
        t = takeError (fatalOf i) k sub u) := by
  rw [exec_eq_command hi] at h
  rcases command_cases h with h | ⟨hf, u, hu, ht⟩ | ⟨hf, k, sub, u, hu, ht⟩
  · exact .inl h
  · refine .inr (.inl ⟨hf, u, hu, ?_, ht⟩)
    by_cases hs : i = .strdec
    · subst hs; exact strDec_frame hu
    · simpa [hu] using bodyOf_meets hi hs s
  · refine .inr (.inr ⟨hf, k, sub, u, hu, ?_, ht⟩)
    by_cases hs : i = .strdec
    · subst hs; exact absurd hu strDec_not_raised
    · simpa [hu] using bodyOf_meets hi hs s

end Sys2Proof.Machine
end

