-- ==== Sys2Proof/Laws/PerInstr.lean ====
section
/-! SUPPORT. Per command: its row of the opcode map (30_encoding.md R93) is found under its opcode, and gives the
command back from its own fields when these are legal. -/

namespace Sys2Proof.Laws

/-- The row found under a command's opcode decodes the command's own fields to the command. -/
def RowOfOpcode.Statement (i : Instr) : Prop :=
  ∃ row, opTable.lookup i.opcode = some row ∧ (i.wf = true → decodeRow row i.tBit i.count = .ok i)

theorem RowOfOpcode.peek (n : BitVec 16) : RowOfOpcode.Statement (.peek n) :=
  ⟨.shortCount .peek, rfl, fun h => by
    have : ¬ maxPeek < n.toNat := by simpa [Instr.wf] using h
    simp [decodeRow, Instr.tBit, Instr.count, this]⟩

theorem RowOfOpcode.read (n : BitVec 16) : RowOfOpcode.Statement (.read n) :=
  ⟨.shortCount .read, rfl, fun h => by
    have : ¬ maxPeek < n.toNat := by simpa [Instr.wf] using h
    simp [decodeRow, Instr.tBit, Instr.count, this]⟩

theorem RowOfOpcode.adv (n : BitVec 16) : RowOfOpcode.Statement (.adv n) := ⟨.anyCount .adv, rfl, fun _ => rfl⟩
theorem RowOfOpcode.ret (n : BitVec 16) : RowOfOpcode.Statement (.ret n) := ⟨.anyCount .ret, rfl, fun _ => rfl⟩
theorem RowOfOpcode.exh : RowOfOpcode.Statement .exh := ⟨.plain .exh, rfl, fun _ => rfl⟩
theorem RowOfOpcode.rem : RowOfOpcode.Statement .rem := ⟨.plain .rem, rfl, fun _ => rfl⟩

theorem RowOfOpcode.canon (t : Alphabet) : RowOfOpcode.Statement (.canon t) :=
  ⟨.table .canon, rfl, fun _ => by simp [decodeRow, Instr.tBit, Instr.count]⟩

theorem RowOfOpcode.build (t : Alphabet) : RowOfOpcode.Statement (.build t) :=
  ⟨.table .build, rfl, fun _ => by simp [decodeRow, Instr.tBit, Instr.count]⟩

theorem RowOfOpcode.decsym (t : Alphabet) : RowOfOpcode.Statement (.decsym t) :=
  ⟨.table .decsym, rfl, fun _ => by simp [decodeRow, Instr.tBit, Instr.count]⟩

theorem RowOfOpcode.cldec : RowOfOpcode.Statement .cldec := ⟨.plain .cldec, rfl, fun _ => rfl⟩
theorem RowOfOpcode.lendec : RowOfOpcode.Statement .lendec := ⟨.plain .lendec, rfl, fun _ => rfl⟩
theorem RowOfOpcode.strdec : RowOfOpcode.Statement .strdec := ⟨.plain .strdec, rfl, fun _ => rfl⟩
theorem RowOfOpcode.run : RowOfOpcode.Statement .run := ⟨.plain .run, rfl, fun _ => rfl⟩
theorem RowOfOpcode.load : RowOfOpcode.Statement .load := ⟨.plain .load, rfl, fun _ => rfl⟩

end Sys2Proof.Laws
end

