-- ==== Sys2Proof/Tests/Slice0.lean ====
section
/-! SUPPORT. Tests of the model: ill-formed terms, written-out words, single steps with the results that
95_test_vectors.md computes (its vector in each comment), and for every statement with hypotheses a witness that meets
them, for a statement with several clauses one for each clause. -/

namespace Sys2Proof.Tests

open Sys2Proof Sys2Proof.Machine

/-! ### Ill-formed terms are refused -/

theorem test_wf_refuses_peek_65 : (Instr.peek 65#16).wf = false ∧ (Instr.peek 64#16).wf = true := by decide
theorem test_wf_refuses_read_65 : (Instr.read 65#16).wf = false ∧ (Instr.read 64#16).wf = true := by decide

/-! ### Words written out: OP, Z, T, N (30_encoding.md R90, R93; V8.1 of 95_test_vectors.md) -/

/-- A word from its four fields written as bit strings. -/
def word (op : BitVec 8) (z : BitVec 7) (t : BitVec 1) (n : BitVec 16) : Word := op ++ z ++ t ++ n

theorem test_decode_peek : decode (word 0b00000001#8 0#7 0#1 0b0000000001000000#16) = .ok (.peek 64#16) := by decide
theorem test_decode_read : decode (word 0b00000010#8 0#7 0#1 0b0000000000001001#16) = .ok (.read 9#16) := by decide
theorem test_decode_adv : decode (word 0b00000011#8 0#7 0#1 0b1111111111111111#16) = .ok (.adv 65535#16) := by decide
theorem test_decode_ret : decode (word 0b00000100#8 0#7 0#1 0b0000000000001100#16) = .ok (.ret 12#16) := by decide
theorem test_decode_exh : decode (word 0b00000101#8 0#7 0#1 0#16) = .ok .exh := by decide
theorem test_decode_rem : decode (word 0b00000110#8 0#7 0#1 0#16) = .ok .rem := by decide
theorem test_decode_canon : decode (word 0b00010000#8 0#7 1#1 0#16) = .ok (.canon .realAlpha) := by decide
theorem test_decode_build : decode (word 0b00010001#8 0#7 0#1 0#16) = .ok (.build .metaAlpha) := by decide
theorem test_decode_decsym : decode (word 0b00010010#8 0#7 1#1 0#16) = .ok (.decsym .realAlpha) := by decide
theorem test_decode_cldec : decode (word 0b00100000#8 0#7 0#1 0#16) = .ok .cldec := by decide
theorem test_decode_lendec : decode (word 0b00100001#8 0#7 0#1 0#16) = .ok .lendec := by decide
theorem test_decode_strdec : decode (word 0b00100010#8 0#7 0#1 0#16) = .ok .strdec := by decide
theorem test_decode_run : decode (word 0b00100011#8 0#7 0#1 0#16) = .ok .run := by decide
theorem test_decode_load : decode (word 0b00110000#8 0#7 0#1 0#16) = .ok .load := by decide

/-- The illegal words of V8.1. -/
theorem test_illegal_words :
    decode 0x00000000#32 = .error .unknownOp ∧ decode 0xFFFFFFFF#32 = .error .reservedNotZero ∧
      decode 0x07000000#32 = .error .unknownOp ∧ decode 0x01000041#32 = .error .countTooLarge ∧
      decode 0x0200FFFF#32 = .error .countTooLarge ∧ decode 0x01010004#32 = .error .strayTable ∧
      decode 0x05000001#32 = .error .strayCount ∧ decode 0x10010001#32 = .error .strayCount ∧
      decode 0x10020000#32 = .error .reservedNotZero ∧ decode 0x12800000#32 = .error .reservedNotZero ∧
      decode 0x20010000#32 = .error .strayTable ∧ decode 0x30000001#32 = .error .strayCount := by decide

theorem test_decodeTableWord : decodeTableWord 32 0x12010000 = some (.decsym .realAlpha) ∧
    decodeTableWord 32 0x01000041 = none := by decide

/-! ### Small states -/

/-- Small alphabet: `NSYM = 8`. -/
def p8 : Params := ⟨7#16, .drop, false⟩

/-- A session on the given bytes, at its start: the state after the host wrote them and `LOAD`. -/
def sess (p : Params) (bytes : List Byte) : State :=
  { State.resetOf p with
    buf := bytes.mapIdx fun i b => (i, b)
    lenIn := BitVec.ofNat 32 bytes.length
    bufLen := BitVec.ofNat 32 bytes.length }

/-- `n` lengths, those listed and 0 elsewhere. -/
def lensAt (n : Nat) (ps : List (Nat × CodeLen)) : List CodeLen := (List.range n).map fun i => (ps.lookup i).getD 0#4

/-- The tree of the canonical code of given lengths. -/
def treeOf (ls : List CodeLen) : Node := (insertAll (canonTable ls) 0 .empty).getD .empty

/-- The path of symbol `y` in the canonical code of given lengths. -/
def pathOf (ls : List CodeLen) (y : Symbol) : List Bool := ((canonTable ls).getD y.toNat ⟨0#4, 0#16⟩).path

/-- The step answers a next state of which `f` is true. -/
def nextIs (o : Host.Outcome State Fault Refusal) (f : State → Bool) : Bool :=
  match o with
  | .next t => f t
  | .fault _ => false
  | .refused _ => false

/-- The meta-alphabet code M1 of 95_test_vectors.md. -/
def m1 : List CodeLen :=
  lensAt 18 [(0, 3#4), (1, 3#4), (2, 4#4), (3, 4#4), (8, 4#4), (15, 4#4), (16, 2#4), (17, 2#4)]

/-- The lengths "abcd", moved to symbols 0 to 3. -/
def abcd : List CodeLen := lensAt 8 [(0, 1#4), (1, 2#4), (2, 3#4), (3, 3#4)]

/-- A session with the tree "abcd". -/
def abcdSess (bytes : List Byte) : State := { sess p8 bytes with table1 := canonTable abcd, tree1 := treeOf abcd }

/-- A session on the meta-tree M1. -/
def m1Sess (p : Params) (bytes : List Byte) : State := { sess p bytes with table0 := canonTable m1, tree0 := treeOf m1 }

/-! ### One step of each command (95_test_vectors.md) -/

/-- V2.1: `PEEK 16` of `B5 3C`, low byte first. -/
theorem test_peek_low_byte_first :
    nextIs (exec (.peek 16#16) (sess p8 [0xB5#8, 0x3C#8])) fun t => t.res = 0x3CB5#64 && t.pos = 0#64 := by decide

/-- V2.2: `PEEK 64`. -/
theorem test_peek_64 :
    nextIs (exec (.peek 64#16) (sess p8 [0x01#8, 0x23#8, 0x45#8, 0x67#8, 0x89#8, 0xAB#8, 0xCD#8, 0xEF#8, 0x5A#8]))
      fun t => t.res = 0xEFCDAB8967452301#64 := by decide

/-- V2.1: `READ 9` from bit 3 crosses the byte boundary. -/
theorem test_read_crosses_bytes :
    nextIs (exec (.read 9#16) { sess p8 [0xB5#8, 0x3C#8] with pos := 3#64 })
      fun t => t.res = 0x196#64 && t.pos = 12#64 := by decide

/-- V2.1: `READ 5` with 4 bits left. -/
theorem test_read_too_few :
    nextIs (exec (.read 5#16) { sess p8 [0xB5#8, 0x3C#8] with pos := 12#64, res := 0x196#64 }) fun t =>
      t.last = .insufficientBits && t.errKind = .insufficientBits && t.errPos = 12#64 && t.pos = 12#64 &&
        t.res = 0x196#64 && !t.fatal := by decide

/-- V2.1: `ADV 16` to exactly the end, `ADV 1` beyond it. -/
theorem test_adv_to_the_end :
    (nextIs (exec (.adv 16#16) (sess p8 [0xB5#8, 0x3C#8])) fun t => t.last = .ok && t.pos = 16#64) ∧
      nextIs (exec (.adv 1#16) { sess p8 [0xB5#8, 0x3C#8] with pos := 16#64 })
        fun t => t.last = .positionOverflow && t.pos = 16#64 := by decide

/-- V2.1: `RET 16` and `RET 17` at 16. -/
theorem test_ret_to_the_start :
    (nextIs (exec (.ret 16#16) { sess p8 [0xB5#8, 0x3C#8] with pos := 16#64 }) fun t => t.last = .ok && t.pos = 0#64) ∧
      nextIs (exec (.ret 17#16) { sess p8 [0xB5#8, 0x3C#8] with pos := 16#64 })
        fun t => t.last = .positionUnderflow && t.errPos = 16#64 := by decide

/-- V2.1 and V2.3: `EXH` at the end, and on an empty buffer. -/
theorem test_exh :
    (nextIs (exec .exh { sess p8 [0xB5#8, 0x3C#8] with pos := 16#64 }) fun t => t.res = 1#64) ∧
      (nextIs (exec .exh { sess p8 [0xB5#8] with pos := 7#64, res := 1#64 }) fun t => t.res = 0#64) ∧
      nextIs (exec .exh (sess p8 [])) fun t => t.res = 1#64 := by decide

/-- V2.1: `REM` at 12 of 16. -/
theorem test_rem :
    nextIs (exec .rem { sess p8 [0xB5#8, 0x3C#8] with pos := 12#64 }) fun t => t.res = 4#64 && t.pos = 12#64 := by decide

/-- V1.1: the codes of `3 3 3 3 3 2 4 4`. -/
theorem test_canon_codes :
    nextIs (exec (.canon .realAlpha) { sess p8 [] with
      table1 := lensTable [3#4, 3#4, 3#4, 3#4, 3#4, 2#4, 4#4, 4#4] }) fun t =>
      t.last = .ok && decide (t.table1.map CodeEntry.code = [2#16, 3#16, 4#16, 5#16, 6#16, 0#16, 14#16, 15#16]) := by
  decide

/-- V1.7 (b): over-subscribed by one. -/
theorem test_canon_over_subscribed :
    nextIs (exec (.canon .realAlpha) { sess p8 [] with table1 := lensTable (lensAt 8 [(0, 1#4), (1, 2#4), (2, 2#4), (3, 15#4)]) })
      fun t => t.last = .corruptHistogram && t.fatal && t.table1.all fun e => e.code = 0#16 := by decide

/-- V3.2: the incomplete tree of the codes `0` and `100`. -/
theorem test_build_incomplete :
    nextIs (exec (.build .realAlpha) { sess p8 [] with table1 := canonTable (lensAt 8 [(0, 1#4), (1, 3#4)]) }) fun t =>
      t.last = .ok &&
        decide (t.tree1 = .internal (.leaf 0#16) (.internal (.internal (.leaf 1#16) .empty) .empty)) := by decide

/-- V3.4: the stale code of a symbol whose length was rewritten collides. -/
theorem test_build_collision :
    nextIs (exec (.build .metaAlpha) { sess p8 [] with
      table0 := [⟨1#4, 0#16⟩, ⟨1#4, 2#16⟩, ⟨2#4, 3#16⟩] }) fun t =>
      t.last = .treeCollision && t.fatal && t.errKind = .treeCollision && decide (t.tree0 = .empty) := by decide

/-- V3.1: the first symbol of `0D`, and the end of the buffer at the root. -/
theorem test_decsym_symbol :
    (nextIs (exec (.decsym .realAlpha) (abcdSess [0x0D#8])) fun t => t.res = 1#64 && t.pos = 2#64) ∧
      nextIs (exec (.decsym .realAlpha) { abcdSess [0x0D#8] with pos := 8#64 })
        fun t => t.last = .treeMismatch && t.errSub = .exhaustion && t.pos = 8#64 && !t.fatal := by decide

/-- V3.2: an Empty node, without and with `EMPTY_ROLLBACK`. -/
theorem test_decsym_empty_node :
    (nextIs (exec (.decsym .realAlpha) { sess p8 [0x05#8, 0xFF#8] with tree1 := treeOf (lensAt 8 [(0, 1#4), (1, 3#4)]) })
      fun t => t.last = .treeMismatch && t.errSub = .emptyNode && t.pos = 3#64 && t.errPos = 3#64) ∧
    nextIs (exec (.decsym .realAlpha) { sess ⟨7#16, .drop, true⟩ [0x05#8, 0xFF#8] with
      tree1 := treeOf (lensAt 8 [(0, 1#4), (1, 3#4)]) })
      fun t => t.last = .treeMismatch && t.errSub = .emptyNode && t.pos = 0#64 && t.errPos = 0#64 := by decide

/-- V5.5: all six values. -/
theorem test_cldec_six_values :
    nextIs (exec .cldec (sess p8 [0xDC#8, 0xEC#8, 0x1F#8])) fun t =>
      t.last = .ok && t.pos = 21#64 && decide (t.space = 0) && t.numCodes = 6#5 &&
        decide (t.table0.map CodeEntry.len = lensAt 18 [(0, 5#4), (1, 1#4), (2, 2#4), (3, 3#4), (4, 4#4), (5, 5#4)]) &&
        decide ((t.table0.take 6).map CodeEntry.code = [30#16, 0#16, 2#16, 6#16, 14#16, 31#16]) := by decide +kernel

/-- V5.9: the 4-bit peek fails although two bits would have sufficed. -/
theorem test_cldec_four_bit_peek :
    nextIs (exec .cldec (sess p8 [0x03#8, 0x00#8, 0x00#8, 0x00#8])) fun t =>
      t.last = .insufficientBits && t.fatal && t.pos = 30#64 && t.errPos = 30#64 && decide (t.space = 32) := by
  decide +kernel

/-- V6.5 with `NSYM = 8`: a merged repeat of 3, forced out by a 17 that is left pending. -/
theorem test_lendec_merged_repeat :
    nextIs (exec .lendec (m1Sess p8 [0x0B#8, 0x20#8, 0x00#8])) fun t =>
      t.last = .ok && t.pos = 17#64 && decide (t.space = 0) && t.symPos = 8#17 && t.prevNz = 3#4 &&
        t.repCmd = .rep17 && t.repCount = 3 &&
        decide (t.table1 = (List.range 8).map fun i => ⟨3#4, BitVec.ofNat 16 i⟩) := by decide +kernel

/-- V6.12: the extra bits of a 17 are missing. -/
theorem test_lendec_missing_extra_bits :
    nextIs (exec .lendec (m1Sess p8 [0x8D#8])) fun t =>
      t.last = .insufficientBits && t.fatal && t.pos = 8#64 && decide (t.space = 16384) && t.symPos = 2#17 &&
        t.prevNz = 1#4 && t.repCmd = .rep17 && t.repCount = 0 := by decide +kernel

/-- V7.1: eight symbols, then half a code. -/
theorem test_strdec_half_a_code :
    nextIs (exec .strdec (abcdSess [0x32#8, 0xF9#8])) fun t =>
      t.last = .ok && t.res = 8#64 && t.pos = 14#64 && t.ending = .exhaustion &&
        decide (t.out = [0#16, 1#16, 0#16, 2#16, 0#16, 1#16, 0#16, 3#16]) := by decide +kernel

/-- V7.5: an Empty node ends the stream. -/
theorem test_strdec_empty_node :
    nextIs (exec .strdec { sess p8 [0x14#8] with tree1 := treeOf (lensAt 8 [(0, 1#4), (1, 3#4)]) }) fun t =>
      t.last = .ok && t.res = 2#64 && t.pos = 5#64 && t.ending = .emptyNode && t.errKind = .ok := by decide +kernel

/-- Program P4 under `NSYM = 8`. -/
theorem test_run_session :
    nextIs (exec .run (sess p8 [0x1E#8, 0x30#8, 0x26#8, 0x62#8, 0x14#8, 0x17#8])) fun t =>
      t.last = .ok && t.res = 4#64 && t.pos = 46#64 && t.ending = .exhaustion && t.symPos = 8#17 && t.prevNz = 3#4 &&
        t.numCodes = 3#5 && t.repCmd = .rep17 && t.repCount = 3 && decide (t.space = 0) &&
        decide (t.out = [5#16, 0#16, 7#16, 2#16]) := by decide +kernel

/-- Program P5: a corrupt stream. -/
theorem test_run_corrupt :
    nextIs (exec .run (sess p8 [0xDC#8, 0x09#8])) fun t =>
      t.last = .corruptHistogram && t.fatal && t.errPos = 13#64 && t.pos = 13#64 && decide (t.space = -8192) &&
        t.symPos = 3#17 && t.prevNz = 1#4 && decide (t.out = []) && t.res = 0#64 := by decide +kernel

/-- V7.11: `LOAD` while halted. -/
theorem test_load_recovers :
    nextIs (exec .load { sess p8 [0x0D#8] with
      bufLen := 9#32, pos := 5#64, fatal := true, last := .halted, errKind := .corruptHistogram, out := [1#16] }) fun t =>
      t.last = .ok && !t.fatal && t.errKind = .ok && t.bufLen = 1#32 && t.pos = 0#64 && decide (t.out = []) := by decide

/-- V8.2: the gate. -/
theorem test_gate :
    nextIs (exec (.peek 1#16) { sess p8 [] with fatal := true, errKind := .corruptHistogram, errPos := 13#64 })
      fun t => t.last = .halted && t.errKind = .corruptHistogram && t.errPos = 13#64 := by decide

/-- V8.1: an illegal word, by a step. -/
theorem test_illegal_word_step :
    nextIs (step { sess p8 [0xFF#8] with host := [.issue 0x30000001#32], pos := 3#64 }) fun t =>
      t.last = .illegalCommand && t.errKind = .illegalCommand && t.errPos = 3#64 && t.bufLen = 1#32 := by decide

/-- The word that the host places runs as the first command after reset. -/
theorem test_withFetchWord :
    nextIs (step (State.reset.withFetchWord 32 0x05000000)) fun t => t.res = 1#64 && decide (t.host = []) := by decide

/-- `STATUS` after P5's `RUN`: code 5 and the halt bit. -/
theorem test_status_word : statusWord { sess p8 [] with last := .corruptHistogram, fatal := true } = 0x15#64 := by decide

/-! ### Witnesses: states and operands that meet the hypotheses of each statement, clause by clause -/

theorem exists_of_nextIs {o : Host.Outcome State Fault Refusal} {f : State → Bool} (h : nextIs o f = true) :
    ∃ t, o = .next t ∧ f t = true := by
  cases o with
  | next t => exact ⟨t, rfl, h⟩
  | fault r => simp [nextIs] at h
  | refused r => simp [nextIs] at h

theorem witness_DecodeOfEncode : (Instr.peek 64#16).wf = true ∧ (Instr.adv 65535#16).wf = true ∧ Instr.load.wf = true := by
  decide

theorem witness_EncodeOfDecode : decode 0x10010000#32 = .ok (.canon .realAlpha) := by decide

/-- Each clause of the list of illegal words, alone. -/
theorem witness_IllegalWordsExactly :
    (opField 0x07000000#32 = 0x07#8 ∧ decode 0x07000000#32 = .error .unknownOp) ∧
      (zField 0x05020000#32 = 1#7 ∧ decode 0x05020000#32 = .error .reservedNotZero) ∧
      (tField 0x01010004#32 = 1#1 ∧ decode 0x01010004#32 = .error .strayTable) ∧
      (nField 0x05000001#32 = 1#16 ∧ decode 0x05000001#32 = .error .strayCount) ∧
      (nField 0x01000041#32 = 65#16 ∧ decode 0x01000041#32 = .error .countTooLarge) := by decide

/-- A session with one word issued. -/
def issued (w : Word) (s : State) : State := { s with host := [.issue w] }

/-- Every clause: a clean buffer; halted; a command that does not read the buffer; the refusal; nothing to do. -/
theorem witness_StepRunsDecodedCommand :
    ((issued 0x01000001#32 (sess p8 [0xB5#8])).host = .issue 0x01000001#32 :: [] ∧
        decode 0x01000001#32 = .ok (.peek 1#16) ∧ (sess p8 [0xB5#8]).liveWritten = false) ∧
      (issued 0x01000001#32 { sess p8 [] with fatal := true, liveWritten := true }).fatal = true ∧
      readsBuffer (.adv 1#16) = false ∧
      ((issued 0x01000001#32 { sess p8 [] with liveWritten := true }).liveWritten = true ∧
        (issued 0x01000001#32 { sess p8 [] with liveWritten := true }).fatal = false ∧
        readsBuffer (.peek 1#16) = true) ∧
      (sess p8 []).host = [] := by decide

theorem witness_FetchedWordRunsNext : decode 0x21000000#32 = .ok .lendec := by decide

theorem witness_IllegalWordOnlyRecords :
    (issued 0x07000000#32 (sess p8 [])).host = .issue 0x07000000#32 :: [] ∧
      decode 0x07000000#32 = .error .unknownOp ∧ (issued 0x07000000#32 (sess p8 [])).fatal = false := by decide

/-- A legal and an illegal word. -/
theorem witness_HaltedGate :
    (issued 0x30000001#32 { sess p8 [] with fatal := true }).fatal = true ∧
      decode 0x30000001#32 ≠ .ok .load ∧ decode 0x22000000#32 ≠ .ok .load := by decide

/-- Enough bits, just enough; one too few; 65. -/
theorem witness_PeekReturnsTheBits :
    (sess p8 (List.replicate 8 0xFF#8)).fatal = false ∧
      ((64#16).toNat ≤ 64 ∧
        (sess p8 (List.replicate 8 0xFF#8)).pos.toNat + (64#16).toNat ≤ (sess p8 (List.replicate 8 0xFF#8)).totalBits) ∧
      ((1#16).toNat ≤ 64 ∧ (sess p8 []).totalBits < (sess p8 []).pos.toNat + (1#16).toNat) ∧ 64 < (65#16).toNat := by
  decide

theorem witness_ReadReturnsTheBitsAndAdvances :
    (sess p8 [0xFF#8]).fatal = false ∧
      ((8#16).toNat ≤ 64 ∧ (sess p8 [0xFF#8]).pos.toNat + (8#16).toNat ≤ (sess p8 [0xFF#8]).totalBits) ∧
      ((9#16).toNat ≤ 64 ∧ (sess p8 [0xFF#8]).totalBits < (sess p8 [0xFF#8]).pos.toNat + (9#16).toNat) ∧
      64 < (65#16).toNat := by decide

/-- To the end and beyond it; to the start and before it. -/
theorem witness_AdvanceAndRetreatMoveTheCursor :
    (sess p8 [0xFF#8]).fatal = false ∧
      (sess p8 [0xFF#8]).pos.toNat + (8#16).toNat ≤ (sess p8 [0xFF#8]).totalBits ∧
      (sess p8 [0xFF#8]).totalBits < (sess p8 [0xFF#8]).pos.toNat + (9#16).toNat ∧
      (0#16).toNat ≤ (sess p8 [0xFF#8]).pos.toNat ∧ (sess p8 [0xFF#8]).pos.toNat < (1#16).toNat := by decide

/-- Exhausted, and not. -/
theorem witness_ExhaustedAndRemainingAreReported :
    ((sess p8 []).fatal = false ∧ CursorOk (sess p8 []) ∧ (sess p8 []).pos.toNat = (sess p8 []).totalBits) ∧
      (sess p8 [0xFF#8]).fatal = false ∧ CursorOk (sess p8 [0xFF#8]) ∧
        (sess p8 [0xFF#8]).pos.toNat ≠ (sess p8 [0xFF#8]).totalBits := by decide

/-- `READ 3` and then `READ 9` of `B5 3C` (V2.4). -/
theorem witness_ReadLaws :
    (sess p8 [0xB5#8, 0x3C#8]).fatal = false ∧ (3#16).toNat + (9#16).toNat ≤ 64 ∧
      ∃ t, exec (.read 3#16) (sess p8 [0xB5#8, 0x3C#8]) = .next t ∧ t.last = .ok ∧
        ∃ u, exec (.read 9#16) t = .next u ∧ u.last = .ok ∧ u.res = 0x196#64 :=
  ⟨by decide, by decide, _, rfl, rfl, _, rfl, rfl, by decide⟩

/-- Over-subscribed by one, and used up exactly, with an absent symbol. -/
theorem witness_CanonAssignsTheCanonicalCodes :
    ({ sess p8 [] with table1 := lensTable [1#4, 2#4, 2#4, 15#4] } : State).fatal = false ∧
      32768 < kraftSum (lensTable [1#4, 2#4, 2#4, 15#4]) ∧ kraftSum (lensTable [1#4, 0#4, 2#4, 2#4]) = 32768 := by decide

theorem witness_CanonicalCodesArePrefixFree :
    (abcdSess []).fatal = false ∧ ∃ u, exec (.canon .realAlpha) (abcdSess []) = .next u ∧ u.last = .ok ∧
      u.table1.length = 8 := by
  obtain ⟨u, h, hu⟩ := exists_of_nextIs (o := exec (.canon .realAlpha) (abcdSess []))
    (f := fun u => decide (u.last = .ok ∧ u.table1.length = 8)) (by decide +kernel)
  exact ⟨rfl, u, h, by simpa using hu⟩

theorem witness_BuildAfterCanonNeverCollides :
    (m1Sess p8 []).fatal = false ∧ ∃ u, exec (.canon .metaAlpha) (m1Sess p8 []) = .next u ∧ u.last = .ok := by
  obtain ⟨u, h, hu⟩ := exists_of_nextIs (o := exec (.canon .metaAlpha) (m1Sess p8 []))
    (f := fun u => decide (u.last = .ok)) (by decide +kernel)
  exact ⟨rfl, u, h, by simpa using hu⟩

/-- The same lengths under different codes. -/
theorem witness_CanonIsAFunctionOfTheLengths :
    (lensTable abcd).map CodeEntry.len = (canonTable abcd).map CodeEntry.len ∧ lensTable abcd ≠ canonTable abcd ∧
      ({ sess p8 [] with table1 := lensTable abcd } : State).fatal = false ∧ (abcdSess []).fatal = false ∧
      (∃ u, exec (.canon .realAlpha) { sess p8 [] with table1 := lensTable abcd } = .next u ∧ u.last = .ok) ∧
      ∃ u', exec (.canon .realAlpha) (abcdSess []) = .next u' ∧ u'.last = .ok := by
  obtain ⟨u, h, hu⟩ := exists_of_nextIs (o := exec (.canon .realAlpha) { sess p8 [] with table1 := lensTable abcd })
    (f := fun u => decide (u.last = .ok)) (by decide +kernel)
  obtain ⟨u', h', hu'⟩ := exists_of_nextIs (o := exec (.canon .realAlpha) (abcdSess []))
    (f := fun u => decide (u.last = .ok)) (by decide +kernel)
  exact ⟨by decide +kernel, by decide +kernel, rfl, rfl, ⟨u, h, by simpa using hu⟩, u', h', by simpa using hu'⟩

/-- A prefix-free table, and the stale codes of V3.4, of which one is a prefix of another. -/
theorem witness_BuildMakesTheTreeOfTheCodes :
    (abcdSess []).fatal = false ∧ PrefixFree (canonTable abcd) ∧
      ¬ PrefixFree [⟨1#4, 0#16⟩, ⟨1#4, 2#16⟩, ⟨2#4, 3#16⟩] :=
  ⟨rfl, (insertAll_empty_isSome_iff _).mp (by decide +kernel),
    fun h => (insertAll_empty_isSome_iff _).mpr h (by decide +kernel)⟩

/-- A Leaf (V3.1), the end of the buffer at an Internal node (V1.5), an Empty node after three bits (V3.2) and at the
root (V3.3). -/
theorem witness_DecsymWalksTheTree :
    ((abcdSess [0x0D#8]).fatal = false ∧ Holds (abcdSess [0x0D#8]) 0 [true, false] ∧
        (treeOf abcd).follow [true, false] = some (.leaf 1#16)) ∧
      (Holds { abcdSess [0xC0#8] with pos := 6#64 } 6 [true, true] ∧
        (treeOf abcd).follow [true, true] = some (.internal (.leaf 2#16) (.leaf 3#16)) ∧
        6 + [true, true].length = (abcdSess [0xC0#8]).totalBits) ∧
      (Holds (sess p8 [0x05#8, 0xFF#8]) 0 [true, false, true] ∧
        (treeOf (lensAt 8 [(0, 1#4), (1, 3#4)])).follow [true, false, true] = some .empty) ∧
      Holds (sess p8 [0xFF#8]) 0 [] ∧ (sess p8 [0xFF#8]).tree1.follow [] = some .empty := by decide +kernel

/-- Symbol 1 of "abcd", code `10`, at the start of `0D`. -/
theorem witness_BuiltTreeDecodesEveryCode :
    (1 < (abcdSess [0x0D#8]).table1.length ∧ (abcdSess [0x0D#8]).fatal = false ∧
        (canonTable abcd)[1]? = some ⟨2#4, 2#16⟩ ∧
        (abcdSess [0x0D#8]).pos.toNat + (2#4).toNat ≤ (abcdSess [0x0D#8]).totalBits ∧
        ∀ j, j < 2 → bitAt (abcdSess [0x0D#8]) (0 + j) = (2#16).getLsbD (2 - 1 - j)) ∧
      ∃ u, exec (.build .realAlpha) (abcdSess [0x0D#8]) = .next u ∧ u.last = .ok := by
  obtain ⟨u, h, hu⟩ := exists_of_nextIs (o := exec (.build .realAlpha) (abcdSess [0x0D#8]))
    (f := fun u => decide (u.last = .ok)) (by decide +kernel)
  exact ⟨by decide +kernel, u, h, by simpa using hu⟩

theorem witness_DecsymReadsOneToFifteenBits :
    (abcdSess [0x0D#8]).fatal = false ∧ CursorOk (abcdSess [0x0D#8]) ∧
      ((abcdSess [0x0D#8]).tree .realAlpha).wf (tableSize p8 .realAlpha) = true ∧
      ∃ u, exec (.decsym .realAlpha) (abcdSess [0x0D#8]) = .next u ∧ u.last = .ok := by
  obtain ⟨u, h, hu⟩ := exists_of_nextIs (o := exec (.decsym .realAlpha) (abcdSess [0x0D#8]))
    (f := fun u => decide (u.last = .ok)) (by decide +kernel)
  exact ⟨rfl, by decide, by decide +kernel, u, h, by simpa using hu⟩

theorem witness_PrefixTableMatchesThePatterns : (15 < 16 ∧ 5 < 6) ∧ (clpfx 15).1 = BitVec.ofNat 4 5 := by decide

/-- All six values, which use up the space (V5.5), and a single code after which all slots are read (V5.6). -/
theorem witness_CldecDecodesAcceptedLengths :
    ((sess p8 [0xDC#8, 0xEC#8, 0x1F#8]).fatal = false ∧ ClAccepted 0 [1#4, 2#4, 3#4, 4#4, 5#4, 5#4] ∧
        Holds (sess p8 [0xDC#8, 0xEC#8, 0x1F#8]) 0 (clStream 0 [1#4, 2#4, 3#4, 4#4, 5#4, 5#4]) ∧
        0 + (clStream 0 [1#4, 2#4, 3#4, 4#4, 5#4]).length + 4 ≤ (sess p8 [0xDC#8, 0xEC#8, 0x1F#8]).totalBits) ∧
      ClAccepted 0 (3#4 :: List.replicate 17 0#4) ∧
        Holds (sess p8 [0x08#8, 0x00#8, 0x00#8, 0x00#8, 0x00#8]) 0 (clStream 0 (3#4 :: List.replicate 17 0#4)) ∧
        0 + (clStream 0 (3#4 :: List.replicate 16 0#4)).length + 4 ≤
          (sess p8 [0x08#8, 0x00#8, 0x00#8, 0x00#8, 0x00#8]).totalBits := by decide +kernel

theorem witness_CldecWritesOnlyItsState : (sess p8 [0xDC#8, 0xFD#8]).fatal = false := by decide

/-- Two codes that use up the space, and a single one (V5.2, V5.6). -/
theorem witness_CldecGuarantees :
    (∃ u, exec .cldec (sess p8 [0xDC#8, 0xFD#8]) = .next u ∧ u.last = .ok ∧ u.space = 0) ∧
      ∃ u, exec .cldec (sess p8 [0x08#8, 0x00#8, 0x00#8, 0x00#8, 0x00#8]) = .next u ∧ u.last = .ok ∧ u.numCodes = 1#5 := by
  obtain ⟨u, h, hu⟩ := exists_of_nextIs (o := exec .cldec (sess p8 [0xDC#8, 0xFD#8]))
    (f := fun u => decide (u.last = .ok ∧ u.space = 0)) (by decide +kernel)
  obtain ⟨u', h', hu'⟩ := exists_of_nextIs (o := exec .cldec (sess p8 [0x08#8, 0x00#8, 0x00#8, 0x00#8, 0x00#8]))
    (f := fun u => decide (u.last = .ok ∧ u.numCodes = 1#5)) (by decide +kernel)
  exact ⟨⟨u, h, by simpa using hu⟩, u', h', by simpa using hu'⟩

/-- Without a run pending at the end (V6.5 with `NSYM = 8`), and with one that the policy `Flush` applies (V6.14). -/
theorem witness_LendecDecodesAcceptedItems :
    ((m1Sess p8 [0x0B#8, 0x20#8, 0x00#8]).fatal = false ∧
        LenAccepted p8 false [.lit 3#4, .rep16 0#2, .rep16 0#2, .rep17 0#3] ∧
        (∀ i ∈ [LenItem.lit 3#4, .rep16 0#2, .rep17 0#3],
          pathOf m1 i.sym ≠ [] ∧ (treeOf m1).follow (pathOf m1 i.sym) = some (.leaf i.sym)) ∧
        Holds (m1Sess p8 [0x0B#8, 0x20#8, 0x00#8]) 0
          (lenStream (pathOf m1) [.lit 3#4, .rep16 0#2, .rep16 0#2, .rep17 0#3])) ∧
      LenAccepted ⟨7#16, .flush, false⟩ true [.lit 2#4, .rep16 0#2] ∧
        Holds (m1Sess ⟨7#16, .flush, false⟩ [0x03#8]) 0 (lenStream (pathOf m1) [.lit 2#4, .rep16 0#2]) ∧
        0 + (lenStream (pathOf m1) [.lit 2#4, .rep16 0#2]).length =
          (m1Sess ⟨7#16, .flush, false⟩ [0x03#8]).totalBits := by decide +kernel

theorem witness_LendecWritesOnlyItsState : (m1Sess p8 [0xED#8]).fatal = false := by decide

theorem witness_LendecAcceptsOnlyCompleteCodes :
    ∃ u, exec .lendec (m1Sess p8 [0xED#8]) = .next u ∧ u.last = .ok := by
  obtain ⟨u, h, hu⟩ := exists_of_nextIs (o := exec .lendec (m1Sess p8 [0xED#8])) (f := fun u => decide (u.last = .ok))
    (by decide +kernel)
  exact ⟨u, h, by simpa using hu⟩

/-- The three ends of part 4: V7.4, V7.1, V7.5. -/
theorem witness_StrdecDecodesToTheEnd :
    (((abcdSess [0x0D#8]).fatal = false ∧
          (∀ y ∈ [0#16, 1#16, 2#16, 3#16], pathOf abcd y ≠ [] ∧ (treeOf abcd).follow (pathOf abcd y) = some (.leaf y)) ∧
          Holds (abcdSess [0x0D#8]) 0 (symStream (pathOf abcd) [1#16, 2#16, 0#16, 0#16, 0#16] ++ [])) ∧
        StreamEnds (abcdSess [0x0D#8]) (treeOf abcd)
          (0 + (symStream (pathOf abcd) [1#16, 2#16, 0#16, 0#16, 0#16]).length) [] .none) ∧
      (Holds (abcdSess [0x32#8, 0xF9#8]) 0
          (symStream (pathOf abcd) [0#16, 1#16, 0#16, 2#16, 0#16, 1#16, 0#16, 3#16] ++ [true, true]) ∧
        StreamEnds (abcdSess [0x32#8, 0xF9#8]) (treeOf abcd)
          (0 + (symStream (pathOf abcd) [0#16, 1#16, 0#16, 2#16, 0#16, 1#16, 0#16, 3#16]).length) [true, true]
          .exhaustion) ∧
      (Holds (sess p8 [0x14#8]) 0
          (symStream (pathOf (lensAt 8 [(0, 1#4), (1, 3#4)])) [0#16, 0#16] ++ [true, false, true]) ∧
        StreamEnds (sess p8 [0x14#8]) (treeOf (lensAt 8 [(0, 1#4), (1, 3#4)]))
          (0 + (symStream (pathOf (lensAt 8 [(0, 1#4), (1, 3#4)])) [0#16, 0#16]).length) [true, false, true]
          .emptyNode) := by
  refine ⟨⟨⟨rfl, ?_, by decide +kernel⟩, rfl, by decide +kernel⟩,
    ⟨by decide +kernel, by decide, by decide +kernel, .leaf 2#16, .leaf 3#16, by decide +kernel⟩,
    by decide +kernel, by decide +kernel, by decide +kernel⟩
  simp only [List.forall_mem_cons]
  exact ⟨by decide +kernel, by decide +kernel, by decide +kernel, by decide +kernel, fun _ h => absurd h List.not_mem_nil⟩

theorem witness_StrdecAlwaysEndsOk : (abcdSess [0x0D#8]).fatal = false ∧ (abcdSess [0x0D#8]).tree1.isLeaf = false := by
  decide +kernel

/-- `RUN` ends `OK` (P4), raises in `CLDEC` (V5.12) and in `LENDEC` (P5), and is refused while halted. -/
theorem witness_RunIsTheFiveCommands :
    (∃ t, exec .run (sess p8 [0x1E#8, 0x30#8, 0x26#8, 0x62#8, 0x14#8, 0x17#8]) = .next t ∧ t.last = .ok) ∧
      (∃ t, exec .run (sess p8 [0x00#8]) = .next t ∧ t.last ≠ .ok ∧ (sess p8 [0x00#8]).fatal = false) ∧
      (∃ t, exec .run (sess p8 [0xDC#8, 0x09#8]) = .next t ∧ t.last ≠ .ok ∧ (sess p8 [0xDC#8, 0x09#8]).fatal = false) ∧
      ∃ t, exec .run { sess p8 [] with fatal := true } = .next t ∧ t.last ≠ .ok := by
  obtain ⟨a, ha, ha'⟩ := exists_of_nextIs (o := exec .run (sess p8 [0x1E#8, 0x30#8, 0x26#8, 0x62#8, 0x14#8, 0x17#8]))
    (f := fun u => decide (u.last = .ok)) (by decide +kernel)
  obtain ⟨b, hb, hb'⟩ := exists_of_nextIs (o := exec .run (sess p8 [0x00#8]))
    (f := fun u => decide (u.last ≠ .ok)) (by decide +kernel)
  obtain ⟨c, hc, hc'⟩ := exists_of_nextIs (o := exec .run (sess p8 [0xDC#8, 0x09#8]))
    (f := fun u => decide (u.last ≠ .ok)) (by decide +kernel)
  obtain ⟨d, hd, hd'⟩ := exists_of_nextIs (o := exec .run { sess p8 [] with fatal := true })
    (f := fun u => decide (u.last ≠ .ok)) (by decide +kernel)
  exact ⟨⟨a, ha, by simpa using ha'⟩, ⟨b, hb, by simpa using hb', rfl⟩, ⟨c, hc, by simpa using hc', rfl⟩,
    d, hd, by simpa using hd'⟩

/-- The code-length values of P4. -/
def p4Vals : List CodeLen := [1#4, 0#4, 0#4, 0#4, 2#4, 0#4, 2#4]

/-- The items of P4. -/
def p4Items : List LenItem := [.lit 3#4, .rep16 0#2, .rep16 0#2, .rep17 0#3]

/-- P4 under `NSYM = 8`, every hypothesis. -/
theorem witness_RunDecodesAWholeSession :
    ((sess p8 [0x1E#8, 0x30#8, 0x26#8, 0x62#8, 0x14#8, 0x17#8]).fatal = false ∧ ClAccepted 2 p4Vals ∧
        LenAccepted p8 false p4Items ∧
        insertAll (canonTable (clLens 2 p4Vals)) 0 .empty = some (treeOf (clLens 2 p4Vals)) ∧
        insertAll (canonTable (padLens 8 (lenFinal false p4Items).lens)) 0 .empty =
          some (treeOf (List.replicate 8 3#4)) ∧
        (∀ i ∈ p4Items, (treeOf (clLens 2 p4Vals)).follow (pathOf (clLens 2 p4Vals) i.sym) = some (.leaf i.sym)) ∧
        (∀ y ∈ [5#16, 0#16, 7#16, 2#16],
          (treeOf (List.replicate 8 3#4)).follow (pathOf (List.replicate 8 3#4) y) = some (.leaf y)) ∧
        Holds (sess p8 [0x1E#8, 0x30#8, 0x26#8, 0x62#8, 0x14#8, 0x17#8]) 0
          (clStream 2 p4Vals ++ lenStream (pathOf (clLens 2 p4Vals)) p4Items ++
            symStream (pathOf (List.replicate 8 3#4)) [5#16, 0#16, 7#16, 2#16] ++ [false, false]) ∧
        0 + (clStream 2 p4Vals.dropLast).length + 4 ≤
          (sess p8 [0x1E#8, 0x30#8, 0x26#8, 0x62#8, 0x14#8, 0x17#8]).totalBits) ∧
      StreamEnds (sess p8 [0x1E#8, 0x30#8, 0x26#8, 0x62#8, 0x14#8, 0x17#8]) (treeOf (List.replicate 8 3#4))
        (0 + (clStream 2 p4Vals ++ lenStream (pathOf (clLens 2 p4Vals)) p4Items ++
          symStream (pathOf (List.replicate 8 3#4)) [5#16, 0#16, 7#16, 2#16]).length) [false, false] .exhaustion := by
  refine ⟨⟨rfl, by decide +kernel, by decide +kernel, by decide +kernel, by decide +kernel, by decide +kernel, ?_,
    by decide +kernel, by decide +kernel⟩, by decide, by decide +kernel, .leaf 0#16, .leaf 1#16, by decide +kernel⟩
  simp only [List.forall_mem_cons]
  exact ⟨by decide +kernel, by decide +kernel, by decide +kernel, by decide +kernel, fun _ h => absurd h List.not_mem_nil⟩

/-- A raise in each of the two length phases, and one with a sub-cause (V7.9). -/
theorem witness_RunErrorAppendsNothing :
    (∃ t, exec .run (sess p8 [0xDC#8, 0x09#8]) = .next t ∧ t.last = .corruptHistogram) ∧
      ∃ t, exec .run (sess p8 [0x08#8, 0x00#8, 0x00#8, 0x00#8, 0x00#8]) = .next t ∧ t.last = .treeMismatch := by
  obtain ⟨a, ha, ha'⟩ := exists_of_nextIs (o := exec .run (sess p8 [0xDC#8, 0x09#8]))
    (f := fun u => decide (u.last = .corruptHistogram)) (by decide +kernel)
  obtain ⟨b, hb, hb'⟩ := exists_of_nextIs (o := exec .run (sess p8 [0x08#8, 0x00#8, 0x00#8, 0x00#8, 0x00#8]))
    (f := fun u => decide (u.last = .treeMismatch)) (by decide +kernel)
  exact ⟨⟨a, ha, by simpa using ha'⟩, b, hb, by simpa using hb'⟩

theorem witness_RaiseFillsTheErrorRecord :
    (sess p8 []).fatal = false ∧ advance 1 (sess p8 []) = .raised .positionOverflow .none (sess p8 []) := by decide

/-- A fatal raise, one that is not fatal, and an illegal word. -/
theorem witness_FatalRaisesAreTheStructuralOnes :
    (∃ t, exec .cldec (sess p8 []) = .next t ∧ (sess p8 []).fatal = false ∧ t.fatal = true) ∧
      (∃ t, exec (.peek 1#16) (sess p8 []) = .next t ∧ t.last ≠ .ok ∧ t.fatal = false) ∧
      (issued 0x07000000#32 (sess p8 [])).host = .issue 0x07000000#32 :: [] ∧
      decode 0x07000000#32 = .error .unknownOp ∧
      ∃ t, step (issued 0x07000000#32 (sess p8 [])) = .next t := by
  exact ⟨⟨_, rfl, rfl, rfl⟩, ⟨_, rfl, by decide, rfl⟩, rfl, by decide, _, rfl⟩

/-- An `OK` end, a `Halted` end, an error. -/
theorem witness_EveryErrorIsRecorded :
    Instr.exh ≠ .load ∧ (∃ t, exec .exh (sess p8 []) = .next t ∧ t.last = .ok) ∧
      (∃ t, exec .exh { sess p8 [] with fatal := true } = .next t ∧ t.last = .halted) ∧
      ∃ t, exec (.adv 1#16) (sess p8 []) = .next t ∧ t.last ≠ .ok ∧ t.last ≠ .halted :=
  ⟨by decide, ⟨_, rfl, rfl⟩, ⟨_, rfl, rfl⟩, _, rfl, by decide, by decide⟩

theorem witness_ResultIsWrittenOnlyOnSuccess :
    Instr.adv 1#16 ≠ .load ∧ (∃ t, exec (.read 1#16) (sess p8 []) = .next t ∧ t.last ≠ .ok) ∧
      ∃ t, exec (.adv 1#16) (sess p8 [0xFF#8]) = .next t ∧ t.last = .ok :=
  ⟨by decide, ⟨_, rfl, by decide⟩, _, rfl, by decide⟩

/-- Reset, and a legal `LOAD`. -/
theorem witness_OnlyLoadAndResetClearFatal :
    (∃ t, step { sess p8 [] with fatal := true, host := [.reset] } = .next t ∧ t.fatal = false) ∧
      ∃ t, step (issued 0x30000000#32 { sess p8 [] with fatal := true }) = .next t ∧ t.fatal = false :=
  ⟨⟨_, rfl, rfl⟩, _, rfl, rfl⟩

theorem witness_CommandsNeverWriteTheBuffer :
    ∃ t, exec .load (sess p8 [0xFF#8]) = .next t ∧ t.buf = [(0, 0xFF#8)] := ⟨_, rfl, by decide⟩

theorem witness_EachElementHasItsWriters :
    Instr.exh ≠ .load ∧ ∃ t, exec .exh (sess p8 [0xFF#8]) = .next t ∧ t.last = .ok := ⟨by decide, _, rfl, rfl⟩

theorem witness_OutputOnlyGrows :
    Instr.strdec ≠ .load ∧ ∃ t, exec .strdec (abcdSess [0x0D#8]) = .next t ∧ t.out.length = 5 := by
  obtain ⟨t, h, ht⟩ := exists_of_nextIs (o := exec .strdec (abcdSess [0x0D#8])) (f := fun u => decide (u.out.length = 5))
    (by decide +kernel)
  exact ⟨by decide, t, h, by simpa using ht⟩

/-- A byte beyond `BUF_LEN` differs. -/
theorem witness_BytesBeyondTheBufferAreNeverRead :
    ∀ a, a < (sess p8 [0x0D#8]).bufLen.toNat →
      bufByte { sess p8 [0x0D#8] with buf := [(0, 0x0D#8), (1, 0x77#8)], resets := 0 } a = bufByte (sess p8 [0x0D#8]) a := by
  decide

theorem witness_EveryCommandEnds : (abcdSess [0x0D#8]).tree1.isLeaf = false ∧ (sess p8 []).tree1.isLeaf = false := by
  decide +kernel

/-- A command and a host write from states that meet the invariant. -/
theorem witness_StepKeepsTheInvariant :
    (State.Inv (issued 0x22000000#32 (abcdSess [0x0D#8])) ∧
        ∃ t, step (issued 0x22000000#32 (abcdSess [0x0D#8])) = .next t ∧ t.out.length = 5) ∧
      State.Inv { sess p8 [0x0D#8] with host := [.writeBuf 0 1#8] } ∧
        ∃ t, step { sess p8 [0x0D#8] with host := [.writeBuf 0 1#8] } = .next t ∧ t.liveWritten = true := by
  obtain ⟨t, h, ht⟩ := exists_of_nextIs (o := step (issued 0x22000000#32 (abcdSess [0x0D#8])))
    (f := fun u => decide (u.out.length = 5)) (by decide +kernel)
  obtain ⟨u, hu, hu'⟩ := exists_of_nextIs (o := step { sess p8 [0x0D#8] with host := [.writeBuf 0 1#8] })
    (f := fun u => u.liveWritten) (by decide +kernel)
  refine ⟨⟨⟨by decide +kernel, by decide +kernel, by decide +kernel, by decide +kernel, by decide +kernel,
    by decide +kernel, by decide +kernel, ?_⟩, t, h, by simpa using ht⟩, ⟨by decide +kernel, by decide +kernel,
    by decide +kernel, by decide +kernel, by decide +kernel, by decide +kernel, by decide +kernel, ?_⟩, u, hu, hu'⟩
  · intro y hy
    exact absurd hy List.not_mem_nil
  · intro y hy
    exact absurd hy List.not_mem_nil

/-- Halted; the last entry of a table; the first index beside it. -/
theorem witness_HostWritesLengths :
    ({ sess p8 [] with fatal := true, host := [.writeLen .metaAlpha 17 5#4] } : State).fatal = true ∧
      ({ sess p8 [] with host := [.writeLen .metaAlpha 17 5#4] } : State).host = .writeLen .metaAlpha 17 5#4 :: [] ∧
      (sess p8 []).fatal = false ∧ 17 < ((sess p8 []).table .metaAlpha).length ∧
      ((sess p8 []).table .metaAlpha).length ≤ 18 ∧ 7 < ((sess p8 []).table .realAlpha).length ∧
      ((sess p8 []).table .realAlpha).length ≤ 8 := by decide

/-- The last byte of `BUF`, and the first address beyond it. -/
theorem witness_HostWritesBytes :
    ({ sess p8 [] with host := [.writeBuf 4294967294 1#8] } : State).host = .writeBuf 4294967294 1#8 :: [] ∧
      4294967294 < 2 ^ 32 - 1 ∧ 2 ^ 32 - 1 ≤ 4294967295 := by decide

/-- Each clause. -/
theorem witness_HostWritesNothingElse :
    ({ sess p8 [] with host := [.writeLenIn 7#32] } : State).host = .writeLenIn 7#32 :: [] ∧
      ({ sess p8 [] with host := [.writeReadOnly .pos 7#64] } : State).host = .writeReadOnly .pos 7#64 :: [] ∧
      (sess p8 []).out.length ≤ 0 := by decide

theorem witness_HostAppliesReset : ({ sess p8 [] with host := [.reset] } : State).host = .reset :: [] := by decide

end Sys2Proof.Tests
end

section
/-!
Reset with the default parameters (00_scope.md R6, 10_state.md R39).
-/
namespace Sys2Proof.Machine

/-- R6 defaults `NSYM` to 256; the parameters hold its greatest symbol, 255. -/
@[simp] theorem Params.nsym_default : Params.default.nsym = 256 := rfl

/-- The sizes of the two tables are the only reset values that are computed: `NCL` entries for table 0, and `NSYM` of
the default parameters for table 1. -/
theorem State.reset_tables :
    State.reset.table0 = List.replicate 18 ⟨0#4, 0#16⟩ ∧ State.reset.table1 = List.replicate 256 ⟨0#4, 0#16⟩ := by
  constructor
  · rfl
  · rw [State.reset, State.resetOf, Params.nsym_default]

/-- Settles O50: the two tables by their sizes, every other field as `State.resetOf` lists it. -/
theorem resetLeavesTheListedValues : Obligations.ResetLeavesTheListedValues := by
  unfold Obligations.ResetLeavesTheListedValues
  obtain ⟨h0, h1⟩ := State.reset_tables
  rw [← h0, ← h1]
  rfl

end Sys2Proof.Machine
end

section
/-!
What the host's next move does (60_exceptions.md R220, R227), as cases: no later proof unfolds `step` or `issueWord`.
-/
namespace Sys2Proof.Machine

/-- A step takes the host's next move. -/
theorem step_of_host {s : State} {m : HostMove} {moves : List HostMove} (h : s.host = m :: moves) :
    step s = hostMove m { s with host := moves } := by simp only [step, h]

/-- HPTD is idle when the host has no move left (assumption 3). -/
theorem step_idle {s : State} (h : s.host = []) : step s = .next s := by simp only [step, h]

/-- Everything a step can do when it answers a next state. -/
theorem step_cases {s t : State} (h : step s = .next t) :
    (s.host = [] ∧ t = s) ∨
      ∃ m moves, s.host = m :: moves ∧ hostMove m { s with host := moves } = .next t := by
  cases hh : s.host with
  | nil =>
    rw [step_idle hh] at h
    exact .inl ⟨rfl, (Host.Outcome.next.inj h).symm⟩
  | cons m moves =>
    rw [step_of_host hh] at h
    exact .inr ⟨m, moves, rfl, h⟩

/-- Everything issuing a word can do when it answers a next state: the word is illegal, or its command ran. -/
theorem issueWord_cases {w : Word} {s t : State} (h : issueWord w s = .next t) :
    (∃ e, decode w = .error e ∧ t = issueIllegal s) ∨ ∃ i, decode w = .ok i ∧ exec i s = .next t := by
  cases hd : decode w with
  | error e =>
    simp only [issueWord, hd, Host.Outcome.next.injEq] at h
    exact .inl ⟨e, rfl, h.symm⟩
  | ok i =>
    simp only [issueWord, hd] at h
    split at h
    · cases h
    · exact .inr ⟨i, rfl, h⟩

/-- An illegal word is refused while halted, else recorded (60_exceptions.md R217, R218). -/
theorem issueIllegal_cases (s : State) :
    (s.fatal = true ∧ issueIllegal s = refuseHalted s) ∨
      (s.fatal = false ∧ issueIllegal s = takeError false .illegalCommand .none s) := by
  cases hf : s.fatal <;> simp [issueIllegal, hf]

end Sys2Proof.Machine
end

section
/-!
Noninterference: the bytes beyond `BUF_LEN` (20_memory.md R67, 93_implementation_defined.md U11). Every body is `Blind`
to them, and the wrapper around it looks at `STATUS.FATAL` alone.
-/
namespace Sys2Proof.Machine

/-- The state with other contents of the buffer: the bytes the host wrote, and those that reset left. -/
def withBytes (m : Memory) (k : Nat) (s : State) : State := { s with buf := m, resets := k }

/-- An outcome with its next state changed. -/
def mapNext (g : State → State) : Host.Outcome State Fault Refusal → Host.Outcome State Fault Refusal
  | .next t => .next (g t)
  | .fault f => .fault f
  | .refused r => .refused r

theorem command_stuck {fatal : Bool} {body : State → Ret Unit} {s : State} (h : s.fatal = false)
    (hb : body s = .stuck) : command fatal body s = .fault .neverEnds := by simp [command, h, hb]

/-- A command whose body does not see the bytes beyond `BUF_LEN` does not see them either: whichever way it ends,
`STATUS.LAST` is written, so what the body's state held there does not matter. -/
theorem command_withBytes {fatal : Bool} {body : State → Ret Unit} {m : Memory} {k : Nat} {s : State}
    (hb : Blind m k s.last body) (hs : SameBytes m k s) :
    command fatal body (withBytes m k s) = mapNext (withBytes m k) (command fatal body s) := by
  have hbody : body (withBytes m k s) = (body s).mapState (overlay m k s.last) := (hb s hs).1
  cases hf : s.fatal with
  | true => rw [command_halted hf, command_halted (s := withBytes m k s) hf]; rfl
  | false =>
    have hf' : (withBytes m k s).fatal = false := hf
    cases hr : body s with
    | done v t =>
      rw [hr] at hbody
      rw [command_done hf hr, command_done hf' hbody]; rfl
    | raised c sub t =>
      rw [hr] at hbody
      rw [command_raised hf hr, command_raised hf' hbody]; rfl
    | stuck =>
      rw [hr] at hbody
      rw [command_stuck hf hr, command_stuck hf' hbody]; rfl

/-- No command sees the bytes beyond `BUF_LEN`. `LOAD` reads none and keeps them. -/
theorem exec_withBytes (i : Instr) {m : Memory} {k : Nat} {s : State} (hs : SameBytes m k s) :
    exec i (withBytes m k s) = mapNext (withBytes m k) (exec i s) := by
  by_cases hi : i = .load
  · subst hi; rfl
  · rw [exec_eq_command hi, exec_eq_command hi]
    exact command_withBytes (blind_bodyOf hi m k s.last) hs

/-- Settles O46: the outcome in the other buffer is the outcome in this one with the buffer exchanged. -/
theorem bytesBeyondTheBufferAreNeverRead : Obligations.BytesBeyondTheBufferAreNeverRead := by
  unfold Obligations.BytesBeyondTheBufferAreNeverRead
  intro i s m k hs
  refine (exec_withBytes i hs).trans ?_
  cases exec i s <;> rfl

end Sys2Proof.Machine
end

section
/-!
The invariant (10_state.md R22 to R36): what the bodies of the commands keep of tables, trees, working registers and
output, and how the wrapper, the host's moves and reset put it together.
-/
namespace Sys2Proof.Machine

/-- What the invariant asks of tables, trees, working registers and output. `gap` says when a repeat command may stand
without its count, which 10_state.md R29 allows after one fatal raise only. -/
structure Sound (gap : Prop) (s : State) : Prop where
  tables : TablesOk s
  trees : TreesOk s
  work : WorkOk s
  counts : s.repCount = 0 ∨ 3 ≤ s.repCount
  noCmd : s.repCmd = .none → s.repCount = 0
  noCount : s.repCmd ≠ .none → s.repCount = 0 → gap
  out : OutOk s

/-- Before a command, not halted, no repeat command stands without its count. -/
theorem State.Inv.sound {s : State} (h : s.Inv) (hf : s.fatal = false) : Sound False s := by
  obtain ⟨-, -, htab, htree, hwork, ⟨hcount, hcmd, hgap⟩, -, hout⟩ := h
  refine ⟨htab, htree, hwork, hcount, hcmd, fun h1 h2 => ?_, hout⟩
  have := hgap h1 h2
  simp [hf] at this

theorem Sound.weaken {gap : Prop} {s : State} (h : Sound False s) : Sound gap s :=
  { h with noCount := fun h1 h2 => (h.noCount h1 h2).elim }

/-! ### What the bodies write -/

/-- A command that is not named for a table, a tree, a working register or the output keeps all this. -/
theorem Sound.of_frame {gap : Prop} {i : Instr} {s t : State} (h : Sound gap s) (hF : Frame i s t)
    (hcanon : ∀ a, i ≠ .canon a) (hbuild : ∀ a, i ≠ .build a) (hcl : i ≠ .cldec) (hlen : i ≠ .lendec)
    (hstr : i ≠ .strdec) (hrun : i ≠ .run) : Sound gap t := by
  obtain ⟨hparams, -⟩ := hF.fixed
  obtain ⟨hout, -⟩ := hF.stream hstr hrun
  obtain ⟨hsym, hprev, hcmd, hcount⟩ := hF.runs hlen hrun
  constructor
  · simpa only [TablesOk, hparams, hF.table0 hcl (hcanon _) hrun, hF.table1 hlen (hcanon _) hrun] using h.tables
  · simpa only [TreesOk, hparams, hF.tree0 (hbuild _) hrun, hF.tree1 (hbuild _) hrun] using h.trees
  · simpa only [WorkOk, hparams, hF.space hcl hlen hrun, hsym, hprev, hF.number hcl hrun] using h.work
  · simpa only [hcount] using h.counts
  · simpa only [hcmd, hcount] using h.noCmd
  · simpa only [hcmd, hcount] using h.noCount
  · simpa only [OutOk, hparams, hout] using h.out

theorem Sound.size {gap : Prop} {s : State} (h : Sound gap s) (a : Alphabet) :
    (s.table a).length = tableSize s.params a := by
  cases a
  · exact h.tables.1
  · exact h.tables.2

/-- A table replaced by one of its size. -/
theorem Sound.setTable {gap : Prop} {s : State} (h : Sound gap s) {a : Alphabet} {tab : List CodeEntry}
    (hl : tab.length = (s.table a).length) : Sound gap (s.setTable a tab) := by
  rw [h.size] at hl
  cases a
  · exact { h with tables := ⟨hl, h.tables.2⟩ }
  · exact { h with tables := ⟨h.tables.1, hl⟩ }

/-- A tree replaced by one that `BUILD` can make. -/
theorem Sound.setTree {gap : Prop} {s : State} (h : Sound gap s) {a : Alphabet} {tree : Node}
    (hw : tree.wf (tableSize s.params a) = true) : Sound gap (s.setTree a tree) := by
  cases a
  · exact { h with trees := ⟨hw, h.trees.2⟩ }
  · exact { h with trees := ⟨h.trees.1, hw⟩ }

theorem tableSize_le (p : Params) (a : Alphabet) : tableSize p a ≤ 65536 := by
  cases a with
  | metaAlpha => exact (by decide : Config.ncl ≤ 65536)
  | realAlpha => exact nsym_le p

/-- A tree built from the table. -/
theorem Sound.build {gap : Prop} {s : State} (h : Sound gap s) {a : Alphabet} {tree : Node}
    (ht : insertAll (s.table a) 0 .empty = some tree) : Sound gap (s.setTree a tree) := by
  have hw := insertAll_empty_wf ht ((h.size a).trans_le (tableSize_le _ _))
  exact h.setTree (h.size a ▸ hw)

/-- `SPACE` keeps the range of 10_state.md R26: 18 lengths take at most 288 out of the code space of 32. -/
theorem ClInv.space_bounds {slots : List Nat} {tab : List CodeEntry} {space : Int} {num : BitVec 5}
    (h : ClInv slots tab space num) : -(2 ^ 30) < space ∧ space ≤ 32768 := by
  have hk := kraftSum_le tab
  have hcost := h.cost
  rw [h.size, Config.ncl] at hk
  omega

/-- What `CLDec` writes. -/
theorem Sound.codeLengths {gap : Prop} {s : State} (h : Sound gap s) {tab tab' : List CodeEntry} {space : Int}
    {num : BitVec 5} (hi : ClInv [] tab space num) (hl : tab'.length = tab.length) (p : Reg64) :
    Sound gap { s with pos := p, table0 := tab', space := space, numCodes := num } := by
  obtain ⟨hlo, hhi⟩ := hi.space_bounds
  obtain ⟨-, -, hsym, hprev, -⟩ := h.work
  exact { h with
    tables := ⟨hl.trans hi.size, h.tables.2⟩
    work := ⟨hlo, hhi, hsym, hprev, hi.number_le⟩ }

/-- What `LenDec` writes. Whether a repeat command stood without its count before does not matter. -/
theorem Sound.runLengths {gap gap' : Prop} {s : State} (h : Sound gap s) {tab tab' : List CodeEntry} {space : Int}
    {sym : BitVec 17} {prev : CodeLen} {cmd : RepCmd} {count : Nat}
    (hi : LnInv s.params.nsym tab space sym prev cmd count) (hl : tab'.length = tab.length)
    (hg : cmd ≠ .none → count = 0 → gap') (p : Reg64) :
    Sound gap' { s with
      pos := p, table1 := tab', space := space, symPos := sym, prevNz := prev, repCmd := cmd, repCount := count } := by
  obtain ⟨hlo, hhi⟩ := hi.space_bounds
  obtain ⟨-, -, -, -, hnum⟩ := h.work
  exact ⟨⟨h.tables.1, hl.trans hi.size⟩, h.trees, ⟨hlo, hhi, hi.bound, hi.prevNz, hnum⟩, hi.count3, hi.noCmd, hg, h.out⟩

/-- What `StrDec` writes: the symbols are those of a tree over the real alphabet. -/
theorem Sound.stream {gap : Prop} {s : State} (h : Sound gap s) {ys : List Symbol}
    (hys : ∀ y ∈ ys, ∃ path, s.tree1.follow path = some (.leaf y)) (p r : Reg64) (e : SubCause) :
    Sound gap { s with out := s.out ++ ys, res := r, pos := p, ending := e } := by
  refine { h with out := fun y hy => ?_ }
  rcases List.mem_append.mp hy with hy | hy
  · exact h.out y hy
  · obtain ⟨path, hp⟩ := hys y hy
    exact Node.wf_symbol h.trees.2 hp

/-- After a `CLDec` and a `BUILD` of its table. -/
theorem Sound.metaTree {gap : Prop} {s : State} (h : Sound gap s) {tab : List CodeEntry} {space : Int}
    {num : BitVec 5} {tree : Node} (hi : ClInv [] tab space num)
    (ht : insertAll (canonTable (tab.map CodeEntry.len)) 0 .empty = some tree) (p : Reg64) :
    Sound gap { s with
      pos := p, table0 := canonTable (tab.map CodeEntry.len), space := space, numCodes := num, tree0 := tree } :=
  (h.codeLengths hi (by simp) p).build (a := .metaAlpha) ht

/-! ### Every body keeps it -/

/-- What holds of a raise of a command's body: a fatal one has a kind that can be fatal, and a repeat command without
its count is left by a fatal `InsufficientBits` only. -/
def SoundRaise (i : Instr) (k : ErrCode) (t : State) : Prop :=
  (fatalOf i = true → k.canBeFatal = true) ∧ Sound (fatalOf i = true ∧ k = .insufficientBits) t

theorem SoundRaise.of_clFrom {i : Instr} {s t : State} {k : ErrCode} (h : Sound False s)
    (hk : k = .insufficientBits ∨ k = .corruptHistogram) (ht : ClFrom [] s t) : SoundRaise i k t := by
  obtain ⟨p, tab, space, num, rfl, -, -, -, hi⟩ := ht
  exact ⟨fun _ => by rcases hk with rfl | rfl <;> rfl, h.weaken.codeLengths hi rfl p⟩

/-- The raises of `LenDec`: the run without its count is the one whose extra bits are missing. -/
theorem SoundRaise.of_lnError {i : Instr} {s t : State} {k : ErrCode} {sub : SubCause} {gap : Prop} (h : Sound gap s)
    (hi : fatalOf i = true) (ht : LnError s k sub t) : SoundRaise i k t := by
  obtain ⟨hk, -, p, tab, space, sym, prev, cmd, count, rfl, -, hi', hg⟩ := ht
  exact ⟨fun _ => by rcases hk with rfl | rfl | rfl | rfl <;> rfl,
    h.runLengths hi' rfl (fun hc h0 => ⟨hi, by_contra fun hk => hg hk hc h0⟩) p⟩

/-- The commands of the cursor and `DECSYM`. -/
theorem sound_of_cursor {i : Instr} {s : State} (h : Sound False s) (hi : i ≠ .load) (hf : fatalOf i = false)
    (hs : i ≠ .strdec) : (bodyOf i s).Meets (fun _ t => Sound False t) (fun k _ t => SoundRaise i k t) := by
  have keep : ∀ {gap t}, Frame i s t → Sound gap t := fun hF =>
    h.weaken.of_frame hF (by rintro a rfl; cases hf) (by rintro a rfl; cases hf) (by rintro rfl; cases hf)
      (by rintro rfl; cases hf) hs (by rintro rfl; cases hf)
  exact (bodyOf_meets hi hs s).imp (fun _ _ hF => keep hF)
    fun _ _ _ hR => ⟨fun h => by simp [hf] at h, keep hR.frame⟩

theorem sound_canon (a : Alphabet) {s : State} (h : Sound False s) :
    (canon a s).Meets (fun _ t => Sound False t) (fun k _ t => SoundRaise (.canon a) k t) := by
  refine (canon_meets a s).imp ?_ ?_
  · rintro - t ⟨-, rfl⟩
    exact h.setTable (by simp)
  · rintro k sub t ⟨-, rfl, -, rfl⟩
    exact ⟨fun _ => rfl, h.weaken⟩

theorem sound_buildTree (a : Alphabet) {s : State} (h : Sound False s) :
    (buildTree a s).Meets (fun _ t => Sound False t) (fun k _ t => SoundRaise (.build a) k t) := by
  refine (buildTree_meets a s).imp ?_ ?_
  · rintro - t ⟨tree, ht, rfl⟩
    exact h.build ht
  · rintro k sub t ⟨-, rfl, -, rfl⟩
    exact ⟨fun _ => rfl, h.weaken.setTree rfl⟩

theorem sound_clDec {s : State} (h : Sound False s) :
    (clDec s).Meets (fun _ t => Sound False t) (fun k _ t => SoundRaise .cldec k t) := by
  refine (clDec_meets s).imp ?_ fun k _ t ⟨hk, _, ht⟩ => .of_clFrom h hk ht
  rintro - t ⟨p, tab, space, num, hi, -, -, -, -, rfl⟩
  exact h.codeLengths hi (by simp) p

theorem sound_lenDec {s : State} (h : Sound False s) :
    (lenDec s).Meets (fun _ t => Sound False t) (fun k _ t => SoundRaise .lendec k t) := by
  refine (lenDec_meets s).imp ?_ fun k _ t ht => .of_lnError h rfl ht
  rintro - t ⟨p, tab, sym, prev, cmd, count, hi, -, -, hc, rfl⟩
  exact h.runLengths hi (by simp) hc p

theorem sound_strDec {s : State} (h : Sound False s) :
    (strDec s).Meets (fun _ t => Sound False t) (fun k _ t => SoundRaise .strdec k t) := by
  refine (strDec_meets (Node.wf_not_leaf h.trees.2)).imp ?_ fun _ _ _ h => h.elim
  rintro - t ⟨p, ys, e, rfl, -, hys⟩
  exact h.stream hys p _ e

theorem sound_runSession {s : State} (h : Sound False s) :
    (runSession s).Meets (fun _ t => Sound False t) (fun k _ t => SoundRaise .run k t) := by
  refine (runSession_meets s).imp ?_ ?_
  · rintro - t ⟨tab0, space0, num, tree0, tab1, sym, prev, cmd, count, tree1, p, ys, e, hi0, hi1, hc, -, ht0, ht1, hys, rfl⟩
    have hMeta := h.metaTree hi0 ht0 p
    have hLens := hMeta.runLengths (tab' := canonTable (tab1.map CodeEntry.len)) hi1 (by simp) hc p
    exact (hLens.build (a := .realAlpha) ht1).stream hys p _ e
  · rintro k sub t ⟨-, ⟨hk, -, ht⟩ | ⟨p0, tab0, space0, num, tree0, hi0, -, ht0, ht⟩⟩
    · exact .of_clFrom h hk ht
    · exact .of_lnError (h.metaTree hi0 ht0 p0) rfl ht

theorem sound_bodyOf {i : Instr} (hi : i ≠ .load) {s : State} (h : Sound False s) :
    (bodyOf i s).Meets (fun _ t => Sound False t) (fun k _ t => SoundRaise i k t) := by
  cases i with
  | canon a => exact sound_canon a h
  | build a => exact sound_buildTree a h
  | cldec => exact sound_clDec h
  | lendec => exact sound_lenDec h
  | strdec => exact sound_strDec h
  | run => exact sound_runSession h
  | load => exact absurd rfl hi
  | peek n => exact sound_of_cursor h hi rfl (by simp)
  | read n => exact sound_of_cursor h hi rfl (by simp)
  | adv n => exact sound_of_cursor h hi rfl (by simp)
  | ret n => exact sound_of_cursor h hi rfl (by simp)
  | exh => exact sound_of_cursor h hi rfl (by simp)
  | rem => exact sound_of_cursor h hi rfl (by simp)
  | decsym a => exact sound_of_cursor h hi rfl (by simp)

/-! ### Commands -/

theorem Frame.bufferOk {i : Instr} {s t : State} (h : Frame i s t) (hs : BufferOk s) : BufferOk t := by
  obtain ⟨-, -, -, -, hbuf, -⟩ := h.fixed
  rwa [BufferOk, hbuf]

theorem Frame.totalBits {i : Instr} {s t : State} (h : Frame i s t) : t.totalBits = s.totalBits := by
  obtain ⟨-, -, -, -, -, -, hlen⟩ := h.fixed
  simp only [State.totalBits, hlen]

/-- A normal end. -/
theorem inv_endOk {i : Instr} {s u : State} (hs : s.Inv) (hf : s.fatal = false) (hF : Frame i s u)
    (hu : Sound False u) : (endOk u).Inv := by
  obtain ⟨hc, hb, -, -, -, -, ⟨hkind, hsub, hpos, -⟩, -⟩ := hs
  obtain ⟨-, hfat, hk, hsb, hp⟩ := hF.error
  have hrep : RepeatOk (endOk u) := ⟨hu.counts, hu.noCmd, fun h1 h2 => (hu.noCount h1 h2).elim⟩
  have herr : ErrorOk (endOk u) := by simp [ErrorOk, hk, hsb, hp, hfat, hf, hF.totalBits, hkind, hsub, hpos]
  exact ⟨hF.cursor hc, hF.bufferOk hb, hu.tables, hu.trees, hu.work, hrep, herr, hu.out⟩

/-- A raise. -/
theorem inv_takeError {i : Instr} {s u : State} {k : ErrCode} {sub : SubCause} (hs : s.Inv) (hf : s.fatal = false)
    (hR : RaiseFrame i s k sub u) (hu : SoundRaise i k u) : (takeError (fatalOf i) k sub u).Inv := by
  obtain ⟨hc, hb, -⟩ := hs
  obtain ⟨hF, -, ⟨-, hkind, hsub⟩, -⟩ := hR
  obtain ⟨hfatal, hu⟩ := hu
  obtain ⟨-, hfat, -⟩ := hF.error
  rw [hf] at hfat
  have hrep : RepeatOk (takeError (fatalOf i) k sub u) :=
    ⟨hu.counts, hu.noCmd, fun h1 h2 => by simpa [hfat] using hu.noCount h1 h2⟩
  have herr : ErrorOk (takeError (fatalOf i) k sub u) :=
    ⟨hkind, hsub, hF.cursor hc, by simpa [hfat] using hfatal, fun h => absurd h hkind⟩
  exact ⟨hF.cursor hc, hF.bufferOk hb, hu.tables, hu.trees, hu.work, hrep, herr, hu.out⟩

theorem inv_refuseHalted {s : State} (hs : s.Inv) (hf : s.fatal = true) : (refuseHalted s).Inv := by
  obtain ⟨hc, hb, htab, htree, hwork, hrep, ⟨hkind, hsub, hpos, hfat, -⟩, hout⟩ := hs
  exact ⟨hc, hb, htab, htree, hwork, hrep, ⟨hkind, hsub, hpos, hfat, fun _ => hf⟩, hout⟩

/-! ### Reset, `LOAD` and the host -/

/-- Settles O49: the reset values lie in their ranges, the tables are made in their sizes. -/
theorem resetMeetsTheInvariant : Obligations.ResetMeetsTheInvariant := by
  unfold Obligations.ResetMeetsTheInvariant
  intro p
  have htab : TablesOk (State.resetOf p) := ⟨List.length_replicate, List.length_replicate⟩
  have hwork : WorkOk (State.resetOf p) := by simp [WorkOk, State.resetOf, Config.prevInit]
  have hrep : RepeatOk (State.resetOf p) := by simp [RepeatOk, State.resetOf]
  have herr : ErrorOk (State.resetOf p) := by simp [ErrorOk, State.resetOf]
  exact ⟨Nat.zero_le _, rfl, htab, ⟨rfl, rfl⟩, hwork, hrep, herr, fun _ hy => absurd hy List.not_mem_nil⟩

/-- `LOAD`: the reset values but for the buffer, which keeps its bytes and takes any length; the cursor and the recorded
position are 0. -/
theorem inv_execLoad {s : State} (hb : BufferOk s) : (endOk (discardSession s)).Inv := by
  obtain ⟨-, -, htab, htree, hwork, hrep, ⟨hkind, hsub, -, hfat, hlast⟩, hout⟩ := resetMeetsTheInvariant s.params
  exact ⟨Nat.zero_le _, hb, htab, htree, hwork, hrep, ⟨hkind, hsub, Nat.zero_le _, hfat, hlast⟩, hout⟩

theorem exec_inv {i : Instr} {s t : State} (hs : s.Inv) (h : exec i s = .next t) : t.Inv := by
  by_cases hi : i = .load
  · subst hi
    obtain ⟨-, hb, -⟩ := hs
    exact Host.Outcome.next.inj h ▸ inv_execLoad hb
  rcases exec_cases hi h with ⟨hf, rfl⟩ | ⟨hf, u, hu, hF, rfl⟩ | ⟨hf, k, sub, u, hu, hR, rfl⟩
  · exact inv_refuseHalted hs hf
  · have hm := sound_bodyOf hi (hs.sound hf)
    rw [hu] at hm
    exact inv_endOk hs hf hF hm
  · have hm := sound_bodyOf hi (hs.sound hf)
    rw [hu] at hm
    exact inv_takeError hs hf hR hm

/-- An illegal word is recorded as the raise of a `PEEK` with too large a count is (30_encoding.md R94). -/
theorem inv_issueIllegal {s : State} (hs : s.Inv) : (issueIllegal s).Inv := by
  rcases issueIllegal_cases s with ⟨hf, he⟩ | ⟨hf, he⟩
  · exact he ▸ inv_refuseHalted hs hf
  · have hR : RaiseFrame (.peek 0#16) s .illegalCommand .none s :=
      ⟨Frame.same _ s, ⟨rfl, rfl, rfl⟩, by simp [RaisesOnly], by simp⟩
    exact he ▸ inv_takeError hs hf hR ⟨by simp [fatalOf], (hs.sound hf).weaken⟩

theorem hostWriteBuf_inside {i : Nat} (b : Byte) (s : State) (h : i < Config.bufBytes) :
    hostWriteBuf i b s = .next { s with
      buf := Memory.write s.buf i b, liveWritten := s.liveWritten || decide (i < s.bufLen.toNat) } := by
  simp only [hostWriteBuf, Nat.not_le.mpr h, if_false]

theorem hostWriteBuf_outside {i : Nat} (b : Byte) (s : State) (h : Config.bufBytes ≤ i) :
    hostWriteBuf i b s = .next s := by simp only [hostWriteBuf, h, if_true]

theorem hostWriteLen_halted (a : Alphabet) (i : Nat) (v : CodeLen) {s : State} (h : s.fatal = true) :
    hostWriteLen a i v s = .next s := by simp only [hostWriteLen, h, if_true]

theorem hostWriteLen_running (a : Alphabet) (i : Nat) (v : CodeLen) {s : State} (h : s.fatal = false) :
    hostWriteLen a i v s = .next (s.setTable a (setLen (s.table a) i v)) := by
  simp only [hostWriteLen, h, Bool.false_eq_true, if_false]

theorem hostWriteBuf_inv {i : Nat} {b : Byte} {s t : State} (hs : s.Inv) (h : hostWriteBuf i b s = .next t) :
    t.Inv := by
  rcases Nat.lt_or_ge i Config.bufBytes with hi | hi
  · rw [hostWriteBuf_inside b s hi] at h
    obtain ⟨hc, hb, hrest⟩ := hs
    exact Host.Outcome.next.inj h ▸ ⟨hc, Memory.wf_write _ _ _ hb hi, hrest⟩
  · rw [hostWriteBuf_outside b s hi] at h
    exact Host.Outcome.next.inj h ▸ hs

theorem hostWriteLen_inv {a : Alphabet} {i : Nat} {v : CodeLen} {s t : State} (hs : s.Inv)
    (h : hostWriteLen a i v s = .next t) : t.Inv := by
  cases hf : s.fatal with
  | true =>
    rw [hostWriteLen_halted a i v hf] at h
    exact Host.Outcome.next.inj h ▸ hs
  | false =>
    rw [hostWriteLen_running a i v hf] at h
    obtain ⟨hc, hb, ⟨h0, h1⟩, hrest⟩ := hs
    rw [← Host.Outcome.next.inj h]
    cases a with
    | metaAlpha => exact ⟨hc, hb, ⟨(setLen_length _ _ _).trans h0, h1⟩, hrest⟩
    | realAlpha => exact ⟨hc, hb, ⟨h0, (setLen_length _ _ _).trans h1⟩, hrest⟩

theorem hostMove_inv {m : HostMove} {s t : State} (hs : s.Inv) (h : hostMove m s = .next t) : t.Inv := by
  cases m with
  | issue w =>
    rcases issueWord_cases h with ⟨e, -, rfl⟩ | ⟨i, -, hx⟩
    · exact inv_issueIllegal hs
    · exact exec_inv hs hx
  | writeBuf i b => exact hostWriteBuf_inv hs h
  | writeLenIn v => exact Host.Outcome.next.inj h ▸ hs
  | writeLen a i v => exact hostWriteLen_inv hs h
  | writeReadOnly e v => exact Host.Outcome.next.inj h ▸ hs
  | reset => exact Host.Outcome.next.inj h ▸ resetMeetsTheInvariant s.params

/-- Settles O48: a step is a move of the host, and the invariant does not look at the moves still to come. -/
theorem stepKeepsTheInvariant : Obligations.StepKeepsTheInvariant := by
  unfold Obligations.StepKeepsTheInvariant
  intro s t hs h
  rcases step_cases h with ⟨-, rfl⟩ | ⟨m, moves, -, hm⟩
  · exact hs
  · exact hostMove_inv (s := { s with host := moves }) hs hm

end Sys2Proof.Machine
end

section
/-!
Who writes what (10_state.md R20 to R36): each statement read off the three ends of a command, halted, returned or
raised, and the frame its body keeps.
-/
namespace Sys2Proof.Machine

/-- The frame of a command but `LOAD`, from the state before to the state after: what the wrapper adds to its body
touches none of these elements. -/
theorem exec_frame {i : Instr} {s t : State} (hi : i ≠ .load) (h : exec i s = .next t) :
    ∃ u, Frame i s u ∧ t = { u with
      last := t.last, fatal := t.fatal, errKind := t.errKind, errSub := t.errSub, errPos := t.errPos } := by
  rcases exec_cases hi h with ⟨-, rfl⟩ | ⟨-, u, -, hF, rfl⟩ | ⟨-, k, sub, u, -, hR, rfl⟩
  · exact ⟨s, Frame.same i s, rfl⟩
  · exact ⟨u, hF, rfl⟩
  · exact ⟨u, hR.frame, rfl⟩

/-- Settles O40: `OK` and `Halted` ends write `STATUS.LAST` only, the wrapper's raise writes the record together. -/
theorem everyErrorIsRecorded : Obligations.EveryErrorIsRecorded := by
  unfold Obligations.EveryErrorIsRecorded
  intro i s t hi h
  rcases exec_cases hi h with ⟨-, rfl⟩ | ⟨-, u, -, hF, rfl⟩ | ⟨-, k, sub, u, -, hR, rfl⟩
  · simp
  · obtain ⟨-, -, hkind, hsub, hpos⟩ := hF.error
    simp [hkind, hsub, hpos]
  · obtain ⟨hok, hhalted, hsub⟩ := hR.kind
    simp [hok, hhalted, ← hsub]

/-- Settles O41: a raise leaves `RES` as it was, and so does the body of a command that yields no value. -/
theorem resultIsWrittenOnlyOnSuccess : Obligations.ResultIsWrittenOnlyOnSuccess := by
  unfold Obligations.ResultIsWrittenOnlyOnSuccess
  intro i s t hi h
  constructor
  · intro hlast
    rcases exec_cases hi h with ⟨-, rfl⟩ | ⟨-, u, -, -, rfl⟩ | ⟨-, k, sub, u, -, hR, rfl⟩
    · rfl
    · exact absurd rfl hlast
    · obtain ⟨hres, -⟩ := hR.quiet
      exact hres
  · intro hno
    obtain ⟨u, hF, ht⟩ := exec_frame hi h
    rw [ht]
    exact hF.res hno

/-- While halted, a command but `LOAD` keeps `FATAL`. -/
theorem exec_fatal_of_halted {i : Instr} {s t : State} (hi : i ≠ .load) (hf : s.fatal = true)
    (h : exec i s = .next t) : t.fatal = true := by
  rw [exec_eq_command hi, command_halted hf] at h
  exact Host.Outcome.next.inj h ▸ hf

/-- While halted, a move of the host other than reset and the word of a `LOAD` keeps `FATAL`. -/
theorem hostMove_fatal_of_halted {m : HostMove} {s t : State} (hf : s.fatal = true) (h : hostMove m s = .next t)
    (hr : m ≠ .reset) (hl : ∀ w, m = .issue w → decode w ≠ .ok .load) : t.fatal = true := by
  cases m with
  | issue w =>
    rcases issueWord_cases h with ⟨e, -, rfl⟩ | ⟨i, hd, hx⟩
    · simp [issueIllegal, hf]
    · exact exec_fatal_of_halted (by rintro rfl; exact hl w rfl hd) hf hx
  | writeBuf i b =>
    rcases Nat.lt_or_ge i Config.bufBytes with hi | hi
    · exact Host.Outcome.next.inj ((hostWriteBuf_inside b s hi).symm.trans h) ▸ hf
    · exact Host.Outcome.next.inj ((hostWriteBuf_outside b s hi).symm.trans h) ▸ hf
  | writeLenIn v => exact Host.Outcome.next.inj h ▸ hf
  | writeLen a i v => exact Host.Outcome.next.inj ((hostWriteLen_halted a i v hf).symm.trans h) ▸ hf
  | writeReadOnly e v => exact Host.Outcome.next.inj h ▸ hf
  | reset => exact absurd rfl hr

/-- Settles O42: any other move keeps `FATAL`, and so does idling. -/
theorem onlyLoadAndResetClearFatal : Obligations.OnlyLoadAndResetClearFatal := by
  unfold Obligations.OnlyLoadAndResetClearFatal
  intro s t h hf ht
  rcases step_cases h with ⟨-, rfl⟩ | ⟨m, moves, hm, hmove⟩
  · simp [hf] at ht
  refine ⟨moves, ?_⟩
  by_contra hno
  rw [not_or, hm] at hno
  obtain ⟨hr, hl⟩ := hno
  have hkept := hostMove_fatal_of_halted (s := { s with host := moves }) hf hmove
    (by rintro rfl; exact hr rfl) (by rintro w rfl hd; exact hl ⟨w, rfl, hd⟩)
  simp [ht] at hkept

/-- Settles O43: the fixed elements of the frame; `LOAD` keeps all of them but `BUF_LEN`. -/
theorem commandsNeverWriteTheBuffer : Obligations.CommandsNeverWriteTheBuffer := by
  unfold Obligations.CommandsNeverWriteTheBuffer
  intro i s t h
  by_cases hi : i = .load
  · subst hi
    rw [← Host.Outcome.next.inj h]
    exact ⟨rfl, rfl, rfl, rfl, rfl, fun hne => absurd rfl hne⟩
  · obtain ⟨u, hF, ht⟩ := exec_frame hi h
    obtain ⟨hparams, hhost, hlive, hresets, hbuf, hin, hlen⟩ := hF.fixed
    rw [ht]
    exact ⟨hbuf, hin, hparams, hhost, hresets, fun _ => ⟨hlen, hlive⟩⟩

/-- Settles O44: clause by clause the frame of the command's body. -/
theorem eachElementHasItsWriters : Obligations.EachElementHasItsWriters := by
  unfold Obligations.EachElementHasItsWriters
  intro i s t hi h
  obtain ⟨u, hF, ht⟩ := exec_frame hi h
  rw [ht]
  exact ⟨hF.table0, hF.table1, hF.tree0, hF.tree1, hF.stream, hF.space, hF.number, hF.runs, hF.pos⟩

/-- Settles O45: the frame of every body says it of `OUT`. -/
theorem outputOnlyGrows : Obligations.OutputOnlyGrows := by
  unfold Obligations.OutputOnlyGrows
  intro i s t hi h
  obtain ⟨u, hF, ht⟩ := exec_frame hi h
  rw [ht]
  exact hF.grows

/-- Settles O38: the wrapper's raise is `takeError`. -/
theorem raiseFillsTheErrorRecord : Obligations.RaiseFillsTheErrorRecord :=
  fun _ _ _ _ _ _ hf hb => command_raised hf hb

/-- Settles O37: `LOAD` stands outside the wrapper, and `discardSession` names the reset values. -/
theorem loadStartsASession : Obligations.LoadStartsASession := fun _ => rfl

/-- `EXH` returns whether the cursor is at the end. -/
theorem execExh_next {s : State} (hf : s.fatal = false) :
    exec .exh s = .next { s with res := BitVec.ofNat 64 (exhausted s).toNat, last := .ok } :=
  command_done (fatal := false) (body := bodyOf .exh) (v := ()) hf rfl

/-- `REM` returns the bits left. -/
theorem execRem_next {s : State} (hf : s.fatal = false) :
    exec .rem s = .next { s with res := BitVec.ofNat 64 (remaining s), last := .ok } :=
  command_done (fatal := false) (body := bodyOf .rem) (v := ()) hf rfl

/-- Settles O15: the bits left fit `RES`, as `TOTAL_BITS` is below `2^35`. -/
theorem exhaustedAndRemainingAreReported : Obligations.ExhaustedAndRemainingAreReported := by
  unfold Obligations.ExhaustedAndRemainingAreReported
  intro s hf hc
  constructor
  · rw [execExh_next hf]
    by_cases he : s.pos.toNat = s.totalBits <;> simp [exhausted, he]
  · refine ⟨_, execRem_next hf, rfl, ?_⟩
    have htotal := s.totalBits_lt
    simp only [remaining, BitVec.toNat_ofNat]
    omega

end Sys2Proof.Machine
end

section
/-!
What the host writes and reads (10_state.md R38, R25), and reset as its move (R39).
-/
namespace Sys2Proof.Machine

/-! ### Code lengths -/

/-- A length written within a table is the one entry and the one field that changes. -/
theorem setLen_getD_eq (tab : List CodeEntry) {i : Nat} (v : CodeLen) (hi : i < tab.length) (j : Nat) (d : CodeEntry) :
    (setLen tab i v).getD j d = if j = i then { tab.getD j d with len := v } else tab.getD j d := by
  by_cases hj : j = i
  · subst hj
    have hj' : j < (setLen tab j v).length := by simpa using hi
    rw [List.getD_eq_getElem _ _ hj', List.getD_eq_getElem _ _ hi, setLen_getElem]
  · rw [setLen_getD _ _ _ _ _ hj, if_neg hj]

/-- Beside a table an entry reads as zero (10_state.md R38). -/
theorem hostEntry_of_length_le {a : Alphabet} {i : Nat} {s : State} (h : (s.table a).length ≤ i) :
    hostEntry a i s = ⟨0#4, 0#16⟩ := List.getD_eq_default _ _ h

theorem hostWriteLen_beside {a : Alphabet} {i : Nat} (v : CodeLen) {s : State} (h : (s.table a).length ≤ i) :
    hostWriteLen a i v s = .next s := by
  cases hf : s.fatal with
  | true => exact hostWriteLen_halted a i v hf
  | false => rw [hostWriteLen_running a i v hf, setLen_of_length_le _ v h, State.setTable_self]

/-- The tables do not depend on the host's moves. -/
theorem table_withHost (s : State) (moves : List HostMove) (a : Alphabet) :
    State.table { s with host := moves } a = s.table a := by cases a <;> rfl

/-- Settles O51: halted or beside the table the write is ignored, else it is `setLen` of the table. -/
theorem hostWritesLengths : Obligations.HostWritesLengths := by
  unfold Obligations.HostWritesLengths
  intro s a i v moves h
  rw [step_of_host h, hostMove]
  refine ⟨?_, fun hf hi => ?_, fun hi => ?_⟩
  · rintro (hf | hi)
    · exact hostWriteLen_halted a i v hf
    · exact hostWriteLen_beside v (by rwa [table_withHost])
  · refine ⟨setLen (s.table a) i v, ?_, fun j => ?_, fun j => ?_⟩
    · rw [← table_withHost s moves a]
      exact hostWriteLen_running a i v hf
    · rw [setLen_getD_eq _ _ hi]; split <;> rfl
    · rw [setLen_getD_eq _ _ hi]; split <;> rfl
  · simp [hostRead, hostReadOnly, hostEntry_of_length_le hi]

/-! ### Bytes of the buffer -/

/-- A byte written is what the buffer holds there; every other byte stays. -/
theorem bufByte_write (s : State) (i : Nat) (b : Byte) (a : Nat) :
    bufByte { s with buf := Memory.write s.buf i b } a = if a = i then b else bufByte s a := by
  simp only [bufByte, Memory.read_write]
  split <;> rfl

theorem hostRead_buf {s : State} {i : Nat} (h : i < Config.bufBytes) :
    hostRead (.buf i) s = some ((bufByte s i).toNat : Int) := by simp only [hostRead, Nat.not_le.mpr h, if_false]

/-- Settles O52: within `BUF` the host and the cursor read through `bufByte`, beyond it nothing is written. -/
theorem hostWritesBytes : Obligations.HostWritesBytes := by
  unfold Obligations.HostWritesBytes
  intro s i b moves h
  rw [step_of_host h, hostMove]
  refine ⟨fun hi => ?_, fun hi => ?_⟩
  · refine ⟨Memory.write s.buf i b, s.liveWritten || decide (i < s.bufLen.toNat), hostWriteBuf_inside b _ hi,
      bufByte_write s i b, fun a ha => ?_, by simp⟩
    rw [hostRead_buf ha, bufByte_write]
  · have hi' : Config.bufBytes ≤ i := hi
    exact ⟨hostWriteBuf_outside b _ hi, by simp only [hostRead, hi', if_true]⟩

/-! ### The rest -/

/-- Settles O53: the two moves and the two reads as their definitions give them. -/
theorem hostWritesNothingElse : Obligations.HostWritesNothingElse := by
  unfold Obligations.HostWritesNothingElse
  intro s moves
  refine ⟨fun v h => step_of_host h, fun e v h => step_of_host h, fun i hi => ?_, fun _ => rfl⟩
  simp only [hostRead, hostReadOnly, List.getD_eq_default _ _ hi]
  rfl

/-- Settles O55: the move is `applyReset` of the state without the move. -/
theorem hostAppliesReset : Obligations.HostAppliesReset := fun _ _ h => step_of_host h

/-- Two bit strings joined are their numbers joined: the left one stands above the right one. -/
theorem toNat_append_eq_add {m n : Nat} (x : BitVec m) (y : BitVec n) :
    (x ++ y).toNat = 2 ^ n * x.toNat + y.toNat := by
  rw [BitVec.toNat_append, Nat.shiftLeft_eq, Nat.mul_comm, Nat.two_pow_add_eq_or_of_lt y.isLt]

/-- `STATUS` is the sum of its three fields in their places (10_state.md R25). -/
theorem statusWord_toNat (s : State) :
    (statusWord s).toNat = s.last.code.toNat + 16 * s.fatal.toNat + 32 * s.ending.code.toNat := by
  simp only [statusWord, toNat_append_eq_add, BitVec.toNat_ofBool, BitVec.toNat_ofNat]
  omega

/-- Settles O54: the codes of R210 and R25 are the numbers of the fields. -/
theorem statusWordLayout : Obligations.StatusWordLayout := by
  unfold Obligations.StatusWordLayout
  intro s
  rw [statusWord_toNat]
  congr 1
  · congr 1
    · cases s.last <;> rfl
    · cases s.fatal <;> rfl
  · cases s.ending <;> rfl

end Sys2Proof.Machine
end

section
/-!
The bits of the buffer (20_memory.md R61 to R63): a bit of its byte, a field as the sum of its bits, whole bytes.
-/
namespace Sys2Proof.Machine

/-- A bit of the stream as a number: its byte shifted down and reduced to the lowest bit (20_memory.md R61). -/
theorem bitAt_toNat (s : State) (p : Nat) :
    (bitAt s p).toNat = (bufByte s (p / 8)).toNat / 2 ^ (p % 8) % 2 := by
  rw [bitAt, ← BitVec.testBit_toNat, Nat.toNat_testBit]

/-- Settles O9: shifting divides by a power of two, the mask 1 keeps the remainder by 2. -/
theorem bitAtIsTheBitOfItsByte : Obligations.BitAtIsTheBitOfItsByte := by
  unfold Obligations.BitAtIsTheBitOfItsByte
  intro s p
  rw [bitAt_toNat, Nat.shiftRight_eq_div_pow, Nat.and_one_is_mod]

/-- A field is the sum of its bits, each at its place (20_memory.md R62). -/
theorem bits_eq_sum (s : State) (p n : Nat) :
    bits s p n = ((List.range n).map fun i => (bitAt s (p + i)).toNat <<< i).sum := by
  induction n with
  | zero => rfl
  | succ n ih => rw [List.sum_range_succ, bits, ih]

/-- Settles O10: the recursion of `bits` adds the terms of the sum one by one. -/
theorem bitsIsTheSumOfItsBits : Obligations.BitsIsTheSumOfItsBits :=
  fun s p n => ⟨bits_eq_sum s p n, rfl, bits_lt s p n⟩

/-- At a byte boundary, the first bits of a byte are the low part of its number. -/
theorem bits_low_part_of_byte (s : State) (i : Nat) {n : Nat} (hn : n ≤ 8) :
    bits s (8 * i) n = (bufByte s i).toNat % 2 ^ n := by
  induction n with
  | zero => simp [bits, Nat.mod_one]
  | succ n ih =>
    have hbyte : (8 * i + n) / 8 = i := by omega
    have hbit : (8 * i + n) % 8 = n := by omega
    rw [bits, ih (by omega), bitAt_toNat, hbyte, hbit, Nat.shiftLeft_eq, Nat.mul_comm, Nat.mod_pow_succ]

/-- Eight bits at a byte boundary are the byte there. -/
theorem bits_byte (s : State) (i : Nat) : bits s (8 * i) 8 = (bufByte s i).toNat := by
  rw [bits_low_part_of_byte s i (Nat.le_refl 8)]
  exact Nat.mod_eq_of_lt (bufByte s i).isLt

/-- `8k` bits at a byte boundary are the little-endian number of the `k` bytes there (20_memory.md R63): the next byte
joins above the bits read so far. -/
theorem bits_bytes (s : State) (p k : Nat) :
    bits s (8 * p) (8 * k) = ((List.range k).map fun i => (bufByte s (p + i)).toNat * 256 ^ i).sum := by
  induction k with
  | zero => rfl
  | succ k ih =>
    have hscale : 2 ^ (8 * k) = 256 ^ k := by rw [Nat.pow_mul]
    rw [List.sum_range_succ, ← ih, Nat.mul_succ, bits_add, ← Nat.mul_add, bits_byte, Nat.shiftLeft_eq, hscale]

/-- Settles O11: joining is `bits_add`, whole bytes are `bits_bytes`, written out for two of them. -/
theorem bitsJoinLowPartFirst : Obligations.BitsJoinLowPartFirst := by
  unfold Obligations.BitsJoinLowPartFirst
  intro s p n m k
  refine ⟨bits_add s p n m, bits_bytes s p k, ?_⟩
  rw [bits_bytes s p 2]
  simp [List.range_succ, Nat.mul_comm]

end Sys2Proof.Machine
end

section
/-!
`PEEK` and `READ` (40_bitcursor.md R115, R116): the check of `n`, then the primitive.
-/
namespace Sys2Proof.Machine

theorem withLegalCount_legal {n : BitVec 16} (body : State → Ret Unit) (s : State) (h : n.toNat ≤ 64) :
    withLegalCount n body s = body s := if_neg (Nat.not_lt.mpr h)

theorem withLegalCount_illegal {n : BitVec 16} (body : State → Ret Unit) (s : State) (h : 64 < n.toNat) :
    withLegalCount n body s = .raised .illegalCommand .none s := if_pos h

/-- `PEEK n` with enough bits left returns them. -/
theorem bodyOf_peek_done {n : BitVec 16} {s : State} (hn : n.toNat ≤ 64) (h : s.pos.toNat + n.toNat ≤ s.totalBits) :
    bodyOf (.peek n) s = .done () { s with res := BitVec.ofNat 64 (bits s s.pos.toNat n.toNat) } := by
  rw [bodyOf, withLegalCount_legal _ _ hn, countOf, peekBits_done h]
  rfl

/-- `PEEK n` with too few bits left raises before anything is written. -/
theorem bodyOf_peek_raised {n : BitVec 16} {s : State} (hn : n.toNat ≤ 64)
    (h : s.totalBits < s.pos.toNat + n.toNat) : bodyOf (.peek n) s = .raised .insufficientBits .none s := by
  rw [bodyOf, withLegalCount_legal _ _ hn, countOf, peekBits_raised h, Ret.bind_raised]

theorem bodyOf_peek_illegal {n : BitVec 16} {s : State} (hn : 64 < n.toNat) :
    bodyOf (.peek n) s = .raised .illegalCommand .none s := by rw [bodyOf, withLegalCount_illegal _ _ hn]

/-- `READ n` with enough bits left returns them and moves the cursor behind them. -/
theorem bodyOf_read_done {n : BitVec 16} {s : State} (hn : n.toNat ≤ 64) (h : s.pos.toNat + n.toNat ≤ s.totalBits) :
    bodyOf (.read n) s = .done () { s with
      res := BitVec.ofNat 64 (bits s s.pos.toNat n.toNat), pos := s.pos + n.setWidth 64 } := by
  have hpos : BitVec.ofNat 64 (s.pos.toNat + n.toNat) = s.pos + n.setWidth 64 := by
    rw [BitVec.ofNat_add, BitVec.ofNat_toNat, BitVec.ofNat_toNat, BitVec.setWidth_eq]
  rw [bodyOf, withLegalCount_legal _ _ hn, countOf, readBits_done h, ← hpos]
  rfl

/-- `READ n` with too few bits left raises before anything is written. -/
theorem bodyOf_read_raised {n : BitVec 16} {s : State} (hn : n.toNat ≤ 64)
    (h : s.totalBits < s.pos.toNat + n.toNat) : bodyOf (.read n) s = .raised .insufficientBits .none s := by
  rw [bodyOf, withLegalCount_legal _ _ hn, countOf, readBits_raised h, Ret.bind_raised]

theorem bodyOf_read_illegal {n : BitVec 16} {s : State} (hn : 64 < n.toNat) :
    bodyOf (.read n) s = .raised .illegalCommand .none s := by rw [bodyOf, withLegalCount_illegal _ _ hn]

/-- Settles O12: the wrapper ends the three results of the body, the value being the sum `bits_eq_sum`. -/
theorem peekReturnsTheBits : Obligations.PeekReturnsTheBits := by
  unfold Obligations.PeekReturnsTheBits
  intro s n hf
  rw [exec_eq_command (i := .peek n) (by simp), ← bits_eq_sum]
  refine ⟨fun hn h => ?_, fun hn h => ?_, fun hn => ?_⟩
  · exact command_done hf (bodyOf_peek_done hn h)
  · exact command_raised hf (bodyOf_peek_raised hn h)
  · exact command_raised hf (bodyOf_peek_illegal hn)

/-- Settles O13: as for `PEEK`, with the cursor moved. -/
theorem readReturnsTheBitsAndAdvances : Obligations.ReadReturnsTheBitsAndAdvances := by
  unfold Obligations.ReadReturnsTheBitsAndAdvances
  intro s n hf
  rw [exec_eq_command (i := .read n) (by simp), ← bits_eq_sum]
  refine ⟨fun hn h => ?_, fun hn h => ?_, fun hn => ?_⟩
  · exact command_done hf (bodyOf_read_done hn h)
  · exact command_raised hf (bodyOf_read_raised hn h)
  · exact command_raised hf (bodyOf_read_illegal hn)

end Sys2Proof.Machine
end

section
/-!
A built tree decodes the codes of its table (20_memory.md R64, 41_prefixtree.md R130, R135).
-/
namespace Sys2Proof.Machine

@[simp] theorem State.tree_endOk (s : State) (a : Alphabet) : (endOk s).tree a = s.tree a := by cases a <;> rfl

/-- A `BUILD` that ends `OK` wrote the tree of the table's codes and nothing else but `STATUS.LAST`. -/
theorem execBuild_ok {a : Alphabet} {s u : State} (hf : s.fatal = false) (h : exec (.build a) s = .next u)
    (hok : u.last = .ok) :
    ∃ tree, insertAll (s.table a) 0 .empty = some tree ∧ u = endOk (s.setTree a tree) := by
  rw [exec_eq_command (i := .build a) (by simp)] at h
  rcases command_meets (buildTree_meets a s) h with
    ⟨hf', -⟩ | ⟨-, t, ⟨tree, htree, rfl⟩, hu⟩ | ⟨-, k, sub, t, ⟨-, hk, -⟩, hu⟩
  · rw [hf] at hf'; cases hf'
  · exact ⟨tree, htree, hu⟩
  · rw [hu, takeError_last, hk] at hok; cases hok

/-- In a built tree the path of a used entry leads to its symbol. -/
theorem follow_path_of_insertAll {tab : List CodeEntry} {tree : Node} (h : insertAll tab 0 .empty = some tree) {i : Nat}
    (hi : i < tab.length) (hlen : tab[i].len ≠ 0#4) :
    tree.follow tab[i].path = some (.leaf (BitVec.ofNat 16 i)) :=
  (insertAll_empty_leaf h _ _).mpr ⟨i, hi, hlen, rfl, by rw [Nat.zero_add]⟩

/-- The stream holds an entry's path when its bits stand there most significant first (20_memory.md R64). -/
theorem holds_path {s : State} {p : Nat} {e : CodeEntry} (hend : p + e.len.toNat ≤ s.totalBits)
    (hbits : ∀ j, j < e.len.toNat → bitAt s (p + j) = e.code.getLsbD (e.len.toNat - 1 - j)) : Holds s p e.path := by
  refine ⟨by rwa [CodeEntry.path_length], fun j hj => ?_⟩
  rw [CodeEntry.path_length] at hj
  exact (hbits j hj).trans (codePath_getElem _ _ _ _).symm

/-- `DECSYM` on bits that lead to a Leaf returns its symbol and moves the cursor behind them. -/
theorem execDecsym_leaf {a : Alphabet} {s : State} {path : List Bool} {y : Symbol} (hf : s.fatal = false)
    (h : Holds s s.pos.toNat path) (hy : (s.tree a).follow path = some (.leaf y)) :
    exec (.decsym a) s = .next { s with
      res := BitVec.ofNat 64 y.toNat, pos := BitVec.ofNat 64 (s.pos.toNat + path.length), last := .ok } := by
  have hbody : bodyOf (.decsym a) s = .done () { s with
      res := BitVec.ofNat 64 y.toNat, pos := BitVec.ofNat 64 (s.pos.toNat + path.length) } := by
    simp only [bodyOf, decodeSymbol_done h hy, Ret.bind_done]
    rfl
  rw [exec_eq_command (i := .decsym a) (by simp)]
  exact command_done hf hbody

/-- Settles O23: the tree that `BUILD` wrote sends the path of the code, which the stream holds, to its symbol. -/
theorem builtTreeDecodesEveryCode : Obligations.BuiltTreeDecodesEveryCode := by
  unfold Obligations.BuiltTreeDecodesEveryCode
  intro s u a i hi hf hbuild hok hlen hend hbits
  obtain ⟨tree, htree, hu⟩ := execBuild_ok hf hbuild hok
  have hfatal : u.fatal = false := by simpa [hu] using hf
  have hpos : u.pos = s.pos := by simp [hu]
  have hholds : Holds u u.pos.toNat (s.table a)[i].path := by
    rw [hpos]
    exact (holds_path hend hbits).congr (by simp [hu]) (by simp [hu]) (by simp [hu])
  have hleaf : (u.tree a).follow (s.table a)[i].path = some (.leaf (BitVec.ofNat 16 i)) := by
    rw [hu, State.tree_endOk, State.tree_setTree]
    exact follow_path_of_insertAll htree hi hlen
  rw [execDecsym_leaf hfatal hholds hleaf, hpos, CodeEntry.path_length, BitVec.toNat_ofNat, ← hok]

end Sys2Proof.Machine
end

section
/-!
Command words (30_encoding.md R90 to R95): each command has one word, and every other word is illegal.
-/
namespace Sys2Proof

/-! ### The rows of the opcode map -/

/-- Every command's opcode stands in the opcode map (30_encoding.md R93). -/
theorem rowOfOpcode (i : Instr) : Laws.RowOfOpcode.Statement i := by
  cases i with
  | peek n => exact Laws.RowOfOpcode.peek n
  | read n => exact Laws.RowOfOpcode.read n
  | adv n => exact Laws.RowOfOpcode.adv n
  | ret n => exact Laws.RowOfOpcode.ret n
  | exh => exact Laws.RowOfOpcode.exh
  | rem => exact Laws.RowOfOpcode.rem
  | canon t => exact Laws.RowOfOpcode.canon t
  | build t => exact Laws.RowOfOpcode.build t
  | decsym t => exact Laws.RowOfOpcode.decsym t
  | cldec => exact Laws.RowOfOpcode.cldec
  | lendec => exact Laws.RowOfOpcode.lendec
  | strdec => exact Laws.RowOfOpcode.strdec
  | run => exact Laws.RowOfOpcode.run
  | load => exact Laws.RowOfOpcode.load

/-- The field constraints of a row: what its `operands` column refuses (30_encoding.md R93, R94). -/
def OpRow.Refuses (t : BitVec 1) (n : BitVec 16) : OpRow → Prop
  | .shortCount _ => t ≠ 0#1 ∨ maxPeek < n.toNat
  | .anyCount _ => t ≠ 0#1
  | .table _ => n ≠ 0#16
  | .plain _ => t ≠ 0#1 ∨ n ≠ 0#16

/-- The command a row builds from its fields. -/
def OpRow.build (t : BitVec 1) (n : BitVec 16) : OpRow → Instr
  | .shortCount mk => mk n
  | .anyCount mk => mk n
  | .table mk => mk (alphabetOf t)
  | .plain i => i

/-- A row decodes the fields it does not refuse, to the command it builds. -/
theorem decodeRow_eq_ok {row : OpRow} {t : BitVec 1} {n : BitVec 16} {i : Instr} :
    decodeRow row t n = .ok i ↔ ¬ row.Refuses t n ∧ row.build t n = i := by
  cases row with
  | shortCount mk =>
    by_cases ht : t = 0#1 <;> by_cases hn : maxPeek < n.toNat <;>
      simp [decodeRow, OpRow.Refuses, OpRow.build, ht, hn]
  | anyCount mk => by_cases ht : t = 0#1 <;> simp [decodeRow, OpRow.Refuses, OpRow.build, ht]
  | table mk => by_cases hn : n = 0#16 <;> simp [decodeRow, OpRow.Refuses, OpRow.build, hn]
  | plain j =>
    by_cases ht : t = 0#1 <;> by_cases hn : n = 0#16 <;> simp [decodeRow, OpRow.Refuses, OpRow.build, ht, hn]

/-- A word is legal when its reserved bits are zero, its opcode has a row and the row does not refuse its fields
(30_encoding.md R95). -/
theorem decode_eq_ok {w : Word} {i : Instr} :
    decode w = .ok i ↔ zField w = 0#7 ∧ ∃ row, opTable.lookup (opField w) = some row ∧
      ¬ row.Refuses (tField w) (nField w) ∧ row.build (tField w) (nField w) = i := by
  by_cases hz : zField w = 0#7
  · cases hrow : opTable.lookup (opField w) with
    | none => simp [decode, hz, hrow]
    | some row => simp [decode, hz, hrow, decodeRow_eq_ok]
  · simp [decode, hz]

/-- What the opcode map says of an opcode `op` with its row: which operands the opcode has, in the lists of
30_encoding.md R94, and the fields of the commands that the row builds. -/
def OpRow.Describes (op : BitVec 8) : OpRow → Prop
  | .shortCount mk =>
    (op ∉ [0x10#8, 0x11#8, 0x12#8] ∧ op ∈ [0x01#8, 0x02#8, 0x03#8, 0x04#8] ∧ op ∈ [0x01#8, 0x02#8]) ∧
      ∀ n, (n.toNat ≤ maxPeek → (mk n).wf = true) ∧ (mk n).opcode = op ∧ (mk n).tBit = 0#1 ∧ (mk n).count = n
  | .anyCount mk =>
    (op ∉ [0x10#8, 0x11#8, 0x12#8] ∧ op ∈ [0x01#8, 0x02#8, 0x03#8, 0x04#8] ∧ op ∉ [0x01#8, 0x02#8]) ∧
      ∀ n, (mk n).wf = true ∧ (mk n).opcode = op ∧ (mk n).tBit = 0#1 ∧ (mk n).count = n
  | .table mk =>
    (op ∈ [0x10#8, 0x11#8, 0x12#8] ∧ op ∉ [0x01#8, 0x02#8, 0x03#8, 0x04#8] ∧ op ∉ [0x01#8, 0x02#8]) ∧
      ∀ a, (mk a).wf = true ∧ (mk a).opcode = op ∧ (mk a).tBit = a.bit ∧ (mk a).count = 0#16
  | .plain i =>
    (op ∉ [0x10#8, 0x11#8, 0x12#8] ∧ op ∉ [0x01#8, 0x02#8, 0x03#8, 0x04#8] ∧ op ∉ [0x01#8, 0x02#8]) ∧
      i.wf = true ∧ i.opcode = op ∧ i.tBit = 0#1 ∧ i.count = 0#16

/-- Every row of the opcode map describes the commands of its opcode. -/
theorem describes_of_lookup {op : BitVec 8} {row : OpRow} (h : opTable.lookup op = some row) : row.Describes op := by
  have table : ∀ e ∈ opTable, e.2.Describes e.1 := by
    simp [opTable, OpRow.Describes, Instr.wf, Instr.opcode, Instr.tBit, Instr.count]
  obtain ⟨l, r, htable, -⟩ := List.lookup_eq_some_iff.mp h
  exact table (op, row) (by simp [htable])

/-- A row builds a well-formed command out of fields it does not refuse, and the command has just these fields. -/
theorem OpRow.Describes.build_fields {op : BitVec 8} {row : OpRow} (h : row.Describes op) {t : BitVec 1}
    {n : BitVec 16} (hok : ¬ row.Refuses t n) :
    (row.build t n).wf = true ∧ (row.build t n).opcode = op ∧ (row.build t n).tBit = t ∧ (row.build t n).count = n := by
  cases row with
  | shortCount mk =>
    simp only [OpRow.Refuses, not_or, not_not, Nat.not_lt] at hok
    obtain ⟨rfl, hn⟩ := hok
    obtain ⟨hwf, hrest⟩ := h.2 n
    exact ⟨hwf hn, hrest⟩
  | anyCount mk =>
    obtain rfl : t = 0#1 := not_not.mp hok
    exact h.2 n
  | table mk =>
    obtain rfl : n = 0#16 := not_not.mp hok
    simpa [OpRow.build] using h.2 (alphabetOf t)
  | plain i =>
    simp only [OpRow.Refuses, not_or, not_not] at hok
    obtain ⟨rfl, rfl⟩ := hok
    exact h.2

/-- What a row refuses, by its opcode: the last three causes of 30_encoding.md R94. -/
theorem OpRow.Describes.refuses_iff {op : BitVec 8} {row : OpRow} (h : row.Describes op) (t : BitVec 1) (n : BitVec 16) :
    row.Refuses t n ↔
      (t = 1#1 ∧ op ∉ [0x10#8, 0x11#8, 0x12#8]) ∨ (n ≠ 0#16 ∧ op ∉ [0x01#8, 0x02#8, 0x03#8, 0x04#8]) ∨
        (64 < n.toNat ∧ op ∈ [0x01#8, 0x02#8]) := by
  have ht : t = 1#1 ↔ t ≠ 0#1 := by revert t; decide
  cases row
  all_goals
    obtain ⟨⟨htable, hcount, hshort⟩, -⟩ := h
    simp [OpRow.Refuses, maxPeek, ht, htable, hcount, hshort, -List.mem_cons]

/-- The opcodes without a row: the first cause of 30_encoding.md R94. -/
theorem lookup_opTable_eq_none (op : BitVec 8) :
    opTable.lookup op = none ↔ op ∉ [0x01#8, 0x02#8, 0x03#8, 0x04#8, 0x05#8, 0x06#8, 0x10#8, 0x11#8, 0x12#8, 0x20#8,
      0x21#8, 0x22#8, 0x23#8, 0x30#8] := by
  simp [List.lookup_eq_none_iff, opTable]

/-! ### Both directions -/

theorem decode_encode {i : Instr} (h : i.wf = true) : decode (encode i) = .ok i := by
  obtain ⟨row, hlookup, hrow⟩ := rowOfOpcode i
  simp [decode, hlookup, hrow h]

theorem wf_encode_of_decode {w : Word} {i : Instr} (h : decode w = .ok i) : i.wf = true ∧ encode i = w := by
  obtain ⟨hz, row, hlookup, hok, rfl⟩ := decode_eq_ok.mp h
  obtain ⟨hwf, hop, ht, hn⟩ := (describes_of_lookup hlookup).build_fields hok
  refine ⟨hwf, ?_⟩
  rw [encode, hop, ht, hn, ← hz]
  exact (word_eq_fields w).symm

/-- Settles O1: the row found under the command's opcode gives the command back from its own fields. -/
theorem decodeOfEncode : Obligations.DecodeOfEncode := fun _ h => decode_encode h

/-- Settles O2: the decoder's row keeps the fields of the word, which are all of the word. -/
theorem encodeOfDecode : Obligations.EncodeOfDecode := fun _ _ h => wf_encode_of_decode h

/-- Settles O3: the causes of R94 are the ways in which the conditions of `decode_eq_ok` fail. -/
theorem illegalWordsExactly : Obligations.IllegalWordsExactly := by
  unfold Obligations.IllegalWordsExactly
  intro w
  rw [← lookup_opTable_eq_none]
  have herr : (∃ e, decode w = .error e) ↔ ¬ ∃ i, decode w = .ok i := by cases decode w <;> simp
  rw [herr]
  simp only [decode_eq_ok]
  cases hrow : opTable.lookup (opField w) with
  | none => simp
  | some row =>
    rw [← (describes_of_lookup hrow).refuses_iff]
    simp [imp_iff_not_or]

/-- Settles O4: each of the words is the word of its command. -/
theorem listedWordsDecode : Obligations.ListedWordsDecode :=
  ⟨decode_encode (i := .peek 64#16) rfl, decode_encode (i := .read 9#16) rfl, decode_encode (i := .adv 65535#16) rfl,
    decode_encode (i := .ret 12#16) rfl, decode_encode (i := .exh) rfl, decode_encode (i := .rem) rfl,
    decode_encode (i := .canon .realAlpha) rfl, decode_encode (i := .build .metaAlpha) rfl,
    decode_encode (i := .decsym .realAlpha) rfl, decode_encode (i := .cldec) rfl, decode_encode (i := .lendec) rfl,
    decode_encode (i := .strdec) rfl, decode_encode (i := .run) rfl, decode_encode (i := .load) rfl⟩

end Sys2Proof
end

section
/-!
The word that `withFetchWord` places, the table `CLPFX`, and `CLDEC` on an accepted stream.
-/
namespace Sys2Proof.Machine

/-- Where no live byte was written, a legal word runs its command (60_exceptions.md R220). -/
theorem issueWord_of_decode {w : Word} {i : Instr} {s : State} (hd : decode w = .ok i) (hl : s.liveWritten = false) :
    issueWord w s = exec i s := by simp [issueWord, hd, hl]

theorem withFetchWord_host (s : State) (w : Word) : (s.withFetchWord 32 w.toNat).host = [.issue w] := by
  rw [State.withFetchWord, Nat.mod_eq_of_lt w.isLt, BitVec.ofNat_toNat, BitVec.setWidth_eq]

/-- Settles O6: the word placed is the host's next move. -/
theorem fetchedWordRunsNext : Obligations.FetchedWordRunsNext := by
  unfold Obligations.FetchedWordRunsNext
  intro s w i hd
  rw [step_of_host (withFetchWord_host s w), hostMove, issueWord_of_decode hd rfl]
  rfl

/-- Settles O25: row by row of the table, pattern by pattern. -/
theorem prefixTableMatchesThePatterns : Obligations.PrefixTableMatchesThePatterns := by
  have table : ∀ p < 16, ∀ v < 6,
      ((clpfx p).1 = BitVec.ofNat 4 v ↔ clBits (BitVec.ofNat 4 v) <+: fieldBits p 4) ∧
        ((clpfx p).1 = BitVec.ofNat 4 v → (clpfx p).2 = (clBits (BitVec.ofNat 4 v)).length) := by decide
  exact fun p v hp hv => table p hp v hv

/-- Settles O26: the body of `CLDEC` on an accepted stream, ended by the wrapper. -/
theorem cldecDecodesAcceptedLengths : Obligations.CldecDecodesAcceptedLengths := by
  unfold Obligations.CldecDecodesAcceptedLengths
  intro s skip vals hf ha hh h4
  exact command_done (fatal := true) hf (clDec_done ha hh h4)

end Sys2Proof.Machine
end

section
/-!
`RUN` and the five commands of `STEPRUN` (30_encoding.md R97): a command after another one's normal end does what it
would do straight after that one's body.
-/
namespace Sys2Proof.Machine

/-- No command sees the `STATUS.LAST` that the normal end before it wrote. -/
theorem exec_endOk {i : Instr} {u t : State} (hi : i ≠ .load) (hf : u.fatal = false) (h : exec i u = .next t) :
    exec i (endOk u) = .next t := by
  have hblind := fun m k l => blind_bodyOf hi m k l
  rw [exec_eq_command hi]
  rcases exec_cases hi h with ⟨hh, -⟩ | ⟨-, v, hbody, hframe, rfl⟩ | ⟨-, k, sub, v, hbody, hraise, rfl⟩
  · rw [hf] at hh; cases hh
  · obtain ⟨-, -, -, hresets, hbuf, -, -⟩ := hframe.fixed
    exact command_endOk_done hblind hbody hf hbuf hresets
  · obtain ⟨-, -, -, hresets, hbuf, -, -⟩ := hraise.frame.fixed
    exact command_endOk_raised hblind hbody hf hbuf hresets

/-- While halted every command but `LOAD` is refused. -/
theorem exec_halted {i : Instr} (hi : i ≠ .load) {s : State} (hf : s.fatal = true) :
    exec i s = .next (refuseHalted s) := by rw [exec_eq_command hi, command_halted hf]

/-- A command whose raises are fatal, with more steps `g` behind its body: either it raises or is refused, and the whole
ends as it does, halted; or it returns, and the whole goes on with `g`. -/
theorem command_bind_cases {i : Instr} {g : State → Ret Unit} {s t : State} (hi : fatalOf i = true)
    (h : command true (fun s => (bodyOf i s).bind fun _ => g) s = .next t) :
    (exec i s = .next t ∧ t.fatal = true ∧ t.last ≠ .ok) ∨
      ∃ u, exec i s = .next (endOk u) ∧ u.fatal = false ∧ command true g u = .next t := by
  have hload : i ≠ .load := by rintro rfl; cases hi
  have hstr : i ≠ .strdec := by rintro rfl; cases hi
  rw [exec_eq_command hload, hi]
  cases hf : s.fatal with
  | true =>
    rw [command_halted hf] at h ⊢
    obtain rfl := Host.Outcome.next.inj h
    exact .inl ⟨rfl, hf, by simp⟩
  | false =>
    have hmeets := bodyOf_meets hload hstr s
    cases hbody : bodyOf i s with
    | done v u =>
      rw [hbody] at hmeets
      obtain ⟨-, hfatal, -⟩ := hmeets.error
      rw [hf] at hfatal
      refine .inr ⟨u, command_done hf hbody, hfatal, ?_⟩
      simpa [command, hf, hfatal, hbody] using h
    | raised k sub u =>
      rw [hbody] at hmeets
      rw [command_raised (k := k) (sub := sub) (t := u) hf (by rw [hbody, Ret.bind_raised])] at h
      obtain rfl := Host.Outcome.next.inj h
      obtain ⟨hok, -⟩ := hmeets.kind
      exact .inl ⟨command_raised hf hbody, by simp, hok⟩
    | stuck =>
      rw [hbody] at hmeets
      exact hmeets.elim

/-- `STRDEC` never raises, so whether its raises would be fatal does not matter. -/
theorem execStrdec_of_fatal {s t : State} (hf : s.fatal = false) (h : command true strDec s = .next t) :
    exec .strdec s = .next t ∧ t.last = .ok := by
  rcases command_cases h with ⟨hh, -⟩ | ⟨-, u, hbody, rfl⟩ | ⟨-, k, sub, u, hbody, -⟩
  · rw [hf] at hh; cases hh
  · exact ⟨command_done (fatal := false) hf hbody, rfl⟩
  · exact absurd hbody strDec_not_raised

/-- Settles O34: `RUN` stops at one of its first four commands, and those behind it are refused, or goes through. -/
theorem runIsTheFiveCommands : Obligations.RunIsTheFiveCommands := by
  unfold Obligations.RunIsTheFiveCommands
  refine ⟨fun n => ⟨rfl, rfl, rfl⟩, rfl, rfl, fun s t h => ?_⟩
  rcases command_bind_cases (i := .cldec) rfl h with ⟨ha, hf, hl⟩ | ⟨a, ha, hfa, h⟩
  · rw [if_neg hl]
    exact ⟨_, _, _, _, ha, exec_halted (by simp) hf, exec_halted (by simp) hf, exec_halted (by simp) hf,
      exec_halted (by simp) hf, fun _ _ => .inl rfl⟩
  rcases command_bind_cases (i := .build .metaAlpha) rfl h with ⟨hb, hf, hl⟩ | ⟨b, hb, hfb, h⟩
  · rw [if_neg hl]
    exact ⟨_, _, _, _, ha, exec_endOk (by simp) hfa hb, exec_halted (by simp) hf, exec_halted (by simp) hf,
      exec_halted (by simp) hf, fun _ _ => .inr (.inl rfl)⟩
  rcases command_bind_cases (i := .lendec) rfl h with ⟨hc, hf, hl⟩ | ⟨c, hc, hfc, h⟩
  · rw [if_neg hl]
    exact ⟨_, _, _, _, ha, exec_endOk (by simp) hfa hb, exec_endOk (by simp) hfb hc, exec_halted (by simp) hf,
      exec_halted (by simp) hf, fun _ _ => .inr (.inr (.inl rfl))⟩
  rcases command_bind_cases (i := .build .realAlpha) rfl h with ⟨hd, hf, hl⟩ | ⟨d, hd, hfd, h⟩
  · rw [if_neg hl]
    exact ⟨_, _, _, _, ha, exec_endOk (by simp) hfa hb, exec_endOk (by simp) hfb hc, exec_endOk (by simp) hfc hd,
      exec_halted (by simp) hf, fun _ _ => .inr (.inr (.inr rfl))⟩
  obtain ⟨he, hl⟩ := execStrdec_of_fatal hfd h
  rw [if_pos hl]
  exact ⟨_, _, _, _, ha, exec_endOk (by simp) hfa hb, exec_endOk (by simp) hfb hc, exec_endOk (by simp) hfc hd,
    exec_endOk (by simp) hfd he, fun hne => absurd hl hne⟩

end Sys2Proof.Machine
end

section
/-!
`RUN` on a whole session (45_stream_session.md R191): the five steps on the four parts of the stream.
-/
namespace Sys2Proof.Machine

/-- A path to a Leaf in a built tree turns at least once, as a bare Leaf never stands at the root (10_state.md R34). -/
theorem path_ne_nil_of_insertAll {tab : List CodeEntry} {tree : Node} (h : insertAll tab 0 .empty = some tree)
    {path : List Bool} {y : Symbol} (hy : tree.follow path = some (.leaf y)) : path ≠ [] := by
  rintro rfl
  have hroot : tree = .leaf y := by simpa using hy
  have hleaf := insertAll_empty_not_leaf h
  rw [hroot] at hleaf
  cases hleaf

/-- The end of part 4 depends on the size of the buffer alone. -/
theorem StreamEnds.congr {s t : State} {tree : Node} {p : Nat} {tail : List Bool} {e : SubCause}
    (h : StreamEnds s tree p tail e) (hl : s.bufLen = t.bufLen) : StreamEnds t tree p tail e := by
  have htotal : s.totalBits = t.totalBits := by simp only [State.totalBits, hl]
  cases e with
  | none => exact ⟨h.1, h.2.trans htotal⟩
  | exhaustion => exact ⟨h.1, h.2.1.trans htotal, h.2.2⟩
  | emptyNode => exact ⟨htotal ▸ h.1, h.2⟩

/-- The state after `CLDEC` and `BUILD 0` on an accepted list of code lengths whose codes end at stream bit `p`. -/
def afterMeta (s : State) (p skip : Nat) (vals : List CodeLen) (tree : Node) : State :=
  { s with
    pos := BitVec.ofNat 64 p
    table0 := canonTable (clLens skip vals)
    space := 32 - (lensCost 32 vals : Int)
    numCodes := BitVec.ofNat 5 (nonzeroCount vals)
    tree0 := tree }

/-- The state after `LENDEC` and `BUILD 1` on an accepted list of items that leave `a` and end at stream bit `p`. -/
def afterReal (s : State) (p : Nat) (a : LenAcc) (tree : Node) : State :=
  { s with
    pos := BitVec.ofNat 64 p
    table1 := canonTable (padLens s.params.nsym a.lens)
    space := 0
    symPos := BitVec.ofNat 17 a.lens.length
    prevNz := a.prev
    repCmd := a.cmd
    repCount := a.count
    tree1 := tree }

/-- A stream bit within the buffer fits `POS`. -/
theorem pos_toNat_of_le {s : State} {p : Nat} (h : p ≤ s.totalBits) : (BitVec.ofNat 64 p).toNat = p :=
  setPos_pos_toNat h

/-- `CLDec` and `Build(0)` on parts 1 and 2 of an accepted stream, with more steps `g` behind them. -/
theorem clDec_buildTree_done {s : State} {skip : Nat} {vals : List CodeLen} {tree : Node} (g : State → Ret Unit)
    (ha : ClAccepted skip vals) (ht : insertAll (canonTable (clLens skip vals)) 0 .empty = some tree)
    (hh : Holds s s.pos.toNat (clStream skip vals))
    (h4 : s.pos.toNat + (clStream skip vals.dropLast).length + 4 ≤ s.totalBits) :
    ((clDec s).bind fun _ s => (buildTree .metaAlpha s).bind fun _ => g) =
      g (afterMeta s (s.pos.toNat + (clStream skip vals).length) skip vals tree) := by
  rw [clDec_done ha hh h4, Ret.bind_done, buildTree_done (tree := tree), Ret.bind_done]
  · rfl
  · exact ht

/-- `LenDec` and `Build(1)` on part 3 of an accepted stream, with more steps `g` behind them. -/
theorem lenDec_buildTree_done {s : State} {p : Nat} {path : Symbol → List Bool} {dangling : Bool} {items : List LenItem}
    {tree : Node} (g : State → Ret Unit) (hp : s.pos.toNat = p) (ha : LenAccepted s.params dangling items)
    (ht : insertAll (canonTable (padLens s.params.nsym (lenFinal dangling items).lens)) 0 .empty = some tree)
    (hleaf : ∀ i ∈ items, path i.sym ≠ [] ∧ s.tree0.follow (path i.sym) = some (.leaf i.sym))
    (hh : Holds s p (lenStream path items))
    (hd : dangling = true → p + (lenStream path items).length = s.totalBits) :
    ((lenDec s).bind fun _ s => (buildTree .realAlpha s).bind fun _ => g) =
      g (afterReal s (p + (lenStream path items).length) (lenFinal dangling items) tree) := by
  subst hp
  rw [lenDec_done ha hleaf hh hd, Ret.bind_done, buildTree_done (tree := tree), Ret.bind_done]
  · rfl
  · exact ht

/-- Settles O35: each part of the stream begins where the step before it left the cursor, and its codes lead to Leaves
of the tree that the `BUILD` before it made. -/
theorem runDecodesAWholeSession : Obligations.RunDecodesAWholeSession := by
  unfold Obligations.RunDecodesAWholeSession
  intro s skip vals dangling items ys tail e tree0 tree1 p0 p1 hf hcl hlen ht0 ht1 hleaf0 hleaf1 hh h4 hd hend
  have hmeta : Holds s s.pos.toNat (clStream skip vals) := hh.append_left.append_left.append_left
  have hreal := hh.append_left.append_left.append_right
  have hsyms : Holds s (s.pos.toNat + (clStream skip vals ++ lenStream p0 items).length) (symStream p1 ys ++ tail) := by
    rw [List.append_assoc (clStream skip vals ++ lenStream p0 items)] at hh
    exact hh.append_right
  simp only [List.length_append, ← Nat.add_assoc] at hsyms hd hend ⊢
  have hpos1 := pos_toNat_of_le (Nat.le_trans (Nat.le_add_right _ _) hreal.1)
  have hpos2 := pos_toNat_of_le hreal.1
  have hitems : ∀ i ∈ items, p0 i.sym ≠ [] ∧ tree0.follow (p0 i.sym) = some (.leaf i.sym) :=
    fun i hi => ⟨path_ne_nil_of_insertAll ht0 (hleaf0 i hi), hleaf0 i hi⟩
  have hys : ∀ y ∈ ys, p1 y ≠ [] ∧ tree1.follow (p1 y) = some (.leaf y) :=
    fun y hy => ⟨path_ne_nil_of_insertAll ht1 (hleaf1 y hy), hleaf1 y hy⟩
  have hparts12 := clDec_buildTree_done (fun s => (lenDec s).bind fun _ s => (buildTree .realAlpha s).bind fun _ => strDec)
    hcl ht0 hmeta h4
  have hpart3 := lenDec_buildTree_done (s := afterMeta s (s.pos.toNat + (clStream skip vals).length) skip vals tree0)
    strDec hpos1 hlen ht1 hitems (hreal.congr rfl rfl rfl) hd
  have hpart4 := strDec_done (s := afterReal (afterMeta s (s.pos.toNat + (clStream skip vals).length) skip vals tree0)
      (s.pos.toNat + (clStream skip vals).length + (lenStream p0 items).length) (lenFinal dangling items) tree1)
    hys (by rw [afterReal, hpos2]; exact hsyms.congr rfl rfl rfl) (by rw [afterReal, hpos2]; exact hend.congr rfl)
  refine (command_done (fatal := true) hf (hparts12.trans (hpart3.trans hpart4))).trans ?_
  rw [afterReal, hpos2]
  cases e <;> rfl

end Sys2Proof.Machine
end

section
/-!
`ADV` and `RET` (40_bitcursor.md R117, R118): the primitive moves the cursor, or raises with nothing written.
-/
namespace Sys2Proof.Machine

/-- Moving the cursor forward by an operand, as a sum of bit vectors. -/
theorem setPos_add_count (s : State) (n : BitVec 16) :
    setPos (s.pos.toNat + n.toNat) s = { s with pos := s.pos + n.setWidth 64 } := by
  rw [setPos, BitVec.ofNat_add, BitVec.ofNat_toNat, BitVec.ofNat_toNat, BitVec.setWidth_eq]

/-- Moving the cursor back by an operand, as a difference of bit vectors. -/
theorem setPos_sub_count {s : State} {n : BitVec 16} (h : n.toNat ≤ s.pos.toNat) :
    setPos (s.pos.toNat - n.toNat) s = { s with pos := s.pos - n.setWidth 64 } := by
  have hn : n.toNat < 2 ^ 64 := Nat.lt_trans n.isLt (by decide)
  rw [setPos, ← BitVec.ofNat_sub_ofNat_of_le _ _ hn h, BitVec.ofNat_toNat, BitVec.ofNat_toNat, BitVec.setWidth_eq]

/-- `ADV n` within the buffer moves the cursor forward. -/
theorem execAdv_next {n : BitVec 16} {s : State} (hf : s.fatal = false) (h : s.pos.toNat + n.toNat ≤ s.totalBits) :
    exec (.adv n) s = .next { s with pos := s.pos + n.setWidth 64, last := .ok } :=
  command_done (body := bodyOf (.adv n)) hf ((advance_done h).trans (congrArg _ (setPos_add_count s n)))

/-- `RET n` within the buffer moves the cursor back. -/
theorem execRet_next {n : BitVec 16} {s : State} (hf : s.fatal = false) (h : n.toNat ≤ s.pos.toNat) :
    exec (.ret n) s = .next { s with pos := s.pos - n.setWidth 64, last := .ok } :=
  command_done (body := bodyOf (.ret n)) hf ((retreat_done h).trans (congrArg _ (setPos_sub_count h)))

/-- Settles O14: each primitive has its move and its raise, and the wrapper ends both. -/
theorem advanceAndRetreatMoveTheCursor : Obligations.AdvanceAndRetreatMoveTheCursor := by
  unfold Obligations.AdvanceAndRetreatMoveTheCursor
  intro s n hf
  refine ⟨execAdv_next hf, fun h => ?_, execRet_next hf, fun h => ?_⟩
  · exact command_raised (body := bodyOf (.adv n)) hf (advance_raised h)
  · exact command_raised (body := bodyOf (.ret n)) hf (retreat_raised h)

end Sys2Proof.Machine
end

section
/-!
The laws of `READ` (40_bitcursor.md R121): a `READ` that ended `OK` leaves `afterRead`, from which `RET` goes back and
the next `READ` goes on.
-/
namespace Sys2Proof.Machine

/-- The state behind a `READ n` that had enough bits (R116). -/
def afterRead (n : BitVec 16) (s : State) : State :=
  { s with res := BitVec.ofNat 64 (bits s s.pos.toNat n.toNat), pos := s.pos + n.setWidth 64, last := .ok }

theorem execRead_next {n : BitVec 16} {s : State} (hf : s.fatal = false) (hn : n.toNat ≤ 64)
    (h : s.pos.toNat + n.toNat ≤ s.totalBits) : exec (.read n) s = .next (afterRead n s) :=
  command_done (body := bodyOf (.read n)) hf (bodyOf_read_done hn h)

/-- A `READ n` that ended `OK` was legal and had its bits. -/
theorem execRead_ok {n : BitVec 16} {s t : State} (hf : s.fatal = false) (h : exec (.read n) s = .next t)
    (ht : t.last = .ok) : n.toNat ≤ 64 ∧ s.pos.toNat + n.toNat ≤ s.totalBits ∧ t = afterRead n s := by
  obtain ⟨-, hshort, hillegal⟩ := readReturnsTheBitsAndAdvances s n hf
  by_cases hn : n.toNat ≤ 64
  · by_cases hle : s.pos.toNat + n.toNat ≤ s.totalBits
    · rw [execRead_next hf hn hle] at h
      cases h
      exact ⟨hn, hle, rfl⟩
    · rw [hshort hn (Nat.not_le.mp hle)] at h
      cases h
      cases ht
  · rw [hillegal (Nat.not_le.mp hn)] at h
    cases h
    cases ht

theorem afterRead_pos_toNat {n : BitVec 16} {s : State} (h : s.pos.toNat + n.toNat ≤ s.totalBits) :
    (afterRead n s).pos.toNat = s.pos.toNat + n.toNat := by
  have htotal := s.totalBits_lt
  rw [afterRead, BitVec.toNat_add, BitVec.toNat_setWidth]
  omega

/-- A field of at most 64 bits fits `RES`. -/
theorem afterRead_res_toNat {n : BitVec 16} {s : State} (hn : n.toNat ≤ 64) :
    (afterRead n s).res.toNat = bits s s.pos.toNat n.toNat :=
  Nat.mod_eq_of_lt (Nat.lt_of_lt_of_le (bits_lt s _ _) (Nat.pow_le_pow_right (by decide) hn))

/-- `READ` leaves the stream as it was. -/
theorem bits_afterRead (n : BitVec 16) (s : State) (p k : Nat) : bits (afterRead n s) p k = bits s p k :=
  bits_eq_of_buf (s := afterRead n s) (t := s) rfl rfl p k

/-- `RET n` takes the cursor back over what `READ n` read (R121 (b)). -/
theorem execRet_afterRead {n : BitVec 16} {s : State} (hf : s.fatal = false)
    (h : s.pos.toNat + n.toNat ≤ s.totalBits) :
    exec (.ret n) (afterRead n s) = .next { afterRead n s with pos := s.pos, last := .ok } := by
  have hback : (afterRead n s).pos - n.setWidth 64 = s.pos := BitVec.add_sub_cancel _ _
  have hle : n.toNat ≤ (afterRead n s).pos.toNat := by rw [afterRead_pos_toNat h]; exact Nat.le_add_left _ _
  rw [execRet_next (s := afterRead n s) hf hle, hback]

/-- Reading `n` bits and then `m` bits reads `n + m` bits, low part first, and stops at the same place (R121 (d)). -/
theorem afterRead_add {n m : BitVec 16} {s : State} (hnm : n.toNat + m.toNat ≤ 64)
    (hn : s.pos.toNat + n.toNat ≤ s.totalBits)
    (hm : (afterRead n s).pos.toNat + m.toNat ≤ s.totalBits) :
    s.pos.toNat + (n + m).toNat ≤ s.totalBits ∧
      (afterRead (n + m) s).pos = (afterRead m (afterRead n s)).pos ∧
      (afterRead (n + m) s).res.toNat =
        (afterRead n s).res.toNat + (afterRead m (afterRead n s)).res.toNat <<< n.toNat := by
  have hsum : (n + m).toNat = n.toNat + m.toNat := BitVec.toNat_add_of_lt (by omega)
  have hpos := afterRead_pos_toNat hn
  have hle : s.pos.toNat + (n + m).toNat ≤ s.totalBits := by omega
  refine ⟨hle, BitVec.eq_of_toNat_eq ?_, ?_⟩
  · rw [afterRead_pos_toNat hle, afterRead_pos_toNat (s := afterRead n s) hm, hpos, hsum, Nat.add_assoc]
  · rw [afterRead_res_toNat (by omega), afterRead_res_toNat (by omega), afterRead_res_toNat (by omega), bits_afterRead,
      hpos, hsum, bits_add]

/-- Settles O16: (b) is `execRet_afterRead`, (c) the value both commands return, (d) `afterRead_add`. -/
theorem readLaws : Obligations.ReadLaws := by
  unfold Obligations.ReadLaws
  intro s t n hf h ht
  obtain ⟨hn, hle, rfl⟩ := execRead_ok hf h ht
  refine ⟨⟨_, execRet_afterRead hf hle, rfl, rfl⟩, ?_, fun m u hnm hu hok => ?_⟩
  · exact ⟨_, command_done (body := bodyOf (.peek n)) hf (bodyOf_peek_done hn hle), rfl, rfl⟩
  · obtain ⟨-, hm, rfl⟩ := execRead_ok (s := afterRead n s) hf hu hok
    obtain ⟨hle', hpos, hres⟩ := afterRead_add hnm hle hm
    have hlegal : (n + m).toNat ≤ 64 := Nat.le_trans (Nat.mod_le _ _) hnm
    exact ⟨_, execRead_next hf hlegal hle', rfl, hpos, hres⟩

end Sys2Proof.Machine
end

section
/-!
`BUILD` of the codes of its table (41_prefixtree.md R131, R132), and straight after `CANON` (R133; 42_canonical.md
R153).
-/
namespace Sys2Proof.Machine

/-- `BUILD` of a table whose codes do not clash writes their tree and nothing else but `STATUS.LAST`. -/
theorem execBuild_next {a : Alphabet} {s : State} {tree : Node} (hf : s.fatal = false)
    (h : insertAll (s.table a) 0 .empty = some tree) : exec (.build a) s = .next (endOk (s.setTree a tree)) :=
  command_done (body := bodyOf (.build a)) hf (buildTree_done h)

/-- `BUILD` of a table with a clash raises, and leaves `TREE[t]` `Empty`. -/
theorem execBuild_collides {a : Alphabet} {s : State} (hf : s.fatal = false)
    (h : insertAll (s.table a) 0 .empty = none) :
    exec (.build a) s = .next (takeError true .treeCollision .none (s.setTree a .empty)) :=
  command_raised (body := bodyOf (.build a)) hf (by rw [bodyOf, buildTree, h])

/-- Settles O21: a build succeeds exactly if no codes clash, and the leaves of its tree are those of the table. -/
theorem buildMakesTheTreeOfTheCodes : Obligations.BuildMakesTheTreeOfTheCodes := by
  unfold Obligations.BuildMakesTheTreeOfTheCodes
  intro s a hf
  cases h : insertAll (s.table a) 0 .empty with
  | some tree =>
    have hpf : PrefixFree (s.table a) := (insertAll_empty_isSome_iff _).mp (by simp [h])
    refine ⟨fun _ => ⟨tree, execBuild_next hf h, fun i hi => follow_path_of_insertAll h hi, fun path y hy => ?_⟩,
      fun hclash => absurd hpf hclash⟩
    obtain ⟨i, hi, hlen, hpath, hsym⟩ := (insertAll_empty_leaf h path y).mp hy
    exact ⟨i, hi, hlen, hpath, by rwa [Nat.zero_add] at hsym⟩
  | none => exact ⟨fun hpf => absurd h ((insertAll_empty_isSome_iff _).mpr hpf), fun _ => execBuild_collides hf h⟩

/-- A `CANON` that ends `OK` found a code space that is not over-subscribed, and wrote the canonical codes. -/
theorem execCanon_ok {a : Alphabet} {s u : State} (hf : s.fatal = false) (h : exec (.canon a) s = .next u)
    (hok : u.last = .ok) :
    kraftSum (s.table a) ≤ 32768 ∧ u = endOk (s.setTable a (canonTable ((s.table a).map CodeEntry.len))) := by
  rcases command_meets (body := bodyOf (.canon a)) (canon_meets a s) h with
    ⟨hf', -⟩ | ⟨-, t, ⟨hk, rfl⟩, hu⟩ | ⟨-, k, sub, t, ⟨-, hk, -⟩, hu⟩
  · rw [hf] at hf'; cases hf'
  · exact ⟨hk, hu⟩
  · rw [hu, takeError_last, hk] at hok; cases hok

@[simp] theorem State.table_endOk (s : State) (a : Alphabet) : (endOk s).table a = s.table a := by cases a <;> rfl

/-- Settles O19: the canonical codes that `CANON` left do not clash, so all of them can be inserted. -/
theorem buildAfterCanonNeverCollides : Obligations.BuildAfterCanonNeverCollides := by
  unfold Obligations.BuildAfterCanonNeverCollides
  intro s u a hf hcanon hok
  obtain ⟨hk, rfl⟩ := execCanon_ok hf hcanon hok
  rw [kraftSum_eq_lensCost] at hk
  obtain ⟨tree, htree⟩ := insertAll_canonTable hk
  exact ⟨_, execBuild_next (by simpa using hf) (by simpa using htree), rfl⟩

end Sys2Proof.Machine
end

section
/-!
`DECSYM` walks the tree along the stream (41_prefixtree.md R134, R135), at least one bit and at most 15 (R137 (b)).
-/
namespace Sys2Proof.Machine

/-- `DecodeSymbol` on bits that lead to an Internal node at the end of the buffer raises where it began. -/
theorem decodeSymbol_exhaustion {a : Alphabet} {s : State} {path : List Bool} {l r : Node}
    (h : Holds s s.pos.toNat path) (hf : (s.tree a).follow path = some (.internal l r))
    (hend : s.pos.toNat + path.length = s.totalBits) :
    decodeSymbol a s = .raised .treeMismatch .exhaustion s := by
  have hex : exhausted (setPos (s.pos.toNat + path.length) s) = true := by
    rw [exhausted_iff, setPos_pos_toNat h.1, hend, setPos_totalBits]
  rw [decodeSymbol, walk_follow h hf, walk, if_pos hex]
  rfl

/-- `DecodeSymbol` on bits that lead to an Empty node raises behind them, or where it began under `EMPTY_ROLLBACK`. -/
theorem decodeSymbol_emptyNode {a : Alphabet} {s : State} {path : List Bool} (h : Holds s s.pos.toNat path)
    (hf : (s.tree a).follow path = some .empty) :
    decodeSymbol a s = .raised .treeMismatch .emptyNode { s with
      pos := if s.params.emptyRollback then s.pos else BitVec.ofNat 64 (s.pos.toNat + path.length) } := by
  rw [decodeSymbol, walk_follow h hf, walk, setPos_params]
  split <;> rfl

/-- A raise of `DecodeSymbol` is the raise of `DECSYM`, not fatal. -/
theorem execDecsym_raised {a : Alphabet} {s t : State} {k : ErrCode} {sub : SubCause} (hf : s.fatal = false)
    (h : decodeSymbol a s = .raised k sub t) : exec (.decsym a) s = .next (takeError false k sub t) :=
  command_raised (body := bodyOf (.decsym a)) hf (by simp only [bodyOf, h, Ret.bind_raised])

/-- Settles O22: the walk along the path ends at the node the path leads to, which gives the symbol or the raise. -/
theorem decsymWalksTheTree : Obligations.DecsymWalksTheTree := by
  unfold Obligations.DecsymWalksTheTree
  intro s a path hf h
  refine ⟨fun y hy => ?_, fun l r hn hend => ?_, fun hn => ?_⟩
  · rw [execDecsym_leaf hf h hy, BitVec.ofNat_toNat]
  · exact execDecsym_raised hf (decodeSymbol_exhaustion h hn hend)
  · exact execDecsym_raised hf (decodeSymbol_emptyNode h hn)

/-- In a tree that `BUILD` can make no path is longer than 15. -/
theorem Node.wf_path_length {n : Nat} {node node' : Node} {path : List Bool} (h : node.wf n = true)
    (hf : node.follow path = some node') : path.length ≤ 15 := by
  simp only [Node.wf, Bool.and_eq_true] at h
  exact (Node.inner_follow h.2 hf).1

/-- In a tree that `BUILD` can make no Leaf stands at the root (10_state.md R34). -/
theorem Node.wf_leaf_path_pos {n : Nat} {node : Node} {path : List Bool} {y : Symbol} (h : node.wf n = true)
    (hf : node.follow path = some (.leaf y)) : 0 < path.length := by
  cases path with
  | nil =>
    rw [Node.follow_nil, Option.some.injEq] at hf
    simpa [hf, Node.isLeaf] using Node.wf_not_leaf h
  | cons b path => exact Nat.succ_pos _

/-- Settles O24: the walk takes some path of the tree, so the cursor ends where it began or behind that path. -/
theorem decsymReadsOneToFifteenBits : Obligations.DecsymReadsOneToFifteenBits := by
  unfold Obligations.DecsymReadsOneToFifteenBits
  intro s u a hf hc hwf hu
  obtain ⟨path, hh, hwalk⟩ := walk_cases s.pos (s.tree a) s hc
  obtain ⟨hleaf, hexhaustion, hempty⟩ := decsymWalksTheTree s a path hf hh
  have hbehind : (BitVec.ofNat 64 (s.pos.toNat + path.length)).toNat = s.pos.toNat + path.length :=
    pos_toNat_of_le hh.1
  rcases hwalk with ⟨y, hn, -⟩ | ⟨hn, -⟩ | ⟨l, r, hn, hend, -⟩
  · have hlen := Node.wf_path_length hwf hn
    have hpos := Node.wf_leaf_path_pos hwf hn
    have hsym := Node.wf_symbol hwf hn
    have hres : (y.setWidth 64).toNat = y.toNat := BitVec.toNat_setWidth_of_le (by decide)
    cases (hleaf y hn).symm.trans hu
    simp only [hbehind, hres]
    exact ⟨by omega, by omega, fun _ => ⟨by omega, hsym⟩⟩
  · have hlen := Node.wf_path_length hwf hn
    cases (hempty hn).symm.trans hu
    by_cases hroll : s.params.emptyRollback = true
    · simp only [takeError_pos, if_pos hroll]
      exact ⟨Nat.le_refl _, Nat.le_add_right _ _, fun hok => by cases hok⟩
    · simp only [takeError_pos, if_neg hroll, hbehind]
      exact ⟨by omega, by omega, fun hok => by cases hok⟩
  · cases (hexhaustion l r hn hend).symm.trans hu
    exact ⟨Nat.le_refl _, Nat.le_add_right _ _, fun hok => by cases hok⟩

end Sys2Proof.Machine
end

section
/-!
`CANON` (42_canonical.md R150 to R153): when it ends `OK`, what it then leaves in the table, and that the lengths alone
decide both.
-/
namespace Sys2Proof.Machine

/-- `CANON` of lengths that are not over-subscribed writes the canonical codes and nothing else but `STATUS.LAST`. -/
theorem execCanon_next {a : Alphabet} {s : State} (hf : s.fatal = false) (h : kraftSum (s.table a) ≤ 32768) :
    exec (.canon a) s = .next (endOk (s.setTable a (canonTable ((s.table a).map CodeEntry.len)))) :=
  command_done (body := bodyOf (.canon a)) hf (canon_done h)

/-- `CANON` of over-subscribed lengths raises with nothing written. -/
theorem execCanon_overSubscribed {a : Alphabet} {s : State} (hf : s.fatal = false)
    (h : 32768 < kraftSum (s.table a)) : exec (.canon a) s = .next (takeError true .corruptHistogram .none s) :=
  command_raised (body := bodyOf (.canon a)) hf (canon_raised h)

/-- Canonical codes take the code space their lengths take. -/
@[simp] theorem kraftSum_canonTable (ls : List CodeLen) : kraftSum (canonTable ls) = lensCost 32768 ls := by
  rw [kraftSum_eq_lensCost, canonTable_lens]

/-- Lengths, codes by closed form: `assignCodes_code_toNat`, said of the canonical table of the lengths. -/
theorem canonTable_getElem {tab : List CodeEntry} (hk : kraftSum tab ≤ 32768) {i : Nat} (h : i < tab.length)
    (h' : i < (canonTable (tab.map CodeEntry.len)).length) :
    (canonTable (tab.map CodeEntry.len))[i].len = tab[i].len ∧
      (canonTable (tab.map CodeEntry.len))[i].code.toNat =
        if tab[i].len = 0#4 then 0 else codeValue tab i tab[i].len := by
  have hcode := assignCodes_code_toNat tab hk i h
  rw [assignCodes_eq_canonTable] at hcode
  exact hcode h'

/-- A canonical code fits its length; the code 0 of an absent symbol fits the length 0. -/
theorem canonTable_code_lt {tab : List CodeEntry} (hk : kraftSum tab ≤ 32768) {e : CodeEntry}
    (he : e ∈ canonTable (tab.map CodeEntry.len)) : e.code.toNat < 2 ^ e.len.toNat := by
  obtain ⟨i, h', rfl⟩ := List.mem_iff_getElem.mp he
  have h : i < tab.length := by simpa using h'
  obtain ⟨hlen, hcode⟩ := canonTable_getElem hk h h'
  rw [hlen, hcode]
  split
  next => exact Nat.two_pow_pos _
  next hused => exact codeValue_lt tab hk i h hused

/-- `prefixFree_assignCodes`, said of the canonical table of the lengths. -/
theorem prefixFree_canonTable {tab : List CodeEntry} (hk : kraftSum tab ≤ 32768) :
    PrefixFree (canonTable (tab.map CodeEntry.len)) :=
  assignCodes_eq_canonTable tab ▸ prefixFree_assignCodes tab hk

/-- Settles O18: by the Kraft sum the codes of each length end within that length, and the first code of a length lies
behind all extensions of the shorter codes. -/
theorem canonicalCodesArePrefixFree : Obligations.CanonicalCodesArePrefixFree := by
  unfold Obligations.CanonicalCodesArePrefixFree
  intro s u a hf hcanon hok
  obtain ⟨hk, rfl⟩ := execCanon_ok hf hcanon hok
  rw [State.table_endOk, State.table_setTable]
  exact ⟨fun e he => canonTable_code_lt hk he, prefixFree_canonTable hk⟩

/-- Settles O17: the raise is `execCanon_overSubscribed`; the table of `execCanon_next` holds the codes of
`canonTable_getElem`. -/
theorem canonAssignsTheCanonicalCodes : Obligations.CanonAssignsTheCanonicalCodes := by
  unfold Obligations.CanonAssignsTheCanonicalCodes
  intro s a hf
  refine ⟨execCanon_overSubscribed hf, fun hk => ⟨_, execCanon_next hf hk, by simp, fun i h h' => ?_⟩⟩
  simpa only [codeValue, firstCode, lenCount, BitVec.lt_def] using canonTable_getElem hk h h'

/-- `CANON` on a table of canonical codes finds what it would write. -/
theorem execCanon_fixed {a : Alphabet} {s : State} {ls : List CodeLen} (hf : s.fatal = false) (hok : s.last = .ok)
    (h : s.table a = canonTable ls) (hk : lensCost 32768 ls ≤ 32768) : exec (.canon a) s = .next s := by
  have hsame : canonTable ((s.table a).map CodeEntry.len) = s.table a := by rw [h, canonTable_lens]
  rw [execCanon_next hf (by rwa [h, kraftSum_canonTable]), hsame, State.setTable_self, endOk, ← hok]

/-- Settles O20: the lengths decide the Kraft sum, so whether `CANON` raises, and the canonical table. -/
theorem canonIsAFunctionOfTheLengths : Obligations.CanonIsAFunctionOfTheLengths := by
  unfold Obligations.CanonIsAFunctionOfTheLengths
  intro s s' u u' a hlens hf hf' hu hu'
  have hkraft : kraftSum (s.table a) = kraftSum (s'.table a) := by
    rw [kraftSum_eq_lensCost, hlens, ← kraftSum_eq_lensCost]
  rcases Nat.lt_or_ge 32768 (kraftSum (s.table a)) with hover | hk
  · cases (execCanon_overSubscribed hf hover).symm.trans hu
    cases (execCanon_overSubscribed hf' (hkraft ▸ hover)).symm.trans hu'
    exact ⟨rfl, fun hok => by cases hok⟩
  · cases (execCanon_next hf hk).symm.trans hu
    cases (execCanon_next hf' (hkraft ▸ hk)).symm.trans hu'
    rw [kraftSum_eq_lensCost] at hk
    exact ⟨rfl, fun _ => ⟨by simp [hlens], execCanon_fixed (by simpa using hf) rfl (by simp) hk⟩⟩

end Sys2Proof.Machine
end

section
/-!
`LENDEC` accepts only complete codes (44_symbol_alphabet.md R177, R178; 42_canonical.md R151).
-/
namespace Sys2Proof.Machine

/-- `BUILD` of canonical codes ends `OK` (42_canonical.md R153 (a)). -/
theorem execBuild_canonTable {a : Alphabet} {s : State} {ls : List CodeLen} (hf : s.fatal = false)
    (h : s.table a = canonTable ls) (hk : lensCost 32768 ls ≤ 32768) :
    ∃ v, exec (.build a) s = .next v ∧ v.last = .ok := by
  obtain ⟨tree, -, hbuild⟩ := buildTree_canonTable h hk
  exact ⟨_, command_done (body := bodyOf (.build a)) hf hbuild, rfl⟩

/-- A `LENDEC` that ends `OK` has used up `SPACE`, and left the canonical codes of a table of `NSYM` lengths whose Kraft
sum is all of the code space (44_symbol_alphabet.md R177, R178). -/
theorem execLendec_ok {s u : State} (hf : s.fatal = false) (h : exec .lendec s = .next u) (hok : u.last = .ok) :
    u.fatal = false ∧ u.space = 0 ∧
      ∃ ls, ls.length = s.params.nsym ∧ lensCost 32768 ls = 32768 ∧ u.table1 = canonTable ls := by
  rcases command_meets (body := bodyOf .lendec) (lenDec_meets s) h with
    ⟨hf', -⟩ | ⟨-, t, ⟨p, tab, sym, prev, cmd, count, hinv, -, hk, -, rfl⟩, rfl⟩ | ⟨-, k, sub, t, ⟨hk, -⟩, rfl⟩
  · rw [hf] at hf'; cases hf'
  · rw [kraftSum_eq_lensCost] at hk
    exact ⟨hf, rfl, _, by simpa using hinv.size, hk, rfl⟩
  · rw [takeError_last] at hok
    subst hok
    simp at hk

/-- Settles O31: what `LENDEC` leaves is `execLendec_ok`, and a complete code is not over-subscribed. -/
theorem lendecAcceptsOnlyCompleteCodes : Obligations.LendecAcceptsOnlyCompleteCodes := by
  unfold Obligations.LendecAcceptsOnlyCompleteCodes
  intro s u hf hu hok
  obtain ⟨hf', hspace, ls, hsize, hk, htab⟩ := execLendec_ok hf hu hok
  refine ⟨hspace, ?_, ?_, ?_, execBuild_canonTable (a := .realAlpha) hf' htab (Nat.le_of_eq hk)⟩
  · rw [htab, kraftSum_canonTable, hk]
  · rw [htab, canonTable_length, hsize]
  · rw [htab, canonTable_lens]

end Sys2Proof.Machine
end

section
/-!
What `CLDEC` writes and raises, and what it guarantees when it ends `OK` (43_codelength_alphabet.md R163 to R165).
-/
namespace Sys2Proof.Machine

/-- A command that is not refused, whose body meets `D` and `R`, answers the end of a state with `D` or the raise of one
with `R`. -/
theorem command_next_of_meets {fatal : Bool} {body : State → Ret Unit} {s : State} {D : Unit → State → Prop}
    {R : ErrCode → SubCause → State → Prop} (hf : s.fatal = false) (hb : (body s).Meets D R) :
    (∃ u, D () u ∧ command fatal body s = .next (endOk u)) ∨
      ∃ k sub u, R k sub u ∧ command fatal body s = .next (takeError fatal k sub u) := by
  obtain ⟨t, ht⟩ := command_next (fatal := fatal) hb.ne_stuck
  rcases command_meets hb ht with ⟨hf', -⟩ | ⟨-, u, hu, rfl⟩ | ⟨-, k, sub, u, hu, rfl⟩
  · rw [hf] at hf'; cases hf'
  · exact .inl ⟨u, hu, ht⟩
  · exact .inr ⟨k, sub, u, hu, ht⟩

/-- Settles O27: the two ends of `clDec_meets`, put together by the wrapper; while `CLDec` reads its slots no code is
written yet. -/
theorem cldecWritesOnlyItsState : Obligations.CldecWritesOnlyItsState := by
  unfold Obligations.CldecWritesOnlyItsState
  intro s hf
  rcases command_next_of_meets (fatal := true) hf (clDec_meets s) with
    ⟨-, ⟨p, tab, space, num, -, -, -, -, -, rfl⟩, hnext⟩ |
    ⟨k, -, -, ⟨hk, rfl, p, tab, space, num, rfl, -, -, -, hinv⟩, hnext⟩
  · exact ⟨p, _, space, num, .inl hnext⟩
  · exact ⟨p, tab, space, num, .inr ⟨k, hk, hinv.codes, hnext⟩⟩

/-- If all symbols are absent, `SPACE` is still 32 and `NUM_CODES` is 0. So where `SPACE` is used up or one code is
counted, some symbol has a length. -/
theorem ClInv.exists_present {slots : List Nat} {tab : List CodeEntry} {space : Int} {num : BitVec 5}
    (h : ClInv slots tab space num) (hend : space = 0 ∨ num = 1#5) : ∃ l ∈ tab.map CodeEntry.len, l ≠ 0#4 := by
  by_contra! hall
  have hlens : tab.map CodeEntry.len = List.replicate tab.length 0#4 :=
    List.eq_replicate_iff.mpr ⟨List.length_map _, hall⟩
  have hcost := h.cost
  have hnumber := h.number
  rw [kraftSum_eq_lensCost, hlens, lensCost_replicate, lenCost_zero, Nat.mul_zero] at hcost
  rw [hlens, nonzeroCount, List.countP_replicate] at hnumber
  rcases hend with rfl | rfl
  · simp at hcost
  · simp at hnumber

/-- A `CLDEC` that ends `OK` left the canonical codes of lengths up to 5, not all of them 0, which take all of the code
space, or at most half of it where there is just one code (43_codelength_alphabet.md R163, R165). -/
theorem execCldec_ok {s u : State} (hf : s.fatal = false) (h : exec .cldec s = .next u) (hok : u.last = .ok) :
    u.fatal = false ∧ ∃ ls, u.table0 = canonTable ls ∧ (∀ l ∈ ls, l.toNat ≤ 5) ∧ (∃ l ∈ ls, l ≠ 0#4) ∧
      (u.space = 0 ∧ lensCost 32768 ls = 32768 ∨ u.numCodes = 1#5 ∧ lensCost 32768 ls ≤ 16384) := by
  rcases command_meets (body := bodyOf .cldec) (clDec_meets s) h with
    ⟨hf', -⟩ | ⟨-, t, ⟨p, tab, space, num, hinv, -, hend, -, -, rfl⟩, rfl⟩ | ⟨-, k, sub, t, ⟨hk, -⟩, rfl⟩
  · rw [hf] at hf'; cases hf'
  · have hpresent := hinv.exists_present (hend.imp And.left And.left)
    rw [kraftSum_eq_lensCost] at hend
    exact ⟨hf, _, rfl, List.forall_mem_map.mpr hinv.short, hpresent, hend⟩
  · rw [takeError_last] at hok
    subst hok
    simp at hk

/-- Settles O28: what `CLDEC` leaves is `execCldec_ok`, and in both cases the code is not over-subscribed. -/
theorem cldecGuarantees : Obligations.CldecGuarantees := by
  unfold Obligations.CldecGuarantees
  intro s u hf hu hok
  obtain ⟨hf', ls, htab, hshort, hpresent, hend⟩ := execCldec_ok hf hu hok
  have hlens : u.table0.map CodeEntry.len = ls := by rw [htab, canonTable_lens]
  have hk : lensCost 32768 ls ≤ 32768 := by omega
  rw [← hlens] at hshort hpresent
  refine ⟨List.forall_mem_map.mp hshort, by simpa using hpresent, by rw [hlens, htab],
    execBuild_canonTable (a := .metaAlpha) hf' htab hk, ?_⟩
  rw [kraftSum_eq_lensCost, hlens]
  exact hend

end Sys2Proof.Machine
end

section
/-!
What `LENDEC` decodes from an accepted stream, and what it writes and raises (44_symbol_alphabet.md R170 to R179).
-/
namespace Sys2Proof.Machine

/-- Settles O29: the body of `LENDEC` on an accepted stream, ended by the wrapper. -/
theorem lendecDecodesAcceptedItems : Obligations.LendecDecodesAcceptedItems := by
  unfold Obligations.LendecDecodesAcceptedItems
  intro s path dangling items hf haccepted hleaf hholds hend
  exact command_done (fatal := true) hf (lenDec_done haccepted hleaf hholds hend)

/-- Settles O30: the two ends of `lenDec_meets`, put together by the wrapper; while `LenDec` fills in lengths no code is
written yet. -/
theorem lendecWritesOnlyItsState : Obligations.LendecWritesOnlyItsState := by
  unfold Obligations.LendecWritesOnlyItsState
  intro s hf
  rcases command_next_of_meets (fatal := true) hf (lenDec_meets s) with
    ⟨-, ⟨p, tab, sym, prev, cmd, count, -, -, -, -, rfl⟩, hnext⟩ |
    ⟨k, sub, -, ⟨hk, -, p, tab, space, sym, prev, cmd, count, rfl, -, hinv, -⟩, hnext⟩
  · exact ⟨p, _, 0, sym, prev, cmd, count, .inl hnext⟩
  · have hkind : k = .treeMismatch ∨ k = .insufficientBits ∨ k = .lengthOverrun ∨ k = .corruptHistogram := by tauto
    exact ⟨p, tab, space, sym, prev, cmd, count, .inr ⟨k, sub, hkind, hinv.codes, hnext⟩⟩

end Sys2Proof.Machine
end

section
/-!
`STRDEC` to each of its ends, the errors of `RUN`, and that every command ends (45_stream_session.md R190, R191, R193).
-/
namespace Sys2Proof.Machine

/-- Settles O32: `StrDec` on a stream of codes, ended by the wrapper. -/
theorem strdecDecodesToTheEnd : Obligations.StrdecDecodesToTheEnd := by
  unfold Obligations.StrdecDecodesToTheEnd
  intro s path ys tail e hf hleaf hholds hend
  exact command_done (fatal := false) hf (strDec_done hleaf hholds hend)

/-- The body of a command ends from every state whose `TREE[1]` is not a bare Leaf. Only `STRDEC` needs that: it walks
the tree it finds, where `RUN` walks the one it has just built. -/
theorem bodyOf_ne_stuck {i : Instr} (hi : i ≠ .load) {s : State} (htree : s.tree1.isLeaf = false) :
    bodyOf i s ≠ .stuck := by
  by_cases hs : i = .strdec
  · subst hs
    exact (strDec_meets htree).ne_stuck
  · exact (bodyOf_meets hi hs s).ne_stuck

/-- Settles O47: the wrapper answers a next state when the body ends, and `LOAD` has no loop at all. -/
theorem everyCommandEnds : Obligations.EveryCommandEnds := by
  unfold Obligations.EveryCommandEnds
  intro i s htree
  by_cases hi : i = .load
  · subst hi
    exact ⟨_, rfl⟩
  · rw [exec_eq_command hi]
    exact command_next (bodyOf_ne_stuck hi htree)

/-- Settles O33: `StrDec` returns and never raises, so the wrapper always ends `OK`. -/
theorem strdecAlwaysEndsOk : Obligations.StrdecAlwaysEndsOk := by
  unfold Obligations.StrdecAlwaysEndsOk
  intro s hf htree
  rcases command_next_of_meets (fatal := false) hf (strDec_meets htree) with
    ⟨-, ⟨p, ys, e, rfl, -, -⟩, hnext⟩ | ⟨-, -, -, hraise, -⟩
  · exact ⟨p, ys, e, hnext⟩
  · exact hraise.elim

/-- A raise of `Run` is one of the kinds of the two length phases, with its sub-cause (45_stream_session.md R191). -/
theorem runError_of_raised {s u : State} {k : ErrCode} {sub : SubCause} (h : runSession s = .raised k sub u) :
    RunError k sub := by
  have hmeets := runSession_meets s
  rw [h] at hmeets
  exact hmeets.1

/-- Settles O36: `RUN` did not end `OK` and was not halted, so its body raised; what a raise leaves alone is the
command's frame, and its handling writes the error record. -/
theorem runErrorAppendsNothing : Obligations.RunErrorAppendsNothing := by
  unfold Obligations.RunErrorAppendsNothing
  intro s t hf h hlast
  rcases exec_cases (i := .run) (by simp) h with ⟨hhalted, -⟩ | ⟨-, u, -, -, rfl⟩ | ⟨-, k, sub, u, hbody, hraise, rfl⟩
  · rw [hf] at hhalted; cases hhalted
  · exact absurd (endOk_last u) hlast
  · obtain ⟨hres, hout, hending⟩ := hraise.quiet
    obtain ⟨hkind, -⟩ := runError_of_raised hbody
    exact ⟨by simp [fatalOf], hout, hres, hending, rfl, rfl, hkind⟩

end Sys2Proof.Machine
end

section
/-!
The gate and the exceptions (60_exceptions.md R217, R218, R220 to R222): what issuing a word does while halted and while
not, and which raises are fatal.
-/
namespace Sys2Proof.Machine

/-- Issuing a word that the decoder refuses. -/
theorem issueWord_of_illegal {w : Word} {e : IllegalWord} (hd : decode w = .error e) (s : State) :
    issueWord w s = .next (issueIllegal s) := by simp only [issueWord, hd]

/-- A legal word runs its command where the buffer is clean, HPTD is halted, or the command does not read the buffer. -/
theorem issueWord_runs {w : Word} {i : Instr} {s : State} (hd : decode w = .ok i)
    (h : s.liveWritten = false ∨ s.fatal = true ∨ readsBuffer i = false) : issueWord w s = exec i s := by
  rcases h with h | h | h <;> simp [issueWord, hd, h]

/-- A command that would read a live byte the host has overwritten is refused (assumption 5). -/
theorem issueWord_refuses {w : Word} {i : Instr} {s : State} (hd : decode w = .ok i) (hl : s.liveWritten = true)
    (hf : s.fatal = false) (hr : readsBuffer i = true) : issueWord w s = .refused .liveBufferChanged := by
  simp [issueWord, hd, hl, hf, hr]

/-- While halted every word but that of a `LOAD` is answered `Halted` (60_exceptions.md R218, R222). -/
theorem issueWord_halted {w : Word} {s : State} (hf : s.fatal = true) (hl : decode w ≠ .ok .load) :
    issueWord w s = .next (refuseHalted s) := by
  cases hd : decode w with
  | error e => simp [issueWord_of_illegal hd, issueIllegal, hf]
  | ok i =>
    have hi : i ≠ .load := by rintro rfl; exact hl hd
    rw [issueWord_runs hd (.inr (.inl hf)), exec_eq_command hi, command_halted hf]

/-- Settles O5: the next move is the word, and issuing it runs its command or refuses it. -/
theorem stepRunsDecodedCommand : Obligations.StepRunsDecodedCommand := by
  unfold Obligations.StepRunsDecodedCommand
  refine ⟨fun s w moves i hhost hd => ?_, fun s => step_idle⟩
  rw [step_of_host hhost, hostMove]
  exact ⟨fun h => issueWord_runs hd h, fun hl hf hr => issueWord_refuses hd hl hf hr⟩

/-- Issuing an illegal word while not halted raises `IllegalCommand`, not fatally (60_exceptions.md R217). -/
theorem step_illegal {s : State} {w : Word} {moves : List HostMove} {e : IllegalWord}
    (hhost : s.host = .issue w :: moves) (hd : decode w = .error e) (hf : s.fatal = false) :
    step s = .next (takeError false .illegalCommand .none { s with host := moves }) := by
  rw [step_of_host hhost, hostMove, issueWord_of_illegal hd]
  simp [issueIllegal, hf]

/-- Settles O7: the raise of `IllegalCommand` writes the record, and being no fatal one leaves `FATAL` as it was. -/
theorem illegalWordOnlyRecords : Obligations.IllegalWordOnlyRecords := by
  unfold Obligations.IllegalWordOnlyRecords
  intro s w moves e hhost hd hf
  rw [step_illegal hhost hd hf]
  simp [takeError]

/-- Settles O8: the gate of the wrapper and that of an illegal word are the same `refuseHalted`. -/
theorem haltedGate : Obligations.HaltedGate := by
  unfold Obligations.HaltedGate
  intro s w moves hhost hf hl
  rw [step_of_host hhost]
  exact issueWord_halted hf hl

/-- The commands whose raises are fatal (60_exceptions.md R221). -/
theorem fatalOf_iff (i : Instr) :
    fatalOf i = true ↔ (∃ a, i = .canon a) ∨ (∃ a, i = .build a) ∨ i = .cldec ∨ i = .lendec ∨ i = .run := by
  cases i <;> simp [fatalOf]

/-- A command issued while not halted sets `FATAL` exactly if it raised and its raises are fatal; `STRDEC`, `EXH`, `REM`
and `LOAD` raise nothing. -/
theorem exec_fatal_iff {i : Instr} {s t : State} (hf : s.fatal = false) (h : exec i s = .next t) :
    (t.fatal = true ↔ t.last ≠ .ok ∧ fatalOf i = true) ∧
      (i = .strdec ∨ i = .exh ∨ i = .rem ∨ i = .load → t.last = .ok) := by
  by_cases hi : i = .load
  · subst hi
    rw [← Host.Outcome.next.inj h]
    exact ⟨iff_of_false Bool.false_ne_true (by simp [fatalOf]), fun _ => rfl⟩
  rcases exec_cases hi h with ⟨hhalted, -⟩ | ⟨-, u, -, hF, rfl⟩ | ⟨-, k, sub, u, -, hR, rfl⟩
  · simp [hf] at hhalted
  · obtain ⟨-, hfatal, -⟩ := hF.error
    simp [hfatal, hf]
  · obtain ⟨-, hfatal, -⟩ := hR.frame.error
    obtain ⟨hok, -⟩ := hR.kind
    obtain ⟨hstrdec, hexh, hrem⟩ := hR.who
    simp [hfatal, hf, hok, hi, hstrdec, hexh, hrem]

/-- Settles O39: `fatalOf` is true of exactly the five commands, and `IllegalCommand` is raised outside them. -/
theorem fatalRaisesAreTheStructuralOnes : Obligations.FatalRaisesAreTheStructuralOnes := by
  unfold Obligations.FatalRaisesAreTheStructuralOnes
  constructor
  · intro i s t hf h
    rw [← fatalOf_iff]
    exact exec_fatal_iff hf h
  · intro s t w moves e hhost hd hf h
    rw [step_illegal hhost hd hf] at h
    rw [← Host.Outcome.next.inj h]
    exact ⟨takeError_last .., by simp [hf]⟩

end Sys2Proof.Machine
end
